-- ==== Sys2Proof/Word.lean ====
section
/-! DEFINITION. The widths of the Huffman encoder core (spec/00_scope.md R5, R6): every value is unsigned. -/

namespace Sys2Proof

/-- A byte value, also called a symbol (R7, glossary). -/
abbrev Byte := BitVec 8

/-- A host-visible register and a command word, `REGW` = 64 (R5, R49). -/
abbrev Word := BitVec 64

/-- A count, `CNTW` = 55 (R5). -/
abbrev Count := BitVec 55

/-- A node index, `IDXW` = 9 (R5). -/
abbrev NodeIdx := BitVec 9

/-- A stored code pattern, `PATW` = 256 (R5). -/
abbrev Pattern := BitVec 256

/-- A stored code length, `LENW` = 9 (R5). -/
abbrev CodeLen := BitVec 9

/-- A register number, `REGAW` = 12 (R5). -/
abbrev RegNum := BitVec 12

end Sys2Proof
end

