-- ==== Sys2Proof/Syntax.lean ====
section
/-! DEFINITION. The eleven commands of HEC command set 1 (spec/30_encoding.md R51, opcode_table.json). -/

namespace Sys2Proof

/-- One constructor per row of the opcode map, in the map's order (R51). -/
inductive Instr where
  /-- Count the input from the cursor to the end (R58). -/
  | count
  /-- Reposition the input to its start (R59). -/
  | rewind
  /-- Build the tree from the frequency table (R70). -/
  | tbuild
  /-- Make the code table from the tree (R81). -/
  | cgen
  /-- Append the low `n` bits of `pat`, `n` at most 32 (R88). -/
  | bwrite (pat : BitVec 32) (n : BitVec 8)
  /-- Flush the partial byte (R89). -/
  | bclose
  /-- Write the magic (R95). -/
  | hdr
  /-- Serialize the tree, then the footer (R96). -/
  | tser
  /-- Send the code of one symbol (R98). -/
  | emit (sym : Byte)
  /-- Send the codes of the input from the cursor to the end (R99). -/
  | payload
  /-- The whole encoding of the input (R100). -/
  | encode
  deriving DecidableEq, Repr

end Sys2Proof
end

