-- ==== Sys2Proof/WellFormed.lean ====
section
/-! DEFINITION. Which terms of `Instr` a command word can stand for (spec/30_encoding.md R50, R51). -/

namespace Sys2Proof

/-- Every operand at every value is legal, but for `BWRITE`, whose bit count is at most 32 (R50, R52 (c)). -/
def Instr.wellFormed : Instr → Bool
  | .count => true
  | .rewind => true
  | .tbuild => true
  | .cgen => true
  | .bwrite _ n => decide (n.toNat ≤ 32)
  | .bclose => true
  | .hdr => true
  | .tser => true
  | .emit _ => true
  | .payload => true
  | .encode => true

end Sys2Proof
end

