-- ==== Sys2Proof/Decode.lean ====
section
/-! DEFINITION. Command words (spec/30_encoding.md R49 to R52): the decoder, total on every 64-bit word, and after it
the encoder. -/

namespace Sys2Proof

/-- Why a word is illegal: the three cases of R52. All three are the one fault `ILL` to the host. -/
inductive Reject where
  /-- R52 (a): `op` is 0x00 or 0x0C to 0xFF. -/
  | badOpcode
  /-- R52 (b): a bit that the row of its command fixes to zero is 1. -/
  | fixedBitSet
  /-- R52 (c): a `BWRITE` with n above 32. -/
  | countAbove32
  deriving DecidableEq, Repr

/-- `op` = w[63:56] (R49). -/
def cmdOp (w : Word) : BitVec 8 := w.extractLsb' 56 8

/-- `a` = w[55:48] (R49). -/
def cmdA (w : Word) : BitVec 8 := w.extractLsb' 48 8

/-- `rsv` = w[47:32] (R49). -/
def cmdRsv (w : Word) : BitVec 16 := w.extractLsb' 32 16

/-- `pat` = w[31:0] (R49). -/
def cmdPat (w : Word) : BitVec 32 := w.extractLsb' 0 32

/-- A row without operands: bits 55:0 are fixed to zero (R51). -/
def noOperands (w : Word) (i : Instr) : Except Reject Instr :=
  if cmdA w = 0#8 ∧ cmdRsv w = 0#16 ∧ cmdPat w = 0#32 then .ok i else .error .fixedBitSet

/-- The row of `BWRITE`: bits 47:32 are fixed to zero, and n is at most 32 (R51, R52). -/
def bwriteOperands (w : Word) : Except Reject Instr :=
  if cmdRsv w ≠ 0#16 then .error .fixedBitSet
  else if 32 < (cmdA w).toNat then .error .countAbove32
  else .ok (.bwrite (cmdPat w) (cmdA w))

/-- The row of `EMIT`: bits 47:0 are fixed to zero (R51). -/
def emitOperands (w : Word) : Except Reject Instr :=
  if cmdRsv w = 0#16 ∧ cmdPat w = 0#32 then .ok (.emit (cmdA w)) else .error .fixedBitSet

/-- The opcode map (R51); every other word is illegal (R52). -/
def decode (w : Word) : Except Reject Instr :=
  match (cmdOp w).toNat with
  | 0x01 => noOperands w .count
  | 0x02 => noOperands w .rewind
  | 0x03 => noOperands w .tbuild
  | 0x04 => noOperands w .cgen
  | 0x05 => bwriteOperands w
  | 0x06 => noOperands w .bclose
  | 0x07 => noOperands w .hdr
  | 0x08 => noOperands w .tser
  | 0x09 => emitOperands w
  | 0x0A => noOperands w .payload
  | 0x0B => noOperands w .encode
  | _ => .error .badOpcode

/-- `{op, a, rsv, pat}` with the reserved field zero (R49, R55). -/
def cmdWord (op a : BitVec 8) (pat : BitVec 32) : Word := op ++ a ++ 0#16 ++ pat

/-- The command word of an instruction: `w = (op << 56) | (a << 48) | pat` (R51, R55). -/
def encode : Instr → Word
  | .count => cmdWord 0x01#8 0#8 0#32
  | .rewind => cmdWord 0x02#8 0#8 0#32
  | .tbuild => cmdWord 0x03#8 0#8 0#32
  | .cgen => cmdWord 0x04#8 0#8 0#32
  | .bwrite pat n => cmdWord 0x05#8 n pat
  | .bclose => cmdWord 0x06#8 0#8 0#32
  | .hdr => cmdWord 0x07#8 0#8 0#32
  | .tser => cmdWord 0x08#8 0#8 0#32
  | .emit sym => cmdWord 0x09#8 sym 0#32
  | .payload => cmdWord 0x0A#8 0#8 0#32
  | .encode => cmdWord 0x0B#8 0#8 0#32

/-- The column "match" of the opcode table (R51). -/
def rowMatch : Instr → Word
  | .count => 0x0100000000000000#64
  | .rewind => 0x0200000000000000#64
  | .tbuild => 0x0300000000000000#64
  | .cgen => 0x0400000000000000#64
  | .bwrite _ _ => 0x0500000000000000#64
  | .bclose => 0x0600000000000000#64
  | .hdr => 0x0700000000000000#64
  | .tser => 0x0800000000000000#64
  | .emit _ => 0x0900000000000000#64
  | .payload => 0x0A00000000000000#64
  | .encode => 0x0B00000000000000#64

/-- The column "mask" of the opcode table (R51). -/
def rowMask : Instr → Word
  | .count => 0xFFFFFFFFFFFFFFFF#64
  | .rewind => 0xFFFFFFFFFFFFFFFF#64
  | .tbuild => 0xFFFFFFFFFFFFFFFF#64
  | .cgen => 0xFFFFFFFFFFFFFFFF#64
  | .bwrite _ _ => 0xFF00FFFF00000000#64
  | .bclose => 0xFFFFFFFFFFFFFFFF#64
  | .hdr => 0xFFFFFFFFFFFFFFFF#64
  | .tser => 0xFFFFFFFFFFFFFFFF#64
  | .emit _ => 0xFF00FFFFFFFFFFFF#64
  | .payload => 0xFFFFFFFFFFFFFFFF#64
  | .encode => 0xFFFFFFFFFFFFFFFF#64

/-- The operands of an instruction are those a word of its row carries (R50). -/
def rowOperands : Instr → Word → Bool
  | .bwrite pat n, w => decide (pat = w.extractLsb' 0 32) && decide (n = w.extractLsb' 48 8)
  | .emit sym, w => decide (sym = w.extractLsb' 48 8)
  | .count, _ => true
  | .rewind, _ => true
  | .tbuild, _ => true
  | .cgen, _ => true
  | .bclose, _ => true
  | .hdr, _ => true
  | .tser, _ => true
  | .payload, _ => true
  | .encode, _ => true

/-- The 64-bit word of a table row whose lowest `nbits` bits are those of `w`; the bits above them are 0. -/
def tableWord (nbits w : Nat) : Word := BitVec.ofNat 64 (w % 2 ^ nbits)

/-- What the decoder reads from a row's word, bit 0 its least significant bit (R6, R49). -/
def decodeTableWord (nbits w : Nat) : Option Instr :=
  match decode (tableWord nbits w) with
  | .ok i => some i
  | .error _ => none

end Sys2Proof
end

