-- ==== Sys2Proof/Config.lean ====
section
/-! DEFINITION. The parameters of spec/00_scope.md R5 and the free values of the model. -/

namespace Sys2Proof.Config

/-- `CNTMAX` = 2^55 - 1, the largest count (R5). -/
abbrev cntMax : Nat := 36028797018963967

/-- `NIL`, the "no node" index (R5). -/
abbrev nil : NodeIdx := 0x1FF#9

/-- `NNODEMAX`, the capacity of the node memory (R5). -/
abbrev nnodeMax : Nat := 511

/-- `MAGIC[0]` to `MAGIC[7]`, an OPEN parameter of the hardware (R5, D6): no value is fixed here.
DESIGN CHOICE (log entry 2), safe: a claim holds whatever the eight bytes are. -/
opaque magic : Fin 8 → Byte

/-- Free value: what `BWBUF` holds after the n-th fault raised inside a command (60_exceptions.md R108
leaves it unspecified). DESIGN CHOICE (log entry 6), safe: nothing can evaluate it. -/
opaque freeBwBuf : Nat → Byte

/-- Free value: what `BWCUR` holds after the n-th fault raised inside a command (R108).
DESIGN CHOICE (log entry 6), safe: nothing can evaluate it. -/
opaque freeBwCur : Nat → BitVec 3

end Sys2Proof.Config
end

