-- ==== Sys2Proof/Machine/State.lean ====
section
/-! DEFINITION. The state of the Huffman encoder core, of its streams and of its host port (spec/10_state.md), as plain
data, and the state after reset (R35). -/

namespace Sys2Proof.Machine

/-- The fault codes of the register `ERR`, 0 to 7 in this order (spec/60_exceptions.md R106). These are the core's
own faults: a command that raises one ends in a NEXT state that records it (R107). -/
inductive ErrCode where
  /-- 0 `NONE`: no fault since reset. -/
  | none
  /-- 1 `IO`: the platform reported an error on a read of `IN` or a push to `OUT`. -/
  | io
  /-- 2 `INVARIANT`: a structurally impossible tree. -/
  | invariant
  /-- 3 `CNT_OVF`: a count would exceed `CNTMAX`. -/
  | cntOvf
  /-- 4 `SEQ`: a command needs a valid tree or code table and there is none. -/
  | seq
  /-- 5 `NOCODE`: the symbol to be sent has no code. -/
  | noCode
  /-- 6 `ILL`: an illegal command word or register write. -/
  | ill
  /-- 7 `ORDER`: a byte-wise output command while the bit writer holds bits. -/
  | order
  deriving DecidableEq, Repr

/-- One entry of the node memory (R18). -/
structure Node where
  leaf  : Bool
  sym   : Byte
  cnt   : Count
  left  : NodeIdx
  right : NodeIdx
  deriving DecidableEq, Repr

/-- The tree state: `NODE`, `NLEAF`, `NNODE`, `ROOT` (R18, R19). -/
structure TreeMem where
  node  : Vector Node 511
  nleaf : NodeIdx
  nnode : NodeIdx
  root  : NodeIdx
  deriving DecidableEq, Repr

/-- One entry of the code table (R22). -/
structure CodeEntry where
  valid : Bool
  len   : CodeLen
  pat   : Pattern
  deriving DecidableEq, Repr

/-- The bit writer: `BWBUF` and `BWCUR` (R24). -/
structure BitWriter where
  buf : Byte
  cur : BitVec 3
  deriving DecidableEq, Repr

/-- One access of the host (R10, R12, spec/30_encoding.md R55). -/
inductive HostAccess where
  /-- `RegWrite(a, v)`. -/
  | write (a : RegNum) (v : Word)
  /-- `RegRead(a)`. -/
  | read (a : RegNum)
  /-- Hardware reset, with the `IN` the platform then presents (spec/70_reset_and_hazards.md R116). -/
  | reset (input : List Byte)
  deriving DecidableEq, Repr

/-- All state of the core (R15 to R25), of its environment (R11, spec/20_memory.md R39) and of its host port (R12).
`free` is the model's own field (log entry 6). -/
structure State where
  /-- `ICUR` (R15). -/
  icur    : Word
  /-- `OLEN` (R16). -/
  olen    : Word
  /-- `FREQ[s]` (R17). -/
  freq    : Vector Count 256
  /-- `NODE`, `NLEAF`, `NNODE`, `ROOT` (R18, R19). -/
  tree    : TreeMem
  /-- `TVALID` (R21). -/
  tvalid  : Bool
  /-- `CODE[s]` (R22). -/
  code    : Vector CodeEntry 256
  /-- `CVALID` (R23). -/
  cvalid  : Bool
  /-- `BWBUF`, `BWCUR` (R24). -/
  bw      : BitWriter
  /-- `ERR` (R25). -/
  err     : ErrCode
  /-- `ERRINFO` (R25). -/
  errinfo : Word
  /-- `IN`, the environment's, fixed from reset to reset (R11). -/
  input   : List Byte
  /-- `OUT`, the environment's, oldest byte first (R11). -/
  out     : List Byte
  /-- The environment's answers to the coming accesses of `IN` and `OUT`, next first: true is an error; when the list
  is used up every access succeeds (spec/20_memory.md R39). DESIGN CHOICE (log entry 3), safe over all states. -/
  ioErrs  : List Bool
  /-- The host's coming accesses, next first. DESIGN CHOICE (log entry 8). -/
  pending : List HostAccess
  /-- The values the port has returned to reads, oldest first. DESIGN CHOICE (log entry 8). -/
  replies : List Word
  /-- The model's own counter: which free value of `BWBUF` and `BWCUR` comes next. DESIGN CHOICE (log entry 6). -/
  free    : Nat
  deriving DecidableEq, Repr

/-- Reasons for the machine to stop with a fault. There are none: every fault the spec gives is a next state with `ERR`
set (spec/60_exceptions.md R107), and nothing in this hardware is stuck (spec/93_implementation_defined.md section 2). -/
inductive Fault where
  deriving DecidableEq, Repr

/-- Reasons to refuse an instruction. -/
inductive Refusal where
  /-- Raised only by an arm of `exec` whose instruction has no meaning yet: safe. No arm uses it now. -/
  | notModelled (mnemonic : String)
  deriving DecidableEq, Repr

/-- What the model holds in a node nothing has written: all fields zero. DESIGN CHOICE (log entry 4), unsafe: R35 says
"unspecified, dead". -/
def Node.dead : Node := { leaf := false, sym := 0#8, cnt := 0#55, left := 0#9, right := 0#9 }

/-- An absent entry of the code table (R81); also what the model holds at reset: DESIGN CHOICE (log entry 5), unsafe. -/
def CodeEntry.absent : CodeEntry := { valid := false, len := 0#9, pat := 0#256 }

/-- The state right after hardware reset (R35). `input`, `ioErrs`, `pending`, `replies` and `free` are the model's
choices (log entries 1, 3, 8, 6). -/
def State.reset : State where
  icur := 0#64
  olen := 0#64
  freq := Vector.replicate 256 0#55
  tree := { node := Vector.replicate 511 Node.dead, nleaf := 0#9, nnode := 0#9, root := Config.nil }
  tvalid := false
  code := Vector.replicate 256 CodeEntry.absent
  cvalid := false
  bw := { buf := 0#8, cur := 0#3 }
  err := .none
  errinfo := 0#64
  input := []
  out := []
  ioErrs := []
  pending := []
  replies := []
  free := 0

end Sys2Proof.Machine
end

