-- ==== Sys2Proof/Machine/Operands.lean ====
section
/-! DEFINITION. Operand forms, records and register numbers: how the spec's fields are assembled and taken apart
(spec/30_encoding.md R50, spec/44_encoder.md R93, spec/10_state.md R27, R32, R33). -/

namespace Sys2Proof.Machine

/-- `zext_256(w[31:0])`, the pattern `BWRITE` hands to the bit writer (R50). -/
def bwritePattern (pat : BitVec 32) : Pattern := pat.setWidth 256

/-- `n` = w[55:48] as an unsigned integer (R50). -/
def bwriteCount (n : BitVec 8) : Nat := n.toNat

/-- The low `n` bits of a pattern in the order they are sent, bit 0 first (R77, R85). -/
def patternBits (pat : Pattern) (n : Nat) : List Bool := (List.range n).map pat.getLsbD

/-- `rec(node)` = {sym, cnt, leaf}, 64 bits (R93). -/
def recordWord (n : Node) : Word := n.sym ++ n.cnt ++ BitVec.ofBool n.leaf

/-- The eight bytes of a word in the order they are sent, least significant first (R40, R93). -/
def wordBytes (w : Word) : List Byte := (List.range 8).map fun k => w.extractLsb' (8 * k) 8

/-- The eight bytes of the magic in the order they are sent (R95). -/
def magicBytes : List Byte := (List.finRange 8).map Config.magic

/-- The `LINK` view of a node: bits 8:0 `left`, bits 24:16 `right`, all others 0 (R32). -/
def linkWord (n : Node) : Word := n.left.setWidth 64 ||| n.right.setWidth 64 <<< 16

/-- The `CLEN` view of a present entry: bits 8:0 `len`, bit 15 set, all others 0 (R33). -/
def clenWord (c : CodeEntry) : Word := c.len.setWidth 64 ||| 0x8000#64

/-- The `CPAT` view of a present entry: pattern bits 64k+63 to 64k (R33). -/
def cpatWord (c : CodeEntry) (k : BitVec 2) : Word := c.pat.extractLsb' (64 * k.toNat) 64

/-- The value of a fault code in the register `ERR` (R106). -/
def ErrCode.bits : ErrCode → BitVec 4
  | .none => 0
  | .io => 1
  | .invariant => 2
  | .cntOvf => 3
  | .seq => 4
  | .noCode => 5
  | .ill => 6
  | .order => 7

/-- `buf[i] <- b` on the bit writer's byte (R85). -/
def putBit (buf : Byte) (i : BitVec 3) (b : Bool) : Byte :=
  (buf &&& ~~~(1#8 <<< i.toNat)) ||| ((BitVec.ofBool b).setWidth 8 <<< i.toNat)

/-- Entry `i` of a node memory. Index 511 (`NIL`) names no entry, and no rule reads it (R18, R84; log entry 11). -/
def nodeAt (m : Vector Node 511) (i : Nat) : Node := if h : i < 511 then m[i] else Node.dead

/-- Entry `s` of a frequency table (R17). -/
def freqAt (f : Vector Count 256) (s : Byte) : Count := f[s.toNat]'(s.isLt)

/-- Entry `s` of a code table (R22). -/
def codeAt (table : Vector CodeEntry 256) (s : Byte) : CodeEntry := table[s.toNat]'(s.isLt)

/-- The registers of the map (R27). -/
inductive Reg where
  | cmd
  | status
  | err
  | errinfo
  | icur
  | olen
  | nleaf
  | nnode
  | root
  | freq (s : Byte)
  | nodew (i : Nat)
  | link (i : Nat)
  | clen (s : Byte)
  | cpat (s : Byte) (k : BitVec 2)
  | unmapped
  deriving DecidableEq, Repr

/-- The windows of the map, from 0x100 on (R27). -/
def windowOf (n : Nat) : Reg :=
  if n < 0x100 then .unmapped
  else if n < 0x200 then .freq (BitVec.ofNat 8 (n - 0x100))
  else if n < 0x3FF then .nodew (n - 0x200)
  else if n < 0x400 then .unmapped
  else if n < 0x5FF then .link (n - 0x400)
  else if n < 0x600 then .unmapped
  else if n < 0x700 then .clen (BitVec.ofNat 8 (n - 0x600))
  else if n < 0x800 then .unmapped
  else if n < 0xC00 then .cpat (BitVec.ofNat 8 ((n - 0x800) / 4)) (BitVec.ofNat 2 ((n - 0x800) % 4))
  else .unmapped

/-- Which register a number names (R27). -/
def regOf (a : RegNum) : Reg :=
  match a.toNat with
  | 0x000 => .cmd
  | 0x001 => .status
  | 0x002 => .err
  | 0x003 => .errinfo
  | 0x004 => .icur
  | 0x005 => .olen
  | 0x006 => .nleaf
  | 0x007 => .nnode
  | 0x008 => .root
  | n => windowOf n

end Sys2Proof.Machine
end

