-- ==== Sys2Proof/Machine/Flags.lean ====
section
/-! DEFINITION. The flags of the core: `TVALID`, `CVALID` (spec/10_state.md R21, R23), what they mask (R27, R32, R33), and
the bits of `STATUS` (R29). The core has no arithmetic flag (spec/44_encoder.md R104). -/

namespace Sys2Proof.Machine

/-- `TVALID <- 0`, `CVALID <- 0` (R21, R23). -/
def State.clearValid (s : State) : State := { s with tvalid := false, cvalid := false }

/-- `CVALID <- b` (R23). -/
def State.setCvalid (s : State) (b : Bool) : State := { s with cvalid := b }

/-- `FAULTED`: `ERR` is not 0 (R29). -/
def State.faulted (s : State) : Bool := decide (s.err ≠ .none)

/-- `EOS`: `ICUR` = |IN| (R29). -/
def State.eos (s : State) : Bool := decide (s.icur.toNat = s.input.length)

/-- The register `STATUS` (R29): bit 0 `TVALID`, bit 1 `CVALID`, bit 2 `FAULTED`, bit 3 `EOS`, bits 63:4 zero. -/
def State.statusWord (s : State) : Word :=
  0#60 ++ BitVec.ofBool s.eos ++ BitVec.ofBool s.faulted ++ BitVec.ofBool s.cvalid ++ BitVec.ofBool s.tvalid

/-- `live(i)`: `TVALID` = 1 and i < `NNODE` (R32). -/
def State.live (s : State) (i : Nat) : Bool := s.tvalid && decide (i < s.tree.nnode.toNat)

/-- `CVALID` = 1 and `CODE[sym].valid` = 1 (R33). -/
def State.coded (s : State) (sym : Byte) : Bool := s.cvalid && (codeAt s.code sym).valid

end Sys2Proof.Machine
end

