-- ==== Sys2Proof/Machine/Ops.lean ====
section
/-! DEFINITION. The operations the meanings share: the two stream accesses (spec/20_memory.md R37 to R39), taking a fault
and hardware reset (spec/60_exceptions.md R107, spec/70_reset_and_hazards.md R116), the bit writer's two operations
(spec/43_bit_writer.md R85, R87), and what a command does before its body runs (spec/30_encoding.md R54). -/

namespace Sys2Proof.Machine

/-- How a piece of pseudocode ends: at its end, or at its first `raise` (spec/00_scope.md R8). -/
inductive Body where
  | done (s : State)
  | raised (e : ErrCode) (s : State)
  deriving DecidableEq, Repr

/-- Statements run in the order written, and stop at the first `raise` (R8, R107). -/
def Body.andThen (b : Body) (k : State → Body) : Body :=
  match b with
  | .done s => k s
  | .raised e s => .raised e s

/-! ### The updates of State -/

/-- One answer of the environment is used up (R39). -/
def State.dropDraw (s : State) : State := { s with ioErrs := s.ioErrs.tail }

/-- Whether the next access draws an error (R39); a list that is used up answers no error (log entry 3). -/
def State.nextDraw (s : State) : Bool := s.ioErrs.headD false

/-- `ICUR <- ICUR + 1` (R37). -/
def State.advanceInput (s : State) : State := { s with icur := s.icur + 1#64 }

/-- `ICUR <- 0` (R59). -/
def State.rewindInput (s : State) : State := { s with icur := 0#64 }

/-- `OUT <- OUT ++ [b]`; `OLEN <- (OLEN + 1) mod 2^64` (R38). -/
def State.pushByte (s : State) (b : Byte) : State := { s with out := s.out ++ [b], olen := s.olen + 1#64 }

/-- `FREQ[sym] <- c` (R17). -/
def State.setFreq (s : State) (sym : Byte) (c : Count) : State :=
  { s with freq := s.freq.set sym.toNat c sym.isLt }

/-- Every `FREQ[s] <- 0` (R58). -/
def State.clearFreq (s : State) : State := { s with freq := Vector.replicate 256 0#55 }

/-- The tree state is written whole (R19). -/
def State.setTree (s : State) (t : TreeMem) : State := { s with tree := t }

/-- `TVALID <- 1` (R21). -/
def State.markTree (s : State) : State := { s with tvalid := true }

/-- `CODE[sym] <- c` (R22). -/
def State.setCode (s : State) (sym : Byte) (c : CodeEntry) : State :=
  { s with code := s.code.set sym.toNat c sym.isLt }

/-- Every entry of the code table becomes absent (R81). -/
def State.clearCode (s : State) : State := { s with code := Vector.replicate 256 CodeEntry.absent }

/-- `BWBUF <- buf`, `BWCUR <- cur` (R24). -/
def State.setWriter (s : State) (buf : Byte) (cur : BitVec 3) : State :=
  { s with bw := { buf := buf, cur := cur } }

/-- The port answers a read (R12). -/
def State.answer (s : State) (v : Word) : State := { s with replies := s.replies ++ [v] }

/-- The host's access is taken off its queue (log entry 8). -/
def State.setPending (s : State) (rest : List HostAccess) : State := { s with pending := rest }

/-! ### Faults and reset -/

/-- `raise Fault(code, info)`: `ERR <- code`, `ERRINFO <- info`, and nothing else (R25, R107). Callers run only while
`ERR` = 0. -/
def State.recordFault (s : State) (e : ErrCode) (info : Word) : State := { s with err := e, errinfo := info }

/-- `BWBUF` and `BWCUR` become unspecified: free values (R108). DESIGN CHOICE (log entry 6), safe. -/
def State.spoilWriter (s : State) : State :=
  { s with bw := { buf := Config.freeBwBuf s.free, cur := Config.freeBwCur s.free }, free := s.free + 1 }

/-- A fault raised inside a command: recorded as every fault is, and the bit writer's state is then unspecified (R108). -/
def State.recordInner (s : State) (e : ErrCode) (info : Word) : State := (s.recordFault e info).spoilWriter

/-- Hardware reset (R116): every piece of state of R35, `OUT` = [], and the `IN` the platform then presents. The
environment's answers, the host's accesses and replies, and the model's counter are not state of the core (log entry 13). -/
def hardReset (input : List Byte) (s : State) : State :=
  { State.reset with
    input := input, ioErrs := s.ioErrs, pending := s.pending, replies := s.replies, free := s.free }

/-! ### The streams -/

/-- `IN[ICUR]`, where there is one (R37). -/
def State.inByte? (s : State) : Option Byte := s.input[s.icur.toNat]?

/-- `InRead()`, whose byte is `inByte?` of the state before it: an error leaves `ICUR` as it is (R37, R39). -/
def inRead (s : State) : Body :=
  if s.nextDraw then .raised .io s.dropDraw else .done s.dropDraw.advanceInput

/-- `OutByte(b)`: an error leaves `OUT` and `OLEN` as they are (R38, R39). -/
def outByte (b : Byte) (s : State) : Body :=
  if s.nextDraw then .raised .io s.dropDraw else .done (s.dropDraw.pushByte b)

/-- `OutByte` of each byte of a list, in order. -/
def outBytes : List Byte → State → Body
  | [], s => .done s
  | b :: bs, s => (outByte b s).andThen (outBytes bs)

/-- `OutRec(rec)` (R93). -/
def outRecord (w : Word) (s : State) : Body := outBytes (wordBytes w) s

/-- `while ICUR < |IN|: b <- InRead(); body b` (R58, R99). The first argument is how many turns are left at most. -/
def forInput (body : Byte → State → Body) : Nat → State → Body
  | 0, s => .done s
  | turns + 1, s =>
    match s.inByte? with
    | none => .done s
    | some b => (inRead s).andThen fun s => (body b s).andThen (forInput body turns)

/-- |IN| - `ICUR`, the bytes left to read. -/
def State.bytesLeft (s : State) : Nat := s.input.length - s.icur.toNat

/-! ### The bit writer -/

/-- One turn of `BitAppend`: the bit goes to position `BWCUR`, and a byte that is complete is pushed at once (R85). -/
def pushBit (b : Bool) (s : State) : Body :=
  let buf := putBit s.bw.buf s.bw.cur b
  if s.bw.cur = 7#3 then (outByte buf s).andThen fun s => .done (s.setWriter 0#8 0#3)
  else .done (s.setWriter buf (s.bw.cur + 1#3))

/-- `BitAppend` of a list of bits, first bit first (R85). -/
def pushBits : List Bool → State → Body
  | [], s => .done s
  | b :: bs, s => (pushBit b s).andThen (pushBits bs)

/-- `BitAppend(pat, n)` (R85). -/
def bitAppend (pat : Pattern) (n : Nat) (s : State) : Body := pushBits (patternBits pat n) s

/-- `BitFlush()` (R87). -/
def bitFlush (s : State) : Body :=
  if s.bw.cur = 0#3 then .done s
  else (outByte s.bw.buf s).andThen fun s => .done (s.setWriter 0#8 0#3)

/-! ### Issuing a command -/

/-- No check of step 3 or 4 (R54). -/
def noGuard (_ : State) : Option ErrCode := none

/-- `TVALID` = 1, else `SEQ` (R54 step 3). -/
def needTree (s : State) : Option ErrCode := if s.tvalid then none else some .seq

/-- `CVALID` = 1, else `SEQ` (R54 step 3). -/
def needCodes (s : State) : Option ErrCode := if s.cvalid then none else some .seq

/-- `BWCUR` = 0, else `ORDER` (R54 step 4). -/
def needEmptyWriter (s : State) : Option ErrCode := if s.bw.cur = 0#3 then none else some .order

/-- Two checks in order: the first that fails decides (R109). -/
def bothGuards (g h : State → Option ErrCode) (s : State) : Option ErrCode :=
  match g s with
  | some e => some e
  | none => h s

/-- What running a command does, in order (R54): (1) a faulted core refuses it and nothing changes (R110); (2) a word that
is no command raises `ILL`; (3), (4) its checks, whose faults change only `ERR` and `ERRINFO`; (5) its body, whose faults
keep what was written. `info` is the command word, which `encode` gives back (log entry 12). -/
def issue (i : Instr) (guard : State → Option ErrCode) (body : State → Body) (s : State) :
    Host.Outcome State Fault Refusal :=
  if s.err ≠ .none then .next s
  else if i.wellFormed = false then .next (s.recordFault .ill (encode i))
  else
    match guard s with
    | some e => .next (s.recordFault e (encode i))
    | none =>
      match body s with
      | .done t => .next t
      | .raised e t => .next (t.recordInner e (encode i))

end Sys2Proof.Machine
end

