-- ==== Sys2Proof/Machine/BitPacker.lean ====
section
/-! DEFINITION. The bit-packing writer's commands: `BWRITE` and `BCLOSE` (spec/43_bit_writer.md R88, R89). -/

namespace Sys2Proof.Machine

/-- `BWRITE pat, n` (R88). -/
def execBwrite (pat : BitVec 32) (n : BitVec 8) (s : State) : Host.Outcome State Fault Refusal :=
  issue (.bwrite pat n) noGuard (bitAppend (bwritePattern pat) (bwriteCount n)) s

/-- `BCLOSE` (R89). -/
def execBclose (s : State) : Host.Outcome State Fault Refusal := issue .bclose noGuard bitFlush s

end Sys2Proof.Machine
end

