-- ==== Sys2Proof/Machine/CodeTable.lean ====
section
/-! DEFINITION. The code-table generator: `CGEN` (spec/42_code_table.md R77 to R84). The walk recurses on the tree, which R79
allows: the explicit stack has no value outside the command (log entry 10). -/

namespace Sys2Proof.Machine

/-- `CheckChildren(i)` holds: both children are indices below `NNODE` (R84). -/
def childrenLive (t : TreeMem) (n : Node) : Bool :=
  decide (n.left.toNat < t.nnode.toNat) && decide (n.right.toNat < t.nnode.toNat)

/-- The code of a right child: the parent's code with a 1 at position `len` (R77, R78). -/
def rightPattern (pat : Pattern) (len : CodeLen) : Pattern := pat ||| 1#256 <<< len.toNat

/-- Record the codes of all leaves below node `i`, whose code is (`pat`, `len`): left subtree first (R79, R81). The first
argument bounds the depth; a path longer than the node memory is no path of a tree, and raises `INVARIANT` as R105 (b) says
of structurally impossible states (DEDUCED, log entry 7). -/
def genCodes : Nat → Nat → Pattern → CodeLen → State → Body
  | 0, _, _, _, s => .raised .invariant s
  | depth + 1, i, pat, len, s =>
    let n := nodeAt s.tree.node i
    if n.leaf then .done (s.setCode n.sym { valid := true, len := len, pat := pat })
    else if childrenLive s.tree n then
      (genCodes depth n.left.toNat pat (len + 1#9) s).andThen
        (genCodes depth n.right.toNat (rightPattern pat len) (len + 1#9))
    else .raised .invariant s

/-- The codes from the root: none without a tree; the 1-bit code "0" of a lone leaf (R80); else the walk from the root's
empty code (R81). -/
def genFromRoot (s : State) : Body :=
  let r := nodeAt s.tree.node s.tree.root.toNat
  if s.tree.root = Config.nil then .done s
  else if r.leaf then .done (s.setCode r.sym { valid := true, len := 1#9, pat := 0#256 })
  else genCodes Config.nnodeMax s.tree.root.toNat 0#256 0#9 s

/-- The pseudocode of `CGEN` (R81). -/
def cgenBody (s : State) : Body :=
  (genFromRoot (s.setCvalid false).clearCode).andThen fun s => .done (s.setCvalid true)

/-- `CGEN` (R81). -/
def execCgen (s : State) : Host.Outcome State Fault Refusal := issue .cgen needTree cgenBody s

end Sys2Proof.Machine
end

