-- ==== Sys2Proof/Machine/FrequencyCounter.lean ====
section
/-! DEFINITION. The frequency counter: `COUNT` and `REWIND` (spec/40_frequency_counter.md R58, R59). -/

namespace Sys2Proof.Machine

/-- Count one byte: `CNT_OVF` at `CNTMAX`, and the entry is then left (R58). -/
def countByte (b : Byte) (s : State) : Body :=
  if (freqAt s.freq b).toNat = Config.cntMax then .raised .cntOvf s
  else .done (s.setFreq b (freqAt s.freq b + 1#55))

/-- The pseudocode of `COUNT` (R58). -/
def countBody (s : State) : Body :=
  let s := s.clearValid.clearFreq
  forInput countByte s.bytesLeft s

/-- `COUNT` (R58). -/
def execCount (s : State) : Host.Outcome State Fault Refusal := issue .count noGuard countBody s

/-- The pseudocode of `REWIND` (R59). -/
def rewindBody (s : State) : Body := .done s.rewindInput

/-- `REWIND` (R59). -/
def execRewind (s : State) : Host.Outcome State Fault Refusal := issue .rewind noGuard rewindBody s

end Sys2Proof.Machine
end

