-- ==== Sys2Proof/Machine/TreeBuilder.lean ====
section
/-! DEFINITION. The tree builder: `TBUILD` (spec/41_tree_builder.md R63 to R70). `LH`, `MH`, `MT` have no value outside the
command (spec/10_state.md R26), so they are no field of State: they live in `Builder`. -/

namespace Sys2Proof.Machine

/-- The order of the leaves: `s` not after `t` (R64). -/
abbrev leafBefore (f : Vector Count 256) (s t : Byte) : Prop :=
  (freqAt f s).toNat < (freqAt f t).toNat ∨ ((freqAt f s).toNat = (freqAt f t).toNat ∧ s.toNat ≤ t.toNat)

/-- All byte values in ascending order. -/
def allSymbols : List Byte := (List.range 256).map (BitVec.ofNat 8)

/-- `S`: the byte values with a non-zero count, sorted by (count, byte value) (R64). -/
def sortedSymbols (f : Vector Count 256) : List Byte :=
  (allSymbols.filter fun s => decide (freqAt f s ≠ 0#55)).insertionSort (leafBefore f)

/-- The leaf of a byte value (R64). -/
def leafNode (f : Vector Count 256) (s : Byte) : Node :=
  { leaf := true, sym := s, cnt := freqAt f s, left := Config.nil, right := Config.nil }

/-- Nodes written from index `k` on, in order. -/
def writeNodes : List Node → Nat → Vector Node 511 → Vector Node 511
  | [], _, m => m
  | n :: ns, k, m => writeNodes ns (k + 1) (m.setIfInBounds k n)

/-- The node memory and the working registers of `TBUILD`: the leaf queue is `lh` to `nleaf` - 1, the merge queue `mh` to
`mt` - 1 (R64, R65). -/
structure Builder where
  node  : Vector Node 511
  nleaf : Nat
  lh    : Nat
  mh    : Nat
  mt    : Nat
  deriving DecidableEq, Repr

/-- Nodes in both queues together (R68). -/
def Builder.waiting (b : Builder) : Nat := (b.nleaf - b.lh) + (b.mt - b.mh)

/-- Whether `PopMin` takes the leaf queue's front: on equal counts the leaf is taken (R66). -/
def Builder.takesLeaf (b : Builder) : Bool :=
  decide (b.lh < b.nleaf) &&
    (!decide (b.mh < b.mt) || decide ((nodeAt b.node b.lh).cnt.toNat ≤ (nodeAt b.node b.mh).cnt.toNat))

/-- `PopMin()`: the index of the node taken, and the queues after it (R66). -/
def Builder.popMin (b : Builder) : Nat × Builder :=
  if b.takesLeaf then (b.lh, { b with lh := b.lh + 1 }) else (b.mh, { b with mh := b.mh + 1 })

/-- The internal node over `x` (first popped, left) and `y` (second popped, right) with count `c` (R67). -/
def internalNode (x y c : Nat) : Node :=
  { leaf := false, sym := 0#8, cnt := BitVec.ofNat 55 c, left := BitVec.ofNat 9 x, right := BitVec.ofNat 9 y }

/-- A new node goes to the back of the merge queue (R65). -/
def Builder.pushMerged (b : Builder) (n : Node) : Builder :=
  { b with node := b.node.setIfInBounds b.mt n, mt := b.mt + 1 }

/-- `MergeStep()`: none when the exact sum exceeds `CNTMAX` (R67). -/
def Builder.mergeStep (b : Builder) : Option Builder :=
  let (x, b₁) := b.popMin
  let (y, b₂) := b₁.popMin
  let c := (nodeAt b.node x).cnt.toNat + (nodeAt b.node y).cnt.toNat
  if Config.cntMax < c then none else some (b₂.pushMerged (internalNode x y c))

/-- How the merge loop ends. -/
inductive Merged where
  | built (b : Builder)
  | overflow (b : Builder)
  deriving DecidableEq, Repr

/-- `while` more than one node waits: `MergeStep()` (R68). The first argument is how many turns are left at most. -/
def mergeLoop : Nat → Builder → Merged
  | 0, b => .built b
  | turns + 1, b =>
    if b.waiting ≤ 1 then .built b
    else
      match b.mergeStep with
      | none => .overflow b
      | some b' => mergeLoop turns b'

/-- The queues at the start: L leaves, an empty merge queue behind them (R64, R65). -/
def startBuilder (f : Vector Count 256) (m : Vector Node 511) : Builder :=
  let l := (sortedSymbols f).length
  { node := writeNodes ((sortedSymbols f).map (leafNode f)) 0 m, nleaf := l, lh := 0, mh := l, mt := l }

/-- `ROOT`, `NNODE` after the loop (R68, R69). -/
def Builder.finish (b : Builder) : TreeMem :=
  { node := b.node
    nleaf := BitVec.ofNat 9 b.nleaf
    nnode := BitVec.ofNat 9 b.mt
    root := if b.nleaf = 0 then Config.nil else if b.nleaf = 1 then 0#9 else BitVec.ofNat 9 (b.mt - 1) }

/-- The pseudocode of `TBUILD` (R70). An overflow leaves the node memory and `NLEAF` as written, and the tree dead. -/
def tbuildBody (s : State) : Body :=
  let s := s.clearValid
  let b := startBuilder s.freq s.tree.node
  match mergeLoop b.nleaf b with
  | .overflow b => .raised .cntOvf (s.setTree { s.tree with node := b.node, nleaf := BitVec.ofNat 9 b.nleaf })
  | .built b => .done (s.setTree b.finish).markTree

/-- `TBUILD` (R70). -/
def execTbuild (s : State) : Host.Outcome State Fault Refusal := issue .tbuild noGuard tbuildBody s

end Sys2Proof.Machine
end

