-- ==== Sys2Proof/Machine/Encoder.lean ====
section
/-! DEFINITION. The encoder sequencer: `HDR`, `TSER`, `EMIT`, `PAYLOAD`, `ENCODE` (spec/44_encoder.md R92 to R100). -/

namespace Sys2Proof.Machine

/-- The pseudocode of `HDR` (R95). -/
def hdrBody (s : State) : Body := outBytes magicBytes s

/-- `HDR` (R95). -/
def execHdr (s : State) : Host.Outcome State Fault Refusal := issue .hdr needEmptyWriter hdrBody s

/-- The records of the nodes below node `i` in preorder; the children are checked before the node's record goes out
(R96). The first argument bounds the depth, as in `genCodes` (log entry 7). -/
def serNodes : Nat → Nat → State → Body
  | 0, _, s => .raised .invariant s
  | depth + 1, i, s =>
    let n := nodeAt s.tree.node i
    if n.leaf then outRecord (recordWord n) s
    else if childrenLive s.tree n then
      ((outRecord (recordWord n) s).andThen (serNodes depth n.left.toNat)).andThen (serNodes depth n.right.toNat)
    else .raised .invariant s

/-- The records of the tree; none without a tree (R96). -/
def serTree (s : State) : Body :=
  if s.tree.root = Config.nil then .done s else serNodes Config.nnodeMax s.tree.root.toNat s

/-- The pseudocode of `TSER`: the tree, then the footer (R94, R96). -/
def tserBody (s : State) : Body := (serTree s).andThen (outRecord 0#64)

/-- `TSER`: `SEQ` is tested before `ORDER` (R96). -/
def execTser (s : State) : Host.Outcome State Fault Refusal :=
  issue .tser (bothGuards needTree needEmptyWriter) tserBody s

/-- The code of a symbol goes to the bit writer (R98, R99). -/
def sendCode (sym : Byte) (s : State) : Body :=
  bitAppend (codeAt s.code sym).pat (codeAt s.code sym).len.toNat s

/-- `CODE[sym].valid` = 1, else `NOCODE`: a precise fault of `EMIT` (R98, R108). -/
def needCodeOf (sym : Byte) (s : State) : Option ErrCode := if (codeAt s.code sym).valid then none else some .noCode

/-- `EMIT sym` (R98). -/
def execEmit (sym : Byte) (s : State) : Host.Outcome State Fault Refusal :=
  issue (.emit sym) (bothGuards needCodes (needCodeOf sym)) (sendCode sym) s

/-- One turn of `PAYLOAD` after the read: look the byte up, then send its code (R99). -/
def payloadByte (b : Byte) (s : State) : Body :=
  if (codeAt s.code b).valid then sendCode b s else .raised .noCode s

/-- The pseudocode of `PAYLOAD` (R99). -/
def payloadBody (s : State) : Body := forInput payloadByte s.bytesLeft s

/-- `PAYLOAD` (R99). -/
def execPayload (s : State) : Host.Outcome State Fault Refusal := issue .payload needCodes payloadBody s

/-- The pseudocode of `ENCODE`: the bodies of nine commands, stopping at the first fault (R100). -/
def encodeBody (s : State) : Body :=
  ((((((((rewindBody s).andThen countBody).andThen tbuildBody).andThen cgenBody).andThen hdrBody).andThen
    tserBody).andThen rewindBody).andThen payloadBody).andThen bitFlush

/-- `ENCODE` (R100). -/
def execEncode (s : State) : Host.Outcome State Fault Refusal := issue .encode needEmptyWriter encodeBody s

end Sys2Proof.Machine
end

