-- ==== Sys2Proof/Machine/Dispatch.lean ====
section
/-! DEFINITION. One arm per command: the meaning of each row of spec/opcode_table.json. -/

namespace Sys2Proof.Machine

def exec (i : Instr) (s : State) : Host.Outcome State Fault Refusal :=
  match i with
  | .count => Sys2Proof.Machine.execCount s
  | .rewind => Sys2Proof.Machine.execRewind s
  | .tbuild => Sys2Proof.Machine.execTbuild s
  | .cgen => Sys2Proof.Machine.execCgen s
  | .bwrite pat n => Sys2Proof.Machine.execBwrite pat n s
  | .bclose => Sys2Proof.Machine.execBclose s
  | .hdr => Sys2Proof.Machine.execHdr s
  | .tser => Sys2Proof.Machine.execTser s
  | .emit sym => Sys2Proof.Machine.execEmit sym s
  | .payload => Sys2Proof.Machine.execPayload s
  | .encode => Sys2Proof.Machine.execEncode s

end Sys2Proof.Machine
end

