-- ==== Sys2Proof/Machine/Port.lean ====
section
/-! DEFINITION. The host register port (spec/10_state.md R12, R27 to R34): what each access of the host does, and which access
comes next. The core has no program counter and fetches nothing (R14): a command arrives in the value written to `CMD`. -/

namespace Sys2Proof.Machine

/-- What a read of a register returns; it changes nothing, in the faulted state too (R12, R27 to R34, R110). -/
def readReg (r : Reg) (s : State) : Word :=
  match r with
  | .cmd => 0#64
  | .status => s.statusWord
  | .err => s.err.bits.setWidth 64
  | .errinfo => s.errinfo
  | .icur => s.icur
  | .olen => s.olen
  | .nleaf => if s.tvalid then s.tree.nleaf.setWidth 64 else 0#64
  | .nnode => if s.tvalid then s.tree.nnode.setWidth 64 else 0#64
  | .root => if s.tvalid then s.tree.root.setWidth 64 else 0x1FF#64
  | .freq sym => (freqAt s.freq sym).setWidth 64
  | .nodew i => if s.live i then recordWord (nodeAt s.tree.node i) else 0#64
  | .link i => if s.live i then linkWord (nodeAt s.tree.node i) else 0#64
  | .clen sym => if s.coded sym then clenWord (codeAt s.code sym) else 0#64
  | .cpat sym k => if s.coded sym then cpatWord (codeAt s.code sym) k else 0#64
  | .unmapped => 0#64

/-- `RegRead(a)` (R12). -/
def regRead (a : RegNum) (s : State) : Word := readReg (regOf a) s

/-- A write of a word to `CMD` (R28, R54): refused in the faulted state; an illegal word raises `ILL`; else the command
runs. -/
def issueWord (w : Word) (s : State) : Host.Outcome State Fault Refusal :=
  if s.err ≠ .none then .next s
  else
    match decode w with
    | .error _ => .next (s.recordFault .ill w)
    | .ok i => exec i s

/-- A write to the `FREQ` window (R31): a value with bits 63:55 not zero raises `ILL` with the register number. -/
def writeFreq (a : RegNum) (sym : Byte) (v : Word) (s : State) : State :=
  if v.extractLsb' 55 9 ≠ 0#9 then s.recordFault .ill (a.setWidth 64)
  else (s.setFreq sym (v.extractLsb' 0 55)).clearValid

/-- A write to a register other than `CMD` (R31, R34): refused in the faulted state; only the `FREQ` window is writable,
and every other number raises `ILL` with the register number. -/
def writeOther (a : RegNum) (v : Word) (s : State) : State :=
  if s.err ≠ .none then s
  else
    match regOf a with
    | .freq sym => writeFreq a sym v s
    | .cmd | .status | .err | .errinfo | .icur | .olen | .nleaf | .nnode | .root | .nodew _ | .link _ | .clen _ | .cpat _ _
    | .unmapped => s.recordFault .ill (a.setWidth 64)

/-- `RegWrite(a, v)` (R12, R28, R31, R34). -/
def regWrite (a : RegNum) (v : Word) (s : State) : Host.Outcome State Fault Refusal :=
  if a = 0x000#12 then issueWord v s else .next (writeOther a v s)

/-- One access of the host (R10, R12, R116). -/
def access (x : HostAccess) (s : State) : Host.Outcome State Fault Refusal :=
  match x with
  | .write a v => regWrite a v s
  | .read a => .next (s.answer (regRead a s))
  | .reset input => .next (hardReset input s)

/-- The host's next access is taken; with none the core is idle and keeps all state (R10, spec/60_exceptions.md R115). -/
def portTurn (s : State) : Host.Outcome State Fault Refusal :=
  match s.pending with
  | [] => .next s
  | x :: rest => access x (s.setPending rest)

/-- The host's next access becomes a write of `w` to `CMD`. -/
def State.queueCommand (s : State) (w : Word) : State :=
  s.setPending (.write 0x000#12 w :: s.pending)

end Sys2Proof.Machine
end

