-- ==== Sys2Proof/Machine/Step.lean ====
section
/-! DEFINITION. One step of the machine: one access of the host, a command from its start to its end or first fault being
one access (spec/00_scope.md R9, spec/10_state.md R10). -/

namespace Sys2Proof.Machine

/-- One step. -/
def step (s : State) : Host.Outcome State Fault Refusal := Sys2Proof.Machine.portTurn s

/-- The state in which the host's next access writes this word to `CMD`, so that the next step decodes and runs it
(R14, R28; log entry 8). -/
def State.withFetchWord (s : State) (nbits w : Nat) : State := s.queueCommand (Sys2Proof.tableWord nbits w)

end Sys2Proof.Machine
end

