-- ==== Sys2Proof/Machine/Script.lean ====
section
/-! DEFINITION. Host scripts (spec/30_encoding.md R55, R56): each line, pseudo-instructions among them, as the accesses it stands
for. -/

namespace Sys2Proof.Machine

/-- One line of a host script (R55) or one pseudo-instruction (R56). -/
inductive ScriptLine where
  | command (i : Instr)
  | wr (a : RegNum) (v : Word)
  | rd (a : RegNum)
  | reset (input : List Byte)
  | wbit (b : Bool)
  | wbyte (v : Byte)
  | wword (v : BitVec 32)
  | setFreq (sym : Byte) (c : Word)
  | file
  deriving DecidableEq, Repr

/-- A command line is a write of its encoding to `CMD` (R55). -/
def commandAccess (i : Instr) : HostAccess := .write 0x000#12 (encode i)

/-- The commands of the pseudo-instruction `FILE` (R56). -/
def fileCommands : List Instr := [.hdr, .tser, .rewind, .payload, .bclose]

/-- What a line stands for: the assembler replaces the left side by the right side and nothing else (R55, R56). -/
def ScriptLine.expand : ScriptLine → List HostAccess
  | .command i => [commandAccess i]
  | .wr a v => [.write a v]
  | .rd a => [.read a]
  | .reset input => [.reset input]
  | .wbit b => [commandAccess (.bwrite ((BitVec.ofBool b).setWidth 32) 1#8)]
  | .wbyte v => [commandAccess (.bwrite (v.setWidth 32) 8#8)]
  | .wword v => [commandAccess (.bwrite v 32#8)]
  | .setFreq sym c => [.write (0x100#12 + sym.setWidth 12) c]
  | .file => fileCommands.map commandAccess

/-- A script is a straight line, run top to bottom (R55, R57). -/
def scriptAccesses (lines : List ScriptLine) : List HostAccess := lines.flatMap ScriptLine.expand

end Sys2Proof.Machine
end

