-- ==== Sys2Proof/Safety.lean ====
section
/-! DEFINITION. What claims about the core are stated with: the form of the streams and the invariants (spec/10_state.md,
spec/43_bit_writer.md R90), the tree a node index stands for (R20) with its codes and records, the packed bits (R86), and the
decoder used only as an oracle (spec/44_encoder.md R101). No meaning of a command uses any of these. -/

namespace Sys2Proof.Machine

/-! ### Streams -/

/-- The input a reset presents is below 2^64 bytes (R5). -/
def HostAccess.presentable : HostAccess → Bool
  | .write _ _ => true
  | .read _ => true
  | .reset input => decide (input.length < 2 ^ 64)

/-- The form of the streams: |IN| below 2^64 (R5), `ICUR` at most |IN| (R15), `OLEN` the length of `OUT` modulo 2^64
(R16), and every reset to come presents such an input. -/
abbrev Memory.wf (s : State) : Prop :=
  s.input.length < 2 ^ 64 ∧ s.icur.toNat ≤ s.input.length ∧ s.olen = BitVec.ofNat 64 s.out.length ∧
    s.pending.all HostAccess.presentable = true

/-- The model's read of one byte of `OUT`: none beyond its end. -/
def outAt (s : State) (a : Nat) : Option Byte := s.out[a]?

/-- The named premise "no access draws an error" (R39). -/
abbrev State.noIoErrors (s : State) : Prop := s.ioErrs.all (· == false) = true

/-- The bytes of `IN` from the cursor to the end. -/
def State.remaining (s : State) : List Byte := s.input.drop s.icur.toNat

/-! ### Invariants -/

/-- Bits `BWCUR` to 7 of `BWBUF` are 0 (R24). -/
abbrev State.writerClean (s : State) : Prop := s.bw.buf.toNat < 2 ^ s.bw.cur.toNat

/-- The cursor is at the start or at the end of the input (R61). -/
abbrev State.cursorAtAnEnd (s : State) : Prop := s.icur.toNat = 0 ∨ s.icur.toNat = s.input.length

/-- What holds between the host's accesses (R15, R16, R23, R24, R61). -/
abbrev State.Safe (s : State) : Prop :=
  Memory.wf s ∧ (s.cvalid = true → s.tvalid = true) ∧ (s.err = .none → s.writerClean ∧ s.cursorAtAnEnd)

/-- The state of the core after hardware reset, as the table of R35 gives it: the dead node memory and code table are masked
to 0 on every read. -/
def State.atReset (s : State) : Prop :=
  s.icur = 0#64 ∧ s.olen = 0#64 ∧ s.out = [] ∧ (∀ sym, freqAt s.freq sym = 0#55) ∧ s.tvalid = false ∧
    s.tree.nleaf = 0#9 ∧ s.tree.nnode = 0#9 ∧ s.tree.root = 0x1FF#9 ∧ s.cvalid = false ∧ s.bw.buf = 0#8 ∧
    s.bw.cur = 0#3 ∧ s.err = .none ∧ s.errinfo = 0#64 ∧ ∀ a : RegNum, 0x200 ≤ a.toNat → regRead a s = 0#64

/-- Number `a` cannot be written: a write raises `ILL` with the number, or is refused in the faulted state (R34, R110). -/
def readOnly (a : RegNum) : Prop :=
  ∀ (s : State) (v : Word) (rest : List HostAccess), s.pending = .write a v :: rest →
    step s = .next (if s.err = .none then { s with pending := rest, err := .ill, errinfo := BitVec.ofNat 64 a.toNat }
      else { s with pending := rest })

/-! ### Counts -/

/-- The table of the occurrence counts of a byte sequence (R17). -/
def countTable (bs : List Byte) : Vector Count 256 :=
  Vector.ofFn fun k : Fin 256 => BitVec.ofNat 55 (bs.count (BitVec.ofNat 8 k.val))

/-- No byte value occurs more than `CNTMAX` times. -/
abbrev countsFit (bs : List Byte) : Prop := ∀ b, bs.count b ≤ Config.cntMax

/-- The sum of all `FREQ[s]`. -/
def freqTotal (f : Vector Count 256) : Nat := (allSymbols.map fun s => (freqAt f s).toNat).sum

/-- L, the number of byte values with a non-zero count (R64). -/
def leafCount (f : Vector Count 256) : Nat := (sortedSymbols f).length

/-- No merge of `TBUILD` exceeds `CNTMAX` (R71). -/
abbrev mergesFit (f : Vector Count 256) : Prop := leafCount f ≤ 1 ∨ freqTotal f ≤ Config.cntMax

/-! ### The tree -/

/-- The tree as a sum type (R20). -/
inductive Tree where
  | leaf (sym : Byte) (cnt : Nat)
  | node (cnt : Nat) (l r : Tree)
  deriving DecidableEq, Repr

/-- The count a node carries. -/
def Tree.count : Tree → Nat
  | .leaf _ c => c
  | .node c _ _ => c

/-- Edges from the root to the deepest leaf (R76). -/
def Tree.height : Tree → Nat
  | .leaf _ _ => 0
  | .node _ l r => max l.height r.height + 1

/-- The symbols of the leaves, from left to right. -/
def Tree.symbols : Tree → List Byte
  | .leaf s _ => [s]
  | .node _ l r => l.symbols ++ r.symbols

/-- Every internal count is the sum of the children's counts (R20). -/
def Tree.wellCounted : Tree → Bool
  | .leaf _ _ => true
  | .node c l r => decide (c = l.count + r.count) && (l.wellCounted && r.wellCounted)

/-- The path of each leaf, 0 for a left edge and 1 for a right edge, the root's edge first (R77, R78). -/
def Tree.paths : Tree → List (Byte × List Bool)
  | .leaf s _ => [(s, [])]
  | .node _ l r =>
    (l.paths.map fun p => (p.1, false :: p.2)) ++ (r.paths.map fun p => (p.1, true :: p.2))

/-- The codes of the symbols: the paths, but the 1-bit code "0" for a lone leaf (R80). -/
def Tree.codes : Tree → List (Byte × List Bool)
  | .leaf s _ => [(s, [false])]
  | .node c l r => (Tree.node c l r).paths

/-- The records in preorder (R93, R96). -/
def Tree.records : Tree → List Word
  | .leaf s c => [s ++ BitVec.ofNat 55 c ++ 1#1]
  | .node c l r => (0#8 ++ BitVec.ofNat 55 c ++ 0#1) :: (l.records ++ r.records)

/-- `Tree(i)` (R20), none where a child is no live node; the first argument bounds the depth. -/
def treeAt : Nat → TreeMem → Nat → Option Tree
  | 0, _, _ => none
  | depth + 1, t, i =>
    let n := nodeAt t.node i
    if t.nnode.toNat ≤ i then none
    else if n.leaf then some (.leaf n.sym n.cnt.toNat)
    else
      match treeAt depth t n.left.toNat, treeAt depth t n.right.toNat with
      | some l, some r => if n.sym = 0#8 then some (.node n.cnt.toNat l r) else none
      | _, _ => none

/-- The tree of the core, `Tree(ROOT)` (R20). -/
def TreeMem.tree? (t : TreeMem) : Option Tree := treeAt Config.nnodeMax t t.root.toNat

/-- The tree state stands for a tree that a code table can be made from: no tree, or a tree of height at most 255 in which
no symbol occurs twice (R20, R76). -/
def TreeMem.sound (t : TreeMem) : Bool :=
  decide (t.root = Config.nil) ||
    match t.tree? with
    | some tr => decide (tr.height ≤ 255) && decide tr.symbols.Nodup
    | none => false

/-- The order of the nodes: by count, then by index (R73). -/
def nodeBefore (m : Vector Node 511) (i j : Nat) : Prop :=
  (nodeAt m i).cnt.toNat < (nodeAt m j).cnt.toNat ∨ ((nodeAt m i).cnt.toNat = (nodeAt m j).cnt.toNat ∧ i < j)

/-- Entry `k` of left(l), right(l), left(l + 1), right(l + 1), ...: the children of the nodes from index `l` on. -/
def childAt (m : Vector Node 511) (l k : Nat) : Nat :=
  let n := nodeAt m (l + k / 2)
  if k % 2 = 0 then n.left.toNat else n.right.toNat

/-- The nodes a walk in preorder visits from node `i` on, and whether it ends without meeting an internal node with a child
that is no live node, which is then the next it would visit (R84, R96); none where the walk is deeper than the first
argument. -/
def walkFrom : Nat → TreeMem → Nat → Option (List Nat × Bool)
  | 0, _, _ => none
  | depth + 1, t, i =>
    let n := nodeAt t.node i
    if n.leaf then some ([i], true)
    else if t.nnode.toNat ≤ n.left.toNat ∨ t.nnode.toNat ≤ n.right.toNat then some ([], false)
    else
      match walkFrom depth t n.left.toNat with
      | none => none
      | some (ls, false) => some (i :: ls, false)
      | some (ls, true) => (walkFrom depth t n.right.toNat).map fun r => (i :: (ls ++ r.1), r.2)

/-- The live parts of two tree states agree: the entries below `NNODE`, `NLEAF`, `NNODE` and `ROOT` (R19, R74). -/
def sameTree (t u : TreeMem) : Prop :=
  t.nleaf = u.nleaf ∧ t.nnode = u.nnode ∧ t.root = u.root ∧
    ∀ i, i < t.nnode.toNat → nodeAt t.node i = nodeAt u.node i

/-- The tree state that `TBUILD` makes of a table in a node memory nothing has written; none when it overflows. -/
def builtTree (f : Vector Count 256) : Option TreeMem :=
  match mergeLoop (leafCount f) (startBuilder f (Vector.replicate 511 Node.dead)) with
  | .built b => some b.finish
  | .overflow _ => none

/-! ### Codes and bits -/

/-- The number whose bits, least significant first, are the list. -/
def bitsValue : List Bool → Nat
  | [] => 0
  | b :: bs => b.toNat + 2 * bitsValue bs

/-- The entry of a code: bit i of `pat` is its i-th bit, bits `len` and above are 0 (R22, R77). -/
def entryOf (bits : List Bool) : CodeEntry :=
  { valid := true, len := BitVec.ofNat 9 bits.length, pat := BitVec.ofNat 256 (bitsValue bits) }

/-- The entry of a symbol in the table made from a tree state (R81, R82). -/
def tableEntry (t : TreeMem) (sym : Byte) : CodeEntry :=
  if t.root = Config.nil then CodeEntry.absent
  else
    match t.tree? with
    | some tr => ((tr.codes.lookup sym).map entryOf).getD CodeEntry.absent
    | none => CodeEntry.absent

/-- `TVALID` and `CVALID` tell the truth: the tree is the one `TBUILD` makes of `FREQ` as it stands (R21), the code table
is the one of that tree (R23). -/
def State.flagsTruthful (s : State) : Prop :=
  (s.tvalid = true → ∃ u, builtTree s.freq = some u ∧ sameTree s.tree u) ∧
    (s.cvalid = true → s.tvalid = true ∧ ∀ sym, codeAt s.code sym = tableEntry s.tree sym)

/-- The bits an entry sends (R85). -/
def entryBits (c : CodeEntry) : List Bool := patternBits c.pat c.len.toNat

/-- The bits of a byte sequence's codes, one after another (R99). -/
def codeString (c : Vector CodeEntry 256) (bs : List Byte) : List Bool := bs.flatMap fun b => entryBits (codeAt c b)

/-- Every byte of a sequence has a code. -/
abbrev allCoded (c : Vector CodeEntry 256) (bs : List Byte) : Prop := ∀ b ∈ bs, (codeAt c b).valid = true

/-- The closed form of `BitAppend` for the n-bit number p (R86): with c = `BWCUR`, B = `BWBUF`, V = B + p x 2^c, T = c + n
and q = T / 8, the bytes V / 2^(8j) mod 256 for j below q are pushed, and V / 2^(8q), T mod 8 stay; one answer of the
environment goes with each push. -/
def State.accept (s : State) (p n : Nat) : State :=
  let v := s.bw.buf.toNat + p * 2 ^ s.bw.cur.toNat
  let t := s.bw.cur.toNat + n
  let q := t / 8
  { s with
    out := s.out ++ (List.range q).map fun j => BitVec.ofNat 8 (v / 2 ^ (8 * j))
    olen := s.olen + BitVec.ofNat 64 q
    ioErrs := s.ioErrs.drop q
    bw := { buf := BitVec.ofNat 8 (v / 2 ^ (8 * q)), cur := BitVec.ofNat 3 (t % 8) } }

/-- `accept` of a list of bits. -/
def State.acceptBits (s : State) (bits : List Bool) : State := s.accept (bitsValue bits) bits.length

/-- A list of bytes is pushed, one answer of the environment for each (R38, R39). -/
def State.pushAll (s : State) (bs : List Byte) : State :=
  { s with out := s.out ++ bs, olen := s.olen + BitVec.ofNat 64 bs.length, ioErrs := s.ioErrs.drop bs.length }

/-- Bits packed into bytes from bit 0 upward, the last byte padded with zeros (R90). -/
def packBits (bits : List Bool) : List Byte :=
  (List.range ((bits.length + 7) / 8)).map fun j => BitVec.ofNat 8 (bitsValue bits / 2 ^ (8 * j))

/-- The eight bytes of a word, least significant first (R40). -/
def littleEndian (w : Word) : List Byte := (List.range 8).map fun k => BitVec.ofNat 8 (w.toNat / 2 ^ (8 * k))

/-- The bytes of a node's record {sym, cnt, leaf} (R40, R93). -/
def nodeBytes (n : Node) : List Byte := littleEndian (n.sym ++ n.cnt ++ BitVec.ofBool n.leaf)

/-- The serialized tree and the footer (R94, R96). -/
def treeBytes (t : TreeMem) : List Byte :=
  (if t.root = Config.nil then [] else ((t.tree?.map Tree.records).getD []).flatMap littleEndian) ++ List.replicate 8 0#8

/-- The file of the header, a tree and payload bits (R92). -/
def fileBytes (t : TreeMem) (payload : List Bool) : List Byte := magicBytes ++ treeBytes t ++ packBits payload

/-! ### Running several commands, and what a command may raise -/

/-- Commands one after another, each on the state the one before it left. -/
def execAll : List Instr → State → Host.Outcome State Fault Refusal
  | [], s => .next s
  | i :: is, s =>
    match exec i s with
    | .next t => execAll is t
    | .fault r => .fault r
    | .refused r => .refused r

/-- The nine commands of `ENCODE` (R100). -/
def encodeSteps : List Instr := [.rewind, .count, .tbuild, .cgen, .hdr, .tser, .rewind, .payload, .bclose]

/-- The fault codes a well-formed command may raise: the column "raised by" of R106. -/
def mayRaise : Instr → List ErrCode
  | .count => [.io, .cntOvf]
  | .rewind => []
  | .tbuild => [.cntOvf]
  | .cgen => [.invariant, .seq]
  | .bwrite _ _ => [.io]
  | .bclose => [.io]
  | .hdr => [.io, .order]
  | .tser => [.io, .invariant, .seq, .order]
  | .emit _ => [.io, .seq, .noCode]
  | .payload => [.io, .seq, .noCode]
  | .encode => [.io, .invariant, .cntOvf, .order]

/-! ### The queues of the tree builder -/

/-- A node index is in one of the two queues (R64, R65). -/
abbrev Builder.waits (b : Builder) (i : Nat) : Prop := (b.lh ≤ i ∧ i < b.nleaf) ∨ (b.mh ≤ i ∧ i < b.mt)

/-- The priority order of R73: by count, then by index. -/
abbrev Builder.comesFirst (b : Builder) (i j : Nat) : Prop :=
  (nodeAt b.node i).cnt.toNat < (nodeAt b.node j).cnt.toNat ∨
    ((nodeAt b.node i).cnt.toNat = (nodeAt b.node j).cnt.toNat ∧ i ≤ j)

/-- Both queues are in non-decreasing order of count, the merge queue behind the leaves, each new node so far counts at
least as much as what was taken: what the loop keeps (R64, R65, R72). -/
def Builder.ordered (b : Builder) : Prop :=
  b.lh ≤ b.nleaf ∧ b.nleaf ≤ b.mh ∧ b.mh ≤ b.mt ∧
    (∀ i j, b.lh ≤ i → i < j → j < b.nleaf → (nodeAt b.node i).cnt.toNat ≤ (nodeAt b.node j).cnt.toNat) ∧
    (∀ i j, b.mh ≤ i → i < j → j < b.mt → (nodeAt b.node i).cnt.toNat ≤ (nodeAt b.node j).cnt.toNat)

/-- `k` turns of the merge loop; none when it has ended or overflowed before (R67, R68). -/
def mergeSteps : Nat → Builder → Option Builder
  | 0, b => some b
  | k + 1, b =>
    if b.waiting ≤ 1 then none
    else
      match b.mergeStep with
      | none => none
      | some b' => mergeSteps k b'

/-! ### Prefix codes (R75) -/

/-- A code for a set of symbols in which no code is the beginning of another. -/
abbrev prefixFree (syms : List Byte) (code : Byte → List Bool) : Prop :=
  ∀ a ∈ syms, ∀ b ∈ syms, a ≠ b → ¬ (code a) <+: (code b)

/-- The sum over the symbols of code length times frequency (R75). -/
def codeCost (f : Vector Count 256) (syms : List Byte) (len : Byte → Nat) : Nat :=
  (syms.map fun s => len s * (freqAt f s).toNat).sum

/-! ### The decoder, a test oracle and no hardware (R101) -/

/-- The word of eight bytes, byte 0 least significant (R40). -/
def wordOfBytes (bs : List Byte) : Word := BitVec.ofNat 64 (bs.foldr (fun b v => b.toNat + 256 * v) 0)

/-- `ParseNode()`: preorder, left before right; the first argument bounds the number of records on a path. -/
def parseNode : Nat → List Byte → Option (Tree × List Byte)
  | 0, _ => none
  | depth + 1, bs =>
    if bs.length < 8 then none
    else
      let w := wordOfBytes (bs.take 8)
      let rest := bs.drop 8
      let cnt := (w.extractLsb' 1 55).toNat
      if w.getLsbD 0 then some (.leaf (w.extractLsb' 56 8) cnt, rest)
      else
        match parseNode depth rest with
        | none => none
        | some (l, rest) =>
          match parseNode depth rest with
          | none => none
          | some (r, rest) => some (.node cnt l r, rest)

/-- Bits of bytes, each byte from bit 0 to bit 7 (R101). -/
def bitsOfBytes (bs : List Byte) : List Bool := bs.flatMap fun b => (List.range 8).map b.getLsbD

/-- Walk from a node to a leaf, one bit an edge. -/
def walk : Tree → List Bool → Option (Byte × List Bool)
  | .leaf s _, bits => some (s, bits)
  | .node _ _ _, [] => none
  | .node _ l r, b :: bits => if b then walk r bits else walk l bits

/-- One symbol: a lone leaf takes one bit and ignores its value (R80, R101). -/
def takeSymbol (tr : Tree) (bits : List Bool) : Option (Byte × List Bool) :=
  match tr, bits with
  | .leaf _ _, [] => none
  | .leaf s _, _ :: rest => some (s, rest)
  | .node c l r, bits => walk (.node c l r) bits

/-- `repeat n times` (R101). -/
def takeSymbols : Nat → Tree → List Bool → Option (List Byte)
  | 0, _, _ => some []
  | n + 1, tr, bits =>
    match takeSymbol tr bits with
    | none => none
    | some (s, rest) => (takeSymbols n tr rest).map (s :: ·)

/-- `Decode(F)` (R101): none where a `require` fails or the file ends too early. -/
def decodeFile (f : List Byte) : Option (List Byte) :=
  if f.take 8 = magicBytes then
    let body := f.drop 8
    if body.take 8 = List.replicate 8 0#8 then some []
    else
      match parseNode Config.nnodeMax body with
      | none => none
      | some (tr, rest) =>
        if rest.take 8 = List.replicate 8 0#8 then takeSymbols tr.count tr (bitsOfBytes (rest.drop 8)) else none
  else none

end Sys2Proof.Machine
end

