-- ==== Sys2Proof/Certificates/Slice0/Obligations.lean ====
section
/-! DEFINITION. The statements for the provers: what the rules of spec/ say the core does. Free values (`Config.freeBwBuf`,
`Config.freeBwCur`) and `Config.magic` have no body, so every statement holds for all their values. The answers of the
environment stand in `ioErrs`; `noIoErrors` is the named premise "no access draws an error" (spec/20_memory.md R39). -/

open Sys2Proof Sys2Proof.Machine

/-! ### Reset -/

/-- The state after reset is that of the table of R35; the dead node memory and code table read as nothing. -/
def Obligations.ResetStateMatchesTable : Prop := State.reset.atReset

/-- The invariants hold at reset. -/
def Obligations.ResetStateIsSafe : Prop := State.reset.Safe ∧ State.reset.flagsTruthful

/-- Hardware reset, at any time, in the faulted state too, gives the state of R35 and the `IN` the platform presents (R116);
the host's further accesses stay (the model's queue, log entry 8). -/
def Obligations.HardResetGivesResetState : Prop :=
  ∀ (s : State) (input : List Byte) (rest : List HostAccess), s.pending = .reset input :: rest →
    ∃ t, step s = .next t ∧ t.atReset ∧ t.input = input ∧ t.pending = rest

/-! ### Encoding -/

/-- A word stands for an instruction exactly when it lies in the instruction's row, `w & mask == match`, carries its operands,
and, for `BWRITE`, n is at most 32 (R50, R51). -/
def Obligations.RowsSelectWords : Prop :=
  ∀ (w : Word) (i : Instr),
    decode w = .ok i ↔ (i.wellFormed = true ∧ w &&& rowMask i = rowMatch i ∧ rowOperands i w = true)

/-- Decoding the word of any well-formed instruction gives the instruction back, at every value of its operands. -/
def Obligations.DecodeInvertsEncode : Prop := ∀ i : Instr, i.wellFormed = true → decode (encode i) = .ok i

/-- Every legal word is the word of the instruction it decodes to, and that instruction is well formed. -/
def Obligations.EncodeInvertsDecode : Prop :=
  ∀ (w : Word) (i : Instr), decode w = .ok i → encode i = w ∧ i.wellFormed = true

/-- Every 64-bit word is either exactly one command or illegal, and is illegal exactly in the three cases of R52; an illegal
word written to `CMD` while `ERR` = 0 raises `ILL` with the word and changes nothing else. -/
def Obligations.IllegalWordsRaiseIll : Prop :=
  (∀ w : Word, (∃ i, decode w = .ok i ∧ ∀ j, decode w = .ok j → j = i) ∨ ∃ r, decode w = .error r) ∧
  (∀ w : Word, (∃ r, decode w = .error r) ↔
    ((w.extractLsb' 56 8 = 0#8 ∨ 0x0C ≤ (w.extractLsb' 56 8).toNat) ∨
      (1 ≤ (w.extractLsb' 56 8).toNat ∧ (w.extractLsb' 56 8).toNat ≤ 0x0B ∧
        (if w.extractLsb' 56 8 = 5#8 then w.extractLsb' 32 16 ≠ 0#16
          else if w.extractLsb' 56 8 = 9#8 then w.extractLsb' 0 48 ≠ 0#48
          else w.extractLsb' 0 56 ≠ 0#56)) ∨
      (w.extractLsb' 56 8 = 5#8 ∧ 32 < (w.extractLsb' 48 8).toNat))) ∧
  (∀ (s : State) (w : Word) (rest : List HostAccess) (r : Reject), s.err = .none → s.pending = .write 0x000#12 w :: rest →
    decode w = .error r → step s = .next { s with pending := rest, err := .ill, errinfo := w })

/-- Words of the spec's own examples decode to the commands they stand for (95_test_vectors.md, S1, T6, T12). -/
def Obligations.SampleWordsDecode : Prop :=
  decode 0x0100000000000000#64 = .ok .count ∧ decode 0x0300000000000000#64 = .ok .tbuild ∧
    decode 0x0400000000000000#64 = .ok .cgen ∧ decode 0x05080000000000AC#64 = .ok (.bwrite 0xAC#32 8#8) ∧
    decode 0x0700000000000000#64 = .ok .hdr ∧ decode 0x097A000000000000#64 = .ok (.emit 0x7A#8)

/-- The pseudo-instructions and their expansions (R56). -/
def Obligations.PseudoInstructionsExpand : Prop :=
  ScriptLine.expand (.wbit false) = [.write 0x000#12 0x0501000000000000#64] ∧
  ScriptLine.expand (.wbit true) = [.write 0x000#12 0x0501000000000001#64] ∧
  (∀ v : Byte, ScriptLine.expand (.wbyte v) = [.write 0x000#12 (0x0508000000000000#64 ||| v.setWidth 64)]) ∧
  (∀ v : BitVec 32, ScriptLine.expand (.wword v) = [.write 0x000#12 (0x0520000000000000#64 ||| v.setWidth 64)]) ∧
  (∀ (y : Byte) (c : Word), ScriptLine.expand (.setFreq y c) = [.write (BitVec.ofNat 12 (0x100 + y.toNat)) c]) ∧
  ScriptLine.expand .file =
    [.write 0x000#12 0x0700000000000000#64, .write 0x000#12 0x0800000000000000#64, .write 0x000#12 0x0200000000000000#64,
      .write 0x000#12 0x0A00000000000000#64, .write 0x000#12 0x0600000000000000#64]

/-! ### The step and the port -/

/-- When the host's next access writes a legal word to `CMD` and `ERR` = 0, the step is the instruction the word decodes to,
run on the state in which that access has been taken (R28, R54). -/
def Obligations.StepRunsTheCommandWritten : Prop :=
  ∀ (s : State) (w : Word) (rest : List HostAccess) (i : Instr), s.err = .none → s.pending = .write 0x000#12 w :: rest →
    decode w = .ok i → step s = exec i { s with pending := rest }

/-- A command that needs a tree or a code table that is not there raises `SEQ` with its word and changes nothing else, before
the writer is looked at (R54 step 3, R109). -/
def Obligations.SequenceFaultIsPrecise : Prop :=
  ∀ (s : State) (y : Byte), s.err = .none →
    (s.tvalid = false →
      exec .cgen s = .next { s with err := .seq, errinfo := 0x0400000000000000#64 } ∧
      exec .tser s = .next { s with err := .seq, errinfo := 0x0800000000000000#64 }) ∧
    (s.cvalid = false →
      exec (.emit y) s = .next { s with err := .seq, errinfo := 0x0900000000000000#64 ||| y.setWidth 64 <<< 48 } ∧
      exec .payload s = .next { s with err := .seq, errinfo := 0x0A00000000000000#64 })

/-- A byte-wise output command while the writer holds bits raises `ORDER` with its word and changes nothing else (R54 step
4). -/
def Obligations.OrderFaultIsPrecise : Prop :=
  ∀ s : State, s.err = .none → s.bw.cur ≠ 0#3 →
    exec .hdr s = .next { s with err := .order, errinfo := 0x0700000000000000#64 } ∧
    exec .encode s = .next { s with err := .order, errinfo := 0x0B00000000000000#64 } ∧
    (s.tvalid = true → exec .tser s = .next { s with err := .order, errinfo := 0x0800000000000000#64 })

/-- The bits of `STATUS`, its value at reset, and that it is read-only (R29). -/
def Obligations.StatusRegisterBits : Prop :=
  readOnly 0x001#12 ∧
  (∀ (s : State) (k : Nat), (regRead 0x001#12 s).getLsbD k =
    if k = 0 then s.tvalid else if k = 1 then s.cvalid else if k = 2 then decide (s.err ≠ .none)
    else if k = 3 then decide (s.icur.toNat = s.input.length) else false) ∧
  (∀ (s : State) (input : List Byte), regRead 0x001#12 (hardReset input s) = if input.length = 0 then 0x8#64 else 0x0#64)

/-- The registers 0x002 to 0x008: read-only views of the state, the last three masked by `TVALID`, in every state, the
faulted ones too (R30); `ERR` reads 0 to 7 for `NONE`, `IO`, `INVARIANT`, `CNT_OVF`, `SEQ`, `NOCODE`, `ILL`, `ORDER` (R106);
`CMD` reads 0 (R28). -/
def Obligations.FixedRegistersRead : Prop :=
  (∀ a : RegNum, 2 ≤ a.toNat → a.toNat ≤ 8 → readOnly a) ∧
  ∀ s : State, regRead 0x000#12 s = 0#64 ∧
    regRead 0x002#12 s = (match s.err with
      | .none => 0#64
      | .io => 1#64
      | .invariant => 2#64
      | .cntOvf => 3#64
      | .seq => 4#64
      | .noCode => 5#64
      | .ill => 6#64
      | .order => 7#64) ∧
    regRead 0x003#12 s = s.errinfo ∧ regRead 0x004#12 s = s.icur ∧ regRead 0x005#12 s = s.olen ∧
    (regRead 0x006#12 s).toNat = (if s.tvalid then s.tree.nleaf.toNat else 0) ∧
    (regRead 0x007#12 s).toNat = (if s.tvalid then s.tree.nnode.toNat else 0) ∧
    (regRead 0x008#12 s).toNat = (if s.tvalid then s.tree.root.toNat else 0x1FF)

/-- The `FREQ` window: every entry reads zero-extended; a write with bits 63:55 zero stores the entry and clears both flags,
one with any of them set raises `ILL` with the register number, and in the faulted state a write is refused (R31). -/
def Obligations.FreqWindowReadsAndWrites : Prop :=
  ∀ (s : State) (y : Byte) (v : Word) (rest : List HostAccess),
    regRead (BitVec.ofNat 12 (0x100 + y.toNat)) s = (freqAt s.freq y).setWidth 64 ∧
    (s.pending = .write (BitVec.ofNat 12 (0x100 + y.toNat)) v :: rest →
      (s.err ≠ .none → step s = .next { s with pending := rest }) ∧
      (s.err = .none → v.extractLsb' 55 9 ≠ 0#9 →
        step s = .next { s with pending := rest, err := .ill, errinfo := BitVec.ofNat 64 (0x100 + y.toNat) }) ∧
      (s.err = .none → v.extractLsb' 55 9 = 0#9 → ∃ f : Vector Count 256,
        freqAt f y = v.extractLsb' 0 55 ∧ (∀ z, z ≠ y → freqAt f z = freqAt s.freq z) ∧
        step s = .next { s with pending := rest, freq := f, tvalid := false, cvalid := false }))

/-- The node windows, read-only: the record and the children of a live node, 0 for any other (R32). -/
def Obligations.NodeWindowsRead : Prop :=
  (∀ i, i < 511 → readOnly (BitVec.ofNat 12 (0x200 + i)) ∧ readOnly (BitVec.ofNat 12 (0x400 + i))) ∧
  ∀ (s : State) (i : Nat) (h : i < 511),
    let n := s.tree.node[i]
    let live := s.tvalid = true ∧ i < s.tree.nnode.toNat
    (live → (regRead (BitVec.ofNat 12 (0x200 + i)) s).toNat = n.leaf.toNat + 2 * n.cnt.toNat + 2 ^ 56 * n.sym.toNat ∧
      (regRead (BitVec.ofNat 12 (0x400 + i)) s).toNat = n.left.toNat + 2 ^ 16 * n.right.toNat) ∧
    (¬ live → regRead (BitVec.ofNat 12 (0x200 + i)) s = 0#64 ∧ regRead (BitVec.ofNat 12 (0x400 + i)) s = 0#64)

/-- The code windows, read-only: length and pattern words of a present entry under `CVALID`, 0 otherwise (R33). -/
def Obligations.CodeWindowsRead : Prop :=
  (∀ (y : Byte) (k : Nat), k < 4 →
    readOnly (BitVec.ofNat 12 (0x600 + y.toNat)) ∧ readOnly (BitVec.ofNat 12 (0x800 + 4 * y.toNat + k))) ∧
  ∀ (s : State) (y : Byte) (k : Nat), k < 4 →
    let c := s.code[y.toNat]'y.isLt
    let shown := s.cvalid = true ∧ c.valid = true
    (shown → (regRead (BitVec.ofNat 12 (0x600 + y.toNat)) s).toNat = c.len.toNat + 2 ^ 15 ∧
      (regRead (BitVec.ofNat 12 (0x800 + 4 * y.toNat + k)) s).toNat = c.pat.toNat / 2 ^ (64 * k) % 2 ^ 64) ∧
    (¬ shown → regRead (BitVec.ofNat 12 (0x600 + y.toNat)) s = 0#64 ∧
      regRead (BitVec.ofNat 12 (0x800 + 4 * y.toNat + k)) s = 0#64)

/-- A read of an unmapped number answers 0 and changes nothing; a write to an unmapped or read-only number raises `ILL` with
the number, or is refused in the faulted state (R34, with the map of R27; the queue of accesses and the list of answers are
the model's, log entry 8). -/
def Obligations.UnmappedAndReadOnlyRegisters : Prop :=
  (∀ (s : State) (a : RegNum) (rest : List HostAccess),
    ((9 ≤ a.toNat ∧ a.toNat ≤ 0xFF) ∨ a.toNat = 0x3FF ∨ a.toNat = 0x5FF ∨ (0x700 ≤ a.toNat ∧ a.toNat ≤ 0x7FF) ∨
      0xC00 ≤ a.toNat) → s.pending = .read a :: rest →
    step s = .next { s with pending := rest, replies := s.replies ++ [0#64] }) ∧
  ∀ a : RegNum, (1 ≤ a.toNat ∧ a.toNat ≤ 0xFF) ∨ 0x200 ≤ a.toNat → readOnly a

/-- A read changes no state of the core, in the faulted state too: the port answers and nothing else happens (R12; the
queue of accesses and the list of answers are the model's, log entry 8). -/
def Obligations.ReadsChangeNothing : Prop :=
  ∀ (s : State) (a : RegNum) (rest : List HostAccess), s.pending = .read a :: rest →
    step s = .next { s with pending := rest, replies := s.replies ++ [regRead a s] }

/-- Nothing in this hardware is stuck: every step answers a next state; with no access of the host the core keeps all state
(93_implementation_defined.md section 2, R115). -/
def Obligations.EveryStepAnswersNext : Prop :=
  (∀ s : State, ∃ t, step s = .next t) ∧ ∀ s : State, s.pending = [] → step s = .next s

/-- While `ERR` is not 0 every write is refused, every command changes nothing, every read works, and only a reset ends that:
no other step changes any state of the core or `OUT` (R110, R25). -/
def Obligations.FaultedCoreRefusesAllButReset : Prop :=
  ∀ s : State, s.err ≠ .none →
    (∀ (a : RegNum) (v : Word) (rest : List HostAccess), s.pending = .write a v :: rest →
      step s = .next { s with pending := rest }) ∧
    (∀ i : Instr, exec i s = .next s) ∧
    (∀ (a : RegNum) (rest : List HostAccess), s.pending = .read a :: rest →
      step s = .next { s with pending := rest, replies := s.replies ++ [regRead a s] }) ∧
    (∀ t : State, step s = .next t → (∀ input rest, s.pending ≠ .reset input :: rest) →
      t = { s with pending := t.pending, replies := t.replies })

/-! ### COUNT and REWIND -/

/-- `COUNT` without an error: the table becomes the occurrence counts of the bytes from the cursor to the end, the cursor
goes to the end, both flags are cleared, and nothing else changes (R58); one answer of the environment goes with each
read. -/
def Obligations.CountMakesTheTable : Prop :=
  ∀ s : State, s.err = .none → s.input.length < 2 ^ 64 → s.icur.toNat ≤ s.input.length → s.noIoErrors →
    countsFit s.remaining →
    (∀ y, (freqAt (countTable s.remaining) y).toNat = s.remaining.count y) ∧
    exec .count s = .next { s with
      freq := countTable s.remaining
      icur := BitVec.ofNat 64 s.input.length
      tvalid := false
      cvalid := false
      ioErrs := s.ioErrs.drop s.remaining.length }

/-- `COUNT` at a byte that has already occurred `CNTMAX` times: `CNT_OVF` with the word, the cursor one past that byte, the
table of the bytes before it, both flags cleared, `OUT` as before (R58, R108). -/
def Obligations.CountOverflowFault : Prop :=
  ∀ (s : State) (pre post : List Byte) (b : Byte), s.err = .none → s.input.length < 2 ^ 64 →
    s.icur.toNat ≤ s.input.length → s.noIoErrors → s.remaining = pre ++ b :: post → countsFit pre →
    pre.count b = Config.cntMax →
    ∃ t, exec .count s = .next t ∧ t.err = .cntOvf ∧ t.errinfo = 0x0100000000000000#64 ∧
      t.icur.toNat = s.icur.toNat + pre.length + 1 ∧ t.freq = countTable pre ∧ t.tvalid = false ∧ t.cvalid = false ∧
      t.out = s.out ∧ t.olen = s.olen

/-- `COUNT` whose read of number k draws the first error: `IO` with the word, the cursor at the byte that could not be read,
the counts of the bytes before it, both flags cleared (R39, R108). -/
def Obligations.CountReadErrorFault : Prop :=
  ∀ (s : State) (k : Nat) (rest : List Bool), s.err = .none → s.input.length < 2 ^ 64 →
    s.icur.toNat ≤ s.input.length → s.ioErrs = List.replicate k false ++ true :: rest → k < s.remaining.length →
    countsFit (s.remaining.take k) →
    ∃ t, exec .count s = .next t ∧ t.err = .io ∧ t.errinfo = 0x0100000000000000#64 ∧
      t.icur.toNat = s.icur.toNat + k ∧ t.freq = countTable (s.remaining.take k) ∧ t.tvalid = false ∧
      t.cvalid = false ∧ t.out = s.out ∧ t.olen = s.olen ∧ t.ioErrs = rest

/-- `REWIND` is the word 0x0200000000000000, sets the cursor to 0, cannot fault and changes nothing else (R59). -/
def Obligations.RewindMovesOnlyTheCursor : Prop :=
  encode .rewind = 0x0200000000000000#64 ∧
    ∀ s : State, s.err = .none → exec .rewind s = .next { s with icur := 0#64 }

/-! ### TBUILD -/

/-- `TBUILD` without an overflow: `TVALID` set, `CVALID` cleared, only the tree state changes besides; the leaves are the
byte values with a non-zero count in ascending order of count and then of byte value, `NLEAF` = L, `NNODE` = 2L - 1 (0 for
L = 0), `ROOT` = `NIL` for L = 0 and 2L - 2 otherwise (R19, R64, R68, R69, R70). -/
def Obligations.TbuildSortsLeavesAndSetsRoot : Prop :=
  ∀ s : State, s.err = .none → mergesFit s.freq →
    (∀ y, y ∈ sortedSymbols s.freq ↔ freqAt s.freq y ≠ 0#55) ∧
    (sortedSymbols s.freq).Pairwise (fun x y => (freqAt s.freq x).toNat < (freqAt s.freq y).toNat ∨
      ((freqAt s.freq x).toNat = (freqAt s.freq y).toNat ∧ x.toNat < y.toNat)) ∧
    ∃ t : TreeMem, exec .tbuild s = .next { s with tree := t, tvalid := true, cvalid := false } ∧
      t.nleaf.toNat = leafCount s.freq ∧ t.nnode.toNat = 2 * leafCount s.freq - 1 ∧
      t.root = (if leafCount s.freq = 0 then 0x1FF#9 else BitVec.ofNat 9 (2 * leafCount s.freq - 2)) ∧
      ∀ (k : Nat) (y : Byte), (sortedSymbols s.freq)[k]? = some y →
        nodeAt t.node k = { leaf := true, sym := y, cnt := freqAt s.freq y, left := 0x1FF#9, right := 0x1FF#9 }

/-- `TBUILD` raises `CNT_OVF` exactly when there are at least two leaves and the sum of all counts exceeds `CNTMAX`; it
raises nothing else, and then both flags are cleared and the table, the streams and the codes stay (R70, R71). -/
def Obligations.TbuildOverflowExactly : Prop :=
  ∀ s : State, s.err = .none →
    ((∃ t, exec .tbuild s = .next t ∧ t.err = .cntOvf) ↔ (2 ≤ leafCount s.freq ∧ Config.cntMax < freqTotal s.freq)) ∧
    (∀ t, exec .tbuild s = .next t → t.err ≠ .none →
      t.err = .cntOvf ∧ t.errinfo = 0x0300000000000000#64 ∧ t.tvalid = false ∧ t.cvalid = false ∧ t.freq = s.freq ∧
        t.icur = s.icur ∧ t.out = s.out ∧ t.olen = s.olen ∧ t.code = s.code)

/-- The result of `TBUILD` with L at least 1 is a tree: L leaves and L - 1 internal nodes; every internal node has two
different children at lower indices, symbol 0 and the sum of their counts, at least 2; every node but the root is the child
of exactly one internal node; the root counts the whole table; the height is at most L - 1 (R20, R67, R76). The left child is
the one popped first: it precedes the right one in the order by count and then by index, and the sequence left(L), right(L),
left(L + 1), right(L + 1), ... is strictly ascending in that order (R66, R67, R73). -/
def Obligations.TbuildMakesATree : Prop :=
  ∀ s t : State, s.err = .none → exec .tbuild s = .next t → t.err = .none → 1 ≤ leafCount s.freq →
    let l := leafCount s.freq
    (∃ tr, t.tree.tree? = some tr ∧ tr.height ≤ l - 1 ∧ tr.symbols.Perm (sortedSymbols s.freq) ∧
      tr.symbols.Nodup ∧ tr.wellCounted = true ∧ tr.count = freqTotal s.freq) ∧
    (∀ i, l ≤ i → i < 2 * l - 1 →
      let n := nodeAt t.tree.node i
      n.leaf = false ∧ n.sym = 0#8 ∧ n.left.toNat < i ∧ n.right.toNat < i ∧ n.left ≠ n.right ∧
        nodeBefore t.tree.node n.left.toNat n.right.toNat ∧ 2 ≤ n.cnt.toNat ∧
        n.cnt.toNat = (nodeAt t.tree.node n.left.toNat).cnt.toNat + (nodeAt t.tree.node n.right.toNat).cnt.toNat) ∧
    (∀ j, j < 2 * l - 2 → ∃ i, (l ≤ i ∧ i < 2 * l - 1 ∧
        ((nodeAt t.tree.node i).left.toNat = j ∨ (nodeAt t.tree.node i).right.toNat = j)) ∧
      ∀ i', l ≤ i' → i' < 2 * l - 1 →
        ((nodeAt t.tree.node i').left.toNat = j ∨ (nodeAt t.tree.node i').right.toNat = j) → i' = i) ∧
    (∀ j k, j < k → k < 2 * l - 2 →
      nodeBefore t.tree.node (childAt t.tree.node l j) (childAt t.tree.node l k))

/-- At every moment of the merge loop both queues are in non-decreasing order of count, and so are all internal nodes made so
far, popped or not (R72). -/
def Obligations.MergeQueueNonDecreasing : Prop :=
  ∀ (f : Vector Count 256) (m : Vector Node 511) (k : Nat) (b : Builder), mergeSteps k (startBuilder f m) = some b →
    b.ordered ∧ ∀ i j, b.nleaf ≤ i → i < j → j < b.mt → (nodeAt b.node i).cnt.toNat ≤ (nodeAt b.node j).cnt.toNat

/-- `PopMin` takes the node that is smallest, by count and then by index, among all nodes in either queue, and removes it and
no other; the queues stay ordered (R66, R73). -/
def Obligations.PopMinTakesTheSmallest : Prop :=
  ∀ b : Builder, b.ordered → 0 < b.waiting →
    b.waits b.popMin.1 ∧ (∀ j, b.waits j → b.comesFirst b.popMin.1 j) ∧
      (∀ j, b.popMin.2.waits j ↔ (b.waits j ∧ j ≠ b.popMin.1)) ∧ b.popMin.2.node = b.node ∧ b.popMin.2.ordered

/-- The state after `TBUILD` (`NODE` below `NNODE`, `NLEAF`, `NNODE`, `ROOT`) is a function of `FREQ` alone (R74). -/
def Obligations.TbuildDependsOnFreqAlone : Prop :=
  ∀ s u s' u' : State, s.err = .none → u.err = .none → s.freq = u.freq → exec .tbuild s = .next s' →
    exec .tbuild u = .next u' → s'.err = u'.err ∧ (s'.err = .none → sameTree s'.tree u'.tree)

/-! ### CGEN -/

/-- `CGEN` with a valid tree: every leaf's symbol gets its path as its code, root edge at bit 0, 0 for left and 1 for right,
a lone leaf the 1-bit code "0", every other entry is absent; `CVALID` is set and nothing else changes (R77 to R82). -/
def Obligations.CgenGivesPathCodes : Prop :=
  ∀ s : State, s.err = .none → s.tvalid = true → s.tree.sound = true →
    ∃ table : Vector CodeEntry 256, exec .cgen s = .next { s with code := table, cvalid := true } ∧
      ∀ y, codeAt table y = tableEntry s.tree y

/-- After `CGEN` the present codes have lengths 1 to 255, zero bits at positions `len` and above, and none is the beginning
of another (R82 (b), (c), (d)). -/
def Obligations.CgenCodesArePrefixFree : Prop :=
  ∀ s t : State, s.err = .none → s.tvalid = true → s.tree.sound = true → exec .cgen s = .next t →
    (∀ y, (codeAt t.code y).valid = true → 1 ≤ (codeAt t.code y).len.toNat ∧ (codeAt t.code y).len.toNat ≤ 255 ∧
      (codeAt t.code y).pat.toNat < 2 ^ (codeAt t.code y).len.toNat) ∧
    (∀ y z, y ≠ z → (codeAt t.code y).valid = true → (codeAt t.code z).valid = true →
      (codeAt t.code y).len.toNat ≤ (codeAt t.code z).len.toNat →
      (codeAt t.code z).pat.toNat % 2 ^ (codeAt t.code y).len.toNat ≠ (codeAt t.code y).pat.toNat)

/-- A walk from the root that meets an internal node with a child that is no live node raises `INVARIANT`: `CGEN` leaves
`CVALID` = 0, `TVALID` = 1 and the tree; `TSER` has pushed the records of the nodes visited before it, in preorder (R84, R96,
R108). No run reaches such a state. -/
def Obligations.ImpossibleChildRaisesInvariant : Prop :=
  ∀ (s : State) (visited : List Nat), s.err = .none → s.tvalid = true → s.tree.root ≠ 0x1FF#9 →
    walkFrom Config.nnodeMax s.tree s.tree.root.toNat = some (visited, false) →
    (∃ t, exec .cgen s = .next t ∧ t.err = .invariant ∧ t.errinfo = 0x0400000000000000#64 ∧ t.cvalid = false ∧
      t.tvalid = true ∧ t.tree = s.tree ∧ t.out = s.out ∧ t.olen = s.olen) ∧
    (s.bw.cur = 0#3 → (∀ e ∈ s.ioErrs.take (8 * visited.length), e = false) →
      ∃ t, exec .tser s = .next t ∧ t.err = .invariant ∧ t.errinfo = 0x0800000000000000#64 ∧
        t.out = s.out ++ visited.flatMap (fun i => nodeBytes (nodeAt s.tree.node i)) ∧
        t.olen = s.olen + BitVec.ofNat 64 (8 * visited.length) ∧ t.tree = s.tree ∧ t.tvalid = true ∧
        t.cvalid = s.cvalid)

/-! ### The bit writer -/

/-- `BWRITE pat, n` appends the low n bits of pat: with nothing to append it changes nothing at all; without an error it is
the closed form of R86; when push number k draws the first error, the bytes before it are in `OUT` (R85, R88, R108). -/
def Obligations.BwriteAppendsLowBits : Prop :=
  ∀ (s : State) (pat : BitVec 32) (n : BitVec 8), s.err = .none → n.toNat ≤ 32 →
    (n = 0#8 → exec (.bwrite pat n) s = .next s) ∧
    (s.writerClean → s.noIoErrors →
      exec (.bwrite pat n) s = .next (s.accept (pat.toNat % 2 ^ n.toNat) n.toNat)) ∧
    (∀ (k : Nat) (rest : List Bool), s.writerClean → s.ioErrs = List.replicate k false ++ true :: rest →
      k < (s.bw.cur.toNat + n.toNat) / 8 →
      ∃ t, exec (.bwrite pat n) s = .next t ∧ t.err = .io ∧
        t.errinfo = 0x0500000000000000#64 ||| n.setWidth 64 <<< 48 ||| pat.setWidth 64 ∧
        t.out = (s.accept (pat.toNat % 2 ^ n.toNat) n.toNat).out.take (s.out.length + k) ∧
        t.olen = s.olen + BitVec.ofNat 64 k)

/-- `BitAppend` in closed form, for any pattern and up to 256 bits, and two calls in a row are one call with the bits of the
first followed by those of the second (R86). -/
def Obligations.BitAppendClosedForm : Prop :=
  (∀ (s : State) (pat : Pattern) (n : Nat), n ≤ 256 → s.writerClean → s.noIoErrors →
    bitAppend pat n s = .done (s.accept (pat.toNat % 2 ^ n) n) ∧
    s.bw.buf.toNat + pat.toNat % 2 ^ n * 2 ^ s.bw.cur.toNat < 2 ^ (s.bw.cur.toNat + n) ∧
    (s.accept (pat.toNat % 2 ^ n) n).writerClean) ∧
  (∀ (s : State) (p q : Pattern) (n m : Nat), n + m ≤ 256 →
    (bitAppend p n s).andThen (bitAppend q m) =
      bitAppend (BitVec.ofNat 256 (p.toNat % 2 ^ n + q.toNat % 2 ^ m * 2 ^ n)) (n + m) s)

/-- Bits accepted by an empty writer and then flushed: ceil(N / 8) bytes are pushed, bit m of the N bits is bit m mod 8 of
byte m / 8, every further bit is 0, and the writer is empty again (R87, R90 (b), (c)). -/
def Obligations.FlushedBitsArePacked : Prop :=
  ∀ (s : State) (bits : List Bool), s.bw = { buf := 0#8, cur := 0#3 } → s.noIoErrors →
    ∃ bytes : List Byte, bytes.length = (bits.length + 7) / 8 ∧
      (∀ (m : Nat) (b : Byte), bytes[m / 8]? = some b → b.getLsbD (m % 8) = bits.getD m false) ∧
      (pushBits bits s).andThen bitFlush = .done { s with
        out := s.out ++ bytes
        olen := s.olen + BitVec.ofNat 64 bytes.length
        ioErrs := s.ioErrs.drop bytes.length }

/-- `BCLOSE` is the word 0x0600000000000000: with `BWCUR` = 0 nothing happens; otherwise the partial byte is pushed and the
writer is empty; if the push draws an error, `IO` is raised and nothing is pushed (R87, R89). -/
def Obligations.BcloseFlushesOnce : Prop :=
  encode .bclose = 0x0600000000000000#64 ∧
  ∀ s : State, s.err = .none →
    (s.bw.cur = 0#3 → exec .bclose s = .next s) ∧
    (s.bw.cur ≠ 0#3 → s.ioErrs.headD false = false →
      exec .bclose s = .next { s with
        out := s.out ++ [s.bw.buf]
        olen := s.olen + 1#64
        ioErrs := s.ioErrs.tail
        bw := { buf := 0#8, cur := 0#3 } }) ∧
    (s.bw.cur ≠ 0#3 → s.ioErrs.headD false = true →
      ∃ t, exec .bclose s = .next t ∧ t.err = .io ∧ t.errinfo = 0x0600000000000000#64 ∧ t.out = s.out ∧ t.olen = s.olen)

/-! ### HDR and TSER -/

/-- `HDR` is the word 0x0700000000000000: with bits pending it raises `ORDER` and nothing else changes; otherwise it pushes
`MAGIC[0]` to `MAGIC[7]`; if push number k draws the first error, `IO` is raised with the first k bytes in `OUT` (R95). -/
def Obligations.HdrWritesTheMagic : Prop :=
  encode .hdr = 0x0700000000000000#64 ∧
  ∀ s : State, s.err = .none →
    let magic : List Byte := [Config.magic 0, Config.magic 1, Config.magic 2, Config.magic 3, Config.magic 4, Config.magic 5,
      Config.magic 6, Config.magic 7]
    (s.bw.cur ≠ 0#3 → exec .hdr s = .next { s with err := .order, errinfo := 0x0700000000000000#64 }) ∧
    (s.bw.cur = 0#3 → s.noIoErrors →
      exec .hdr s = .next { s with out := s.out ++ magic, olen := s.olen + 8#64, ioErrs := s.ioErrs.drop 8 }) ∧
    (∀ (k : Nat) (rest : List Bool), s.bw.cur = 0#3 → s.ioErrs = List.replicate k false ++ true :: rest → k < 8 →
      ∃ t, exec .hdr s = .next t ∧ t.err = .io ∧ t.errinfo = 0x0700000000000000#64 ∧ t.out = s.out ++ magic.take k ∧
        t.olen = s.olen + BitVec.ofNat 64 k)

/-- `TSER` with a valid tree and an empty writer: the records of the nodes in preorder, each least significant byte first, and
eight zero bytes go to `OUT`, nothing else changes; if push number k draws the first error, `IO` is raised with the first k
of these bytes in `OUT` (R40, R93, R94, R96, R108). -/
def Obligations.TserWritesRecordsInPreorder : Prop :=
  ∀ s : State, s.err = .none → s.tvalid = true → s.bw.cur = 0#3 → s.tree.sound = true →
    (s.noIoErrors → exec .tser s = .next { s with
      out := s.out ++ treeBytes s.tree
      olen := s.olen + BitVec.ofNat 64 (treeBytes s.tree).length
      ioErrs := s.ioErrs.drop (treeBytes s.tree).length }) ∧
    (∀ (k : Nat) (rest : List Bool), s.ioErrs = List.replicate k false ++ true :: rest → k < (treeBytes s.tree).length →
      ∃ t, exec .tser s = .next t ∧ t.err = .io ∧ t.errinfo = 0x0800000000000000#64 ∧
        t.out = s.out ++ (treeBytes s.tree).take k ∧ t.olen = s.olen + BitVec.ofNat 64 k)

/-! ### EMIT and PAYLOAD -/

/-- `EMIT sym` with a valid table: the code of the symbol goes to the bit writer; when push number k draws the first error,
`IO` is raised with the k bytes before it in `OUT`, the cursor and the flags as before; a symbol without an entry raises
`NOCODE` with the word and changes nothing else (R98, R108). -/
def Obligations.EmitSendsOneCode : Prop :=
  ∀ (s : State) (y : Byte), s.err = .none → s.cvalid = true →
    ((codeAt s.code y).valid = true → s.writerClean → s.noIoErrors →
      exec (.emit y) s = .next
        (s.accept ((codeAt s.code y).pat.toNat % 2 ^ (codeAt s.code y).len.toNat) (codeAt s.code y).len.toNat)) ∧
    (∀ (k : Nat) (rest : List Bool), (codeAt s.code y).valid = true → s.writerClean →
      s.ioErrs = List.replicate k false ++ true :: rest → k < (s.bw.cur.toNat + (codeAt s.code y).len.toNat) / 8 →
      ∃ t, exec (.emit y) s = .next t ∧ t.err = .io ∧ t.errinfo = 0x0900000000000000#64 ||| y.setWidth 64 <<< 48 ∧
        t.out = (s.accept ((codeAt s.code y).pat.toNat % 2 ^ (codeAt s.code y).len.toNat)
          (codeAt s.code y).len.toNat).out.take (s.out.length + k) ∧
        t.olen = s.olen + BitVec.ofNat 64 k ∧ t.icur = s.icur ∧ t.tvalid = s.tvalid ∧ t.cvalid = s.cvalid) ∧
    ((codeAt s.code y).valid = false →
      exec (.emit y) s = .next { s with err := .noCode, errinfo := 0x0900000000000000#64 ||| y.setWidth 64 <<< 48 })

/-- `PAYLOAD` with a code for every byte from the cursor to the end: the codes of these bytes, in order and without padding,
go to the bit writer, the cursor goes to the end, nothing else changes (R99); one answer of the environment goes with each
read and each push. -/
def Obligations.PayloadSendsAllCodes : Prop :=
  ∀ s : State, s.err = .none → s.cvalid = true → s.input.length < 2 ^ 64 → s.icur.toNat ≤ s.input.length →
    s.writerClean → s.noIoErrors → allCoded s.code s.remaining →
    exec .payload s = .next { s.acceptBits (codeString s.code s.remaining) with
      icur := BitVec.ofNat 64 s.input.length
      ioErrs := s.ioErrs.drop
        (s.remaining.length + (s.bw.cur.toNat + (codeString s.code s.remaining).length) / 8) }

/-- `PAYLOAD` at the first byte without a code: `NOCODE` with the word, the cursor one past that byte, the whole bytes of the
codes before it in `OUT`, flags, table and tree as before (R99, R108). -/
def Obligations.PayloadStopsAtByteWithoutCode : Prop :=
  ∀ (s : State) (pre post : List Byte) (b : Byte), s.err = .none → s.cvalid = true → s.input.length < 2 ^ 64 →
    s.icur.toNat ≤ s.input.length → s.writerClean → s.noIoErrors → s.remaining = pre ++ b :: post →
    allCoded s.code pre → (codeAt s.code b).valid = false →
    ∃ t, exec .payload s = .next t ∧ t.err = .noCode ∧ t.errinfo = 0x0A00000000000000#64 ∧
      t.icur.toNat = s.icur.toNat + pre.length + 1 ∧ t.out = (s.acceptBits (codeString s.code pre)).out ∧
      t.olen = (s.acceptBits (codeString s.code pre)).olen ∧ t.tvalid = s.tvalid ∧ t.cvalid = s.cvalid ∧
      t.code = s.code ∧ t.tree = s.tree ∧ t.freq = s.freq

/-- `PAYLOAD` when an access of `IN` or `OUT` draws the first error, at the byte b that follows `pre`: `IO` with the word, flags,
table and tree as before. If it is the read of b, the cursor is the index of b and the whole bytes of the codes of `pre` are
in `OUT`; if it is push number j of those that b's code completes, the cursor is one past b and j further bytes are in `OUT`
(R39, R99, R108). -/
def Obligations.PayloadStopsAtStreamError : Prop :=
  ∀ (s : State) (pre post : List Byte) (b : Byte) (rest : List Bool), s.err = .none → s.cvalid = true →
    s.input.length < 2 ^ 64 → s.icur.toNat ≤ s.input.length → s.writerClean → s.remaining = pre ++ b :: post →
    allCoded s.code pre →
    let before := (s.bw.cur.toNat + (codeString s.code pre).length) / 8
    let after := (s.bw.cur.toNat + (codeString s.code (pre ++ [b])).length) / 8
    (s.ioErrs = List.replicate (pre.length + before) false ++ true :: rest →
      ∃ t, exec .payload s = .next t ∧ t.err = .io ∧ t.errinfo = 0x0A00000000000000#64 ∧
        t.icur.toNat = s.icur.toNat + pre.length ∧ t.out = (s.acceptBits (codeString s.code pre)).out ∧
        t.olen = s.olen + BitVec.ofNat 64 before ∧ t.tvalid = s.tvalid ∧ t.cvalid = s.cvalid ∧ t.code = s.code ∧
        t.tree = s.tree ∧ t.freq = s.freq ∧ t.ioErrs = rest) ∧
    (∀ j, (codeAt s.code b).valid = true → before + j < after →
      s.ioErrs = List.replicate (pre.length + 1 + before + j) false ++ true :: rest →
      ∃ t, exec .payload s = .next t ∧ t.err = .io ∧ t.errinfo = 0x0A00000000000000#64 ∧
        t.icur.toNat = s.icur.toNat + pre.length + 1 ∧
        t.out = (s.acceptBits (codeString s.code (pre ++ [b]))).out.take (s.out.length + before + j) ∧
        t.olen = s.olen + BitVec.ofNat 64 (before + j) ∧ t.tvalid = s.tvalid ∧ t.cvalid = s.cvalid ∧
        t.code = s.code ∧ t.tree = s.tree ∧ t.freq = s.freq ∧ t.ioErrs = rest)

/-! ### ENCODE -/

/-- `ENCODE` from an empty writer leaves the state of the nine commands issued one after another: the same state where they
end without a fault, and the same but for the recorded word where one of them faults and the core refuses those after it
(R100, R108, R110). -/
def Obligations.EncodeIsNineCommands : Prop :=
  ∀ s : State, s.err = .none → s.bw.cur = 0#3 →
    ∃ t, execAll encodeSteps s = .next t ∧
      exec .encode s = .next (if t.err = .none then t else { t with errinfo := 0x0B00000000000000#64 })

/-- `ENCODE` without an error and with at most `CNTMAX` bytes of input, wherever the cursor stood: no fault; the cursor at the
end, the counts of the input, the tree of these counts and its codes, both flags set, the writer empty, and `OUT` longer by
one file: magic, records, footer, packed codes of the input (R92, R100). -/
def Obligations.EncodeWritesOneFile : Prop :=
  ∀ s : State, s.err = .none → s.bw = { buf := 0#8, cur := 0#3 } → s.noIoErrors → s.input.length ≤ Config.cntMax →
    ∃ t, exec .encode s = .next t ∧ t.err = .none ∧ t.errinfo = s.errinfo ∧
      t.icur = BitVec.ofNat 64 s.input.length ∧ t.freq = countTable s.input ∧ t.tvalid = true ∧ t.cvalid = true ∧
      t.flagsTruthful ∧ t.bw = { buf := 0#8, cur := 0#3 } ∧ t.input = s.input ∧
      t.out = s.out ++ fileBytes t.tree (codeString t.code s.input) ∧
      t.olen = s.olen + BitVec.ofNat 64 (fileBytes t.tree (codeString t.code s.input)).length

/-- `ENCODE` of the empty input: an all-zero table, no tree, an all-absent code table, and the magic and eight zero bytes in
`OUT`; no fault (R102). -/
def Obligations.EncodeOfEmptyInput : Prop :=
  ∀ s : State, s.err = .none → s.bw = { buf := 0#8, cur := 0#3 } → s.noIoErrors → s.input = [] →
    ∃ t, exec .encode s = .next t ∧ t.err = .none ∧ (∀ y, freqAt t.freq y = 0#55) ∧ t.tree.root = 0x1FF#9 ∧
      t.tree.nnode = 0#9 ∧ t.tvalid = true ∧ (∀ y, (codeAt t.code y).valid = false) ∧ t.cvalid = true ∧
      t.bw = { buf := 0#8, cur := 0#3 } ∧ t.out = s.out ++ magicBytes ++ List.replicate 8 0#8

/-- The round trip: if `ENCODE` into an empty `OUT` ends without a fault, the decoder of R101 reads the input back. -/
def Obligations.EncodeRoundTrip : Prop :=
  ∀ s t : State, s.err = .none → s.bw = { buf := 0#8, cur := 0#3 } → s.out = [] → s.input.length < 2 ^ 64 →
    exec .encode s = .next t → t.err = .none → decodeFile t.out = some s.input

/-- The bytes `ENCODE` writes depend on `IN` (and `MAGIC`) alone: not on the cursor, the tables, the flags or the environment's
answers, as long as it ends without a fault (R103 (a)). -/
def Obligations.EncodeOutputDependsOnInputAlone : Prop :=
  ∀ s u s' u' : State, s.err = .none → u.err = .none → s.bw = { buf := 0#8, cur := 0#3 } →
    u.bw = { buf := 0#8, cur := 0#3 } → s.input = u.input → s.input.length < 2 ^ 64 → exec .encode s = .next s' →
    exec .encode u = .next u' → s'.err = .none → u'.err = .none →
    ∃ file : List Byte, s'.out = s.out ++ file ∧ u'.out = u.out ++ file

/-- With the tree and the codes that `TBUILD` and `CGEN` make of a table, no other prefix code with non-empty codes has a
smaller sum of length times frequency (R75). -/
def Obligations.HuffmanOptimality : Prop :=
  ∀ s t : State, s.err = .none → execAll [.tbuild, .cgen] s = .next t → t.err = .none →
    ∀ code : Byte → List Bool, prefixFree (sortedSymbols s.freq) code → (∀ y ∈ sortedSymbols s.freq, code y ≠ []) →
      codeCost s.freq (sortedSymbols s.freq) (fun y => (codeAt t.code y).len.toNat) ≤
        codeCost s.freq (sortedSymbols s.freq) fun y => (code y).length

/-! ### Invariants that every step keeps -/

/-- Every step keeps what holds between the host's accesses: the form of the streams, `CVALID` only with `TVALID`, and,
without a fault, a clean writer and the cursor at an end of the input (R15, R16, R23, R24, R61). -/
def Obligations.StepKeepsSafe : Prop := ∀ s t : State, s.Safe → step s = .next t → t.Safe

/-- Every step keeps the flags truthful: `TVALID` = 1 only with the tree that `TBUILD` makes of `FREQ` as it stands, `CVALID` =
1 only with the codes of that tree (R21, R23, R121). -/
def Obligations.StepKeepsFlagsTruthful : Prop := ∀ s t : State, s.flagsTruthful → step s = .next t → t.flagsTruthful

/-! ### The whole machine -/

/-- But for a reset, no step changes or removes a byte of `OUT`, and none writes `IN` (R11, R38). -/
def Obligations.OutOnlyGrowsAndInStays : Prop :=
  ∀ s t : State, step s = .next t → (∀ input rest, s.pending ≠ .reset input :: rest) →
    (∃ bytes, t.out = s.out ++ bytes) ∧ t.input = s.input

/-- A command that raises a fault raises one its row of R106 allows, and records its own command word. -/
def Obligations.FaultsRecordTheCommandWord : Prop :=
  ∀ (i : Instr) (s t : State), s.err = .none → i.wellFormed = true → s.input.length < 2 ^ 64 → exec i s = .next t →
    t.err ≠ .none → t.err ∈ mayRaise i ∧ t.errinfo = encode i

/-- `SEQ`, `ORDER` and `NOCODE` from `EMIT` are precise: the state is the one before the command with only `ERR` and `ERRINFO`
changed (R108). -/
def Obligations.PreciseFaultsChangeNothing : Prop :=
  ∀ (i : Instr) (s t : State), s.err = .none → exec i s = .next t →
    (t.err = .ill ∨ t.err = .seq ∨ t.err = .order ∨ (t.err = .noCode ∧ ∃ y, i = .emit y)) →
    t = { s with err := t.err, errinfo := t.errinfo }

/-! ### Frames, faults included -/

/-- `COUNT` and `REWIND` leave the tree, the codes, `OUT`, `OLEN`, `IN` and the host's queues; without a fault the writer and
the fault registers; `REWIND` also the table, the flags and the environment's answers. Both store nothing: every byte of
`OUT` reads as before. -/
def Obligations.CounterFrame : Prop :=
  ∀ s t : State, exec .count s = .next t ∨ exec .rewind s = .next t →
    t.tree = s.tree ∧ t.code = s.code ∧ t.olen = s.olen ∧ t.input = s.input ∧ t.pending = s.pending ∧
      t.replies = s.replies ∧ (∀ a, outAt t a = outAt s a) ∧
      (t.err = .none → t.bw = s.bw ∧ t.errinfo = s.errinfo ∧ t.free = s.free) ∧
      (exec .rewind s = .next t → t.freq = s.freq ∧ t.tvalid = s.tvalid ∧ t.cvalid = s.cvalid ∧ t.ioErrs = s.ioErrs ∧
        t.bw = s.bw ∧ t.err = s.err ∧ t.errinfo = s.errinfo)

/-- `TBUILD` and `CGEN` leave the cursor, the table, `OUT`, `OLEN`, `IN`, the environment's answers and the host's queues;
without a fault the writer and the fault registers; `TBUILD` also the code table's entries, `CGEN` the tree and `TVALID`.
Both store nothing: every byte of `OUT` reads as before. -/
def Obligations.BuilderFrame : Prop :=
  ∀ s t : State, exec .tbuild s = .next t ∨ exec .cgen s = .next t →
    t.icur = s.icur ∧ t.freq = s.freq ∧ t.olen = s.olen ∧ t.input = s.input ∧ t.ioErrs = s.ioErrs ∧
      t.pending = s.pending ∧ t.replies = s.replies ∧ (∀ a, outAt t a = outAt s a) ∧
      (t.err = .none → t.bw = s.bw ∧ t.errinfo = s.errinfo ∧ t.free = s.free) ∧
      (exec .tbuild s = .next t → t.code = s.code) ∧
      (exec .cgen s = .next t → t.tree = s.tree ∧ t.tvalid = s.tvalid)

/-- `BWRITE`, `BCLOSE` and `EMIT` leave the cursor, the table, the tree, the codes, the flags, `IN` and the host's queues,
without a fault the fault registers; the bytes they store to are the (BWCUR + n) / 8 from |OUT| on (one for `BCLOSE` with
bits pending), and every other byte of `OUT` reads as before. -/
def Obligations.WriterFrame : Prop :=
  ∀ (i : Instr) (s t : State) (stored : Nat), exec i s = .next t →
    ((∃ pat n, i = .bwrite pat n ∧ stored = (s.bw.cur.toNat + n.toNat) / 8) ∨
      (i = .bclose ∧ stored = if s.bw.cur = 0#3 then 0 else 1) ∨
      ∃ y, i = .emit y ∧ stored = (s.bw.cur.toNat + (codeAt s.code y).len.toNat) / 8) →
    t.icur = s.icur ∧ t.freq = s.freq ∧ t.tree = s.tree ∧ t.tvalid = s.tvalid ∧ t.code = s.code ∧ t.cvalid = s.cvalid ∧
      t.input = s.input ∧ t.pending = s.pending ∧ t.replies = s.replies ∧
      (t.err = .none → t.errinfo = s.errinfo ∧ t.free = s.free) ∧
      ∀ a, a < s.out.length ∨ s.out.length + stored ≤ a → outAt t a = outAt s a

/-- `HDR` and `TSER` leave the cursor, the table, the tree, the codes, the flags, `IN` and the host's queues, without a fault
the writer and the fault registers; they store from |OUT| on, `HDR` eight bytes and `TSER` those of the serialized tree
where the node memory holds a tree, and every other byte of `OUT` reads as before. -/
def Obligations.HeaderAndTreeFrame : Prop :=
  ∀ (i : Instr) (s t : State), exec i s = .next t → (i = .hdr ∨ i = .tser) →
    t.icur = s.icur ∧ t.freq = s.freq ∧ t.tree = s.tree ∧ t.tvalid = s.tvalid ∧ t.code = s.code ∧ t.cvalid = s.cvalid ∧
      t.input = s.input ∧ t.pending = s.pending ∧ t.replies = s.replies ∧
      (t.err = .none → t.bw = s.bw ∧ t.errinfo = s.errinfo ∧ t.free = s.free) ∧
      (∀ a, a < s.out.length → outAt t a = outAt s a) ∧
      (i = .hdr → ∀ a, s.out.length + 8 ≤ a → outAt t a = outAt s a) ∧
      (i = .tser → s.tree.sound = true → ∀ a, s.out.length + (treeBytes s.tree).length ≤ a → outAt t a = outAt s a)

/-- `PAYLOAD` leaves the table, the tree, the codes, the flags, `IN` and the host's queues, without a fault the fault registers;
the bytes it stores to are the (BWCUR + N) / 8 from |OUT| on, N the bits of the codes of the bytes from the cursor to the
end. `ENCODE` leaves `IN` and the host's queues, and every byte of `OUT` below |OUT| reads as before. -/
def Obligations.PayloadAndEncodeFrame : Prop :=
  (∀ s t : State, exec .payload s = .next t → s.input.length < 2 ^ 64 →
    t.freq = s.freq ∧ t.tree = s.tree ∧ t.tvalid = s.tvalid ∧ t.code = s.code ∧ t.cvalid = s.cvalid ∧
      t.input = s.input ∧ t.pending = s.pending ∧ t.replies = s.replies ∧
      (t.err = .none → t.errinfo = s.errinfo ∧ t.free = s.free) ∧
      ∀ a, a < s.out.length ∨
          s.out.length + (s.bw.cur.toNat + (codeString s.code s.remaining).length) / 8 ≤ a →
        outAt t a = outAt s a) ∧
  (∀ s t : State, exec .encode s = .next t →
    t.input = s.input ∧ t.pending = s.pending ∧ t.replies = s.replies ∧
      (t.err = .none → t.errinfo = s.errinfo ∧ t.free = s.free) ∧
      ∀ a, a < s.out.length → outAt t a = outAt s a)
end

