-- ==== Sys2Proof/Laws/Encoding.lean ====
section
/-! SUPPORT. The fields of a word that is put together from its fields (spec/30_encoding.md R49). -/

namespace Sys2Proof

theorem cmdWord_getLsbD (op a : BitVec 8) (pat : BitVec 32) (i : Nat) :
    (cmdWord op a pat).getLsbD i =
      if i < 32 then pat.getLsbD i else if i < 48 then false else if i < 56 then a.getLsbD (i - 48)
      else op.getLsbD (i - 56) := by
  unfold cmdWord
  rw [BitVec.getLsbD_append, BitVec.getLsbD_append, BitVec.getLsbD_append]
  simp only [BitVec.getLsbD_zero]
  split_ifs <;> first | rfl | omega

@[simp] theorem cmdOp_cmdWord (op a : BitVec 8) (pat : BitVec 32) : cmdOp (cmdWord op a pat) = op := by
  refine BitVec.eq_of_getLsbD_eq fun i hi => ?_
  rw [cmdOp, BitVec.getLsbD_extractLsb', cmdWord_getLsbD]
  simp [hi, show ¬ 56 + i < 32 by omega, show ¬ 56 + i < 48 by omega]

@[simp] theorem cmdA_cmdWord (op a : BitVec 8) (pat : BitVec 32) : cmdA (cmdWord op a pat) = a := by
  refine BitVec.eq_of_getLsbD_eq fun i hi => ?_
  rw [cmdA, BitVec.getLsbD_extractLsb', cmdWord_getLsbD]
  simp [hi, show 48 + i < 56 by omega, show ¬ 48 + i < 32 by omega]

@[simp] theorem cmdRsv_cmdWord (op a : BitVec 8) (pat : BitVec 32) : cmdRsv (cmdWord op a pat) = 0#16 := by
  refine BitVec.eq_of_getLsbD_eq fun i hi => ?_
  rw [cmdRsv, BitVec.getLsbD_extractLsb', cmdWord_getLsbD]
  simp [show 32 + i < 48 by omega]

@[simp] theorem cmdPat_cmdWord (op a : BitVec 8) (pat : BitVec 32) : cmdPat (cmdWord op a pat) = pat := by
  refine BitVec.eq_of_getLsbD_eq fun i hi => ?_
  rw [cmdPat, BitVec.getLsbD_extractLsb', cmdWord_getLsbD]
  simp [hi]

end Sys2Proof
end

