-- ==== Sys2Proof/Laws/State.lean ====
section
/-! SUPPORT. What each update of State does to each field: one lemma per field per update, true by rfl. -/

namespace Sys2Proof.Machine

/-! ### clearValid -/

@[simp] theorem State.clearValid_icur (s : State) : s.clearValid.icur = s.icur := rfl
@[simp] theorem State.clearValid_olen (s : State) : s.clearValid.olen = s.olen := rfl
@[simp] theorem State.clearValid_freq (s : State) : s.clearValid.freq = s.freq := rfl
@[simp] theorem State.clearValid_tree (s : State) : s.clearValid.tree = s.tree := rfl
@[simp] theorem State.clearValid_tvalid (s : State) : s.clearValid.tvalid = false := rfl
@[simp] theorem State.clearValid_code (s : State) : s.clearValid.code = s.code := rfl
@[simp] theorem State.clearValid_cvalid (s : State) : s.clearValid.cvalid = false := rfl
@[simp] theorem State.clearValid_bw (s : State) : s.clearValid.bw = s.bw := rfl
@[simp] theorem State.clearValid_err (s : State) : s.clearValid.err = s.err := rfl
@[simp] theorem State.clearValid_errinfo (s : State) : s.clearValid.errinfo = s.errinfo := rfl
@[simp] theorem State.clearValid_input (s : State) : s.clearValid.input = s.input := rfl
@[simp] theorem State.clearValid_out (s : State) : s.clearValid.out = s.out := rfl
@[simp] theorem State.clearValid_ioErrs (s : State) : s.clearValid.ioErrs = s.ioErrs := rfl
@[simp] theorem State.clearValid_pending (s : State) : s.clearValid.pending = s.pending := rfl
@[simp] theorem State.clearValid_replies (s : State) : s.clearValid.replies = s.replies := rfl
@[simp] theorem State.clearValid_free (s : State) : s.clearValid.free = s.free := rfl

/-! ### setCvalid -/

@[simp] theorem State.setCvalid_icur (s : State) (b : Bool) : (s.setCvalid b).icur = s.icur := rfl
@[simp] theorem State.setCvalid_olen (s : State) (b : Bool) : (s.setCvalid b).olen = s.olen := rfl
@[simp] theorem State.setCvalid_freq (s : State) (b : Bool) : (s.setCvalid b).freq = s.freq := rfl
@[simp] theorem State.setCvalid_tree (s : State) (b : Bool) : (s.setCvalid b).tree = s.tree := rfl
@[simp] theorem State.setCvalid_tvalid (s : State) (b : Bool) : (s.setCvalid b).tvalid = s.tvalid := rfl
@[simp] theorem State.setCvalid_code (s : State) (b : Bool) : (s.setCvalid b).code = s.code := rfl
@[simp] theorem State.setCvalid_cvalid (s : State) (b : Bool) : (s.setCvalid b).cvalid = b := rfl
@[simp] theorem State.setCvalid_bw (s : State) (b : Bool) : (s.setCvalid b).bw = s.bw := rfl
@[simp] theorem State.setCvalid_err (s : State) (b : Bool) : (s.setCvalid b).err = s.err := rfl
@[simp] theorem State.setCvalid_errinfo (s : State) (b : Bool) : (s.setCvalid b).errinfo = s.errinfo := rfl
@[simp] theorem State.setCvalid_input (s : State) (b : Bool) : (s.setCvalid b).input = s.input := rfl
@[simp] theorem State.setCvalid_out (s : State) (b : Bool) : (s.setCvalid b).out = s.out := rfl
@[simp] theorem State.setCvalid_ioErrs (s : State) (b : Bool) : (s.setCvalid b).ioErrs = s.ioErrs := rfl
@[simp] theorem State.setCvalid_pending (s : State) (b : Bool) : (s.setCvalid b).pending = s.pending := rfl
@[simp] theorem State.setCvalid_replies (s : State) (b : Bool) : (s.setCvalid b).replies = s.replies := rfl
@[simp] theorem State.setCvalid_free (s : State) (b : Bool) : (s.setCvalid b).free = s.free := rfl

/-! ### dropDraw -/

@[simp] theorem State.dropDraw_icur (s : State) : s.dropDraw.icur = s.icur := rfl
@[simp] theorem State.dropDraw_olen (s : State) : s.dropDraw.olen = s.olen := rfl
@[simp] theorem State.dropDraw_freq (s : State) : s.dropDraw.freq = s.freq := rfl
@[simp] theorem State.dropDraw_tree (s : State) : s.dropDraw.tree = s.tree := rfl
@[simp] theorem State.dropDraw_tvalid (s : State) : s.dropDraw.tvalid = s.tvalid := rfl
@[simp] theorem State.dropDraw_code (s : State) : s.dropDraw.code = s.code := rfl
@[simp] theorem State.dropDraw_cvalid (s : State) : s.dropDraw.cvalid = s.cvalid := rfl
@[simp] theorem State.dropDraw_bw (s : State) : s.dropDraw.bw = s.bw := rfl
@[simp] theorem State.dropDraw_err (s : State) : s.dropDraw.err = s.err := rfl
@[simp] theorem State.dropDraw_errinfo (s : State) : s.dropDraw.errinfo = s.errinfo := rfl
@[simp] theorem State.dropDraw_input (s : State) : s.dropDraw.input = s.input := rfl
@[simp] theorem State.dropDraw_out (s : State) : s.dropDraw.out = s.out := rfl
@[simp] theorem State.dropDraw_ioErrs (s : State) : s.dropDraw.ioErrs = s.ioErrs.tail := rfl
@[simp] theorem State.dropDraw_pending (s : State) : s.dropDraw.pending = s.pending := rfl
@[simp] theorem State.dropDraw_replies (s : State) : s.dropDraw.replies = s.replies := rfl
@[simp] theorem State.dropDraw_free (s : State) : s.dropDraw.free = s.free := rfl

/-! ### advanceInput -/

@[simp] theorem State.advanceInput_icur (s : State) : s.advanceInput.icur = s.icur + 1#64 := rfl
@[simp] theorem State.advanceInput_olen (s : State) : s.advanceInput.olen = s.olen := rfl
@[simp] theorem State.advanceInput_freq (s : State) : s.advanceInput.freq = s.freq := rfl
@[simp] theorem State.advanceInput_tree (s : State) : s.advanceInput.tree = s.tree := rfl
@[simp] theorem State.advanceInput_tvalid (s : State) : s.advanceInput.tvalid = s.tvalid := rfl
@[simp] theorem State.advanceInput_code (s : State) : s.advanceInput.code = s.code := rfl
@[simp] theorem State.advanceInput_cvalid (s : State) : s.advanceInput.cvalid = s.cvalid := rfl
@[simp] theorem State.advanceInput_bw (s : State) : s.advanceInput.bw = s.bw := rfl
@[simp] theorem State.advanceInput_err (s : State) : s.advanceInput.err = s.err := rfl
@[simp] theorem State.advanceInput_errinfo (s : State) : s.advanceInput.errinfo = s.errinfo := rfl
@[simp] theorem State.advanceInput_input (s : State) : s.advanceInput.input = s.input := rfl
@[simp] theorem State.advanceInput_out (s : State) : s.advanceInput.out = s.out := rfl
@[simp] theorem State.advanceInput_ioErrs (s : State) : s.advanceInput.ioErrs = s.ioErrs := rfl
@[simp] theorem State.advanceInput_pending (s : State) : s.advanceInput.pending = s.pending := rfl
@[simp] theorem State.advanceInput_replies (s : State) : s.advanceInput.replies = s.replies := rfl
@[simp] theorem State.advanceInput_free (s : State) : s.advanceInput.free = s.free := rfl

/-! ### rewindInput -/

@[simp] theorem State.rewindInput_icur (s : State) : s.rewindInput.icur = 0#64 := rfl
@[simp] theorem State.rewindInput_olen (s : State) : s.rewindInput.olen = s.olen := rfl
@[simp] theorem State.rewindInput_freq (s : State) : s.rewindInput.freq = s.freq := rfl
@[simp] theorem State.rewindInput_tree (s : State) : s.rewindInput.tree = s.tree := rfl
@[simp] theorem State.rewindInput_tvalid (s : State) : s.rewindInput.tvalid = s.tvalid := rfl
@[simp] theorem State.rewindInput_code (s : State) : s.rewindInput.code = s.code := rfl
@[simp] theorem State.rewindInput_cvalid (s : State) : s.rewindInput.cvalid = s.cvalid := rfl
@[simp] theorem State.rewindInput_bw (s : State) : s.rewindInput.bw = s.bw := rfl
@[simp] theorem State.rewindInput_err (s : State) : s.rewindInput.err = s.err := rfl
@[simp] theorem State.rewindInput_errinfo (s : State) : s.rewindInput.errinfo = s.errinfo := rfl
@[simp] theorem State.rewindInput_input (s : State) : s.rewindInput.input = s.input := rfl
@[simp] theorem State.rewindInput_out (s : State) : s.rewindInput.out = s.out := rfl
@[simp] theorem State.rewindInput_ioErrs (s : State) : s.rewindInput.ioErrs = s.ioErrs := rfl
@[simp] theorem State.rewindInput_pending (s : State) : s.rewindInput.pending = s.pending := rfl
@[simp] theorem State.rewindInput_replies (s : State) : s.rewindInput.replies = s.replies := rfl
@[simp] theorem State.rewindInput_free (s : State) : s.rewindInput.free = s.free := rfl

/-! ### pushByte -/

@[simp] theorem State.pushByte_icur (s : State) (b : Byte) : (s.pushByte b).icur = s.icur := rfl
@[simp] theorem State.pushByte_olen (s : State) (b : Byte) : (s.pushByte b).olen = s.olen + 1#64 := rfl
@[simp] theorem State.pushByte_freq (s : State) (b : Byte) : (s.pushByte b).freq = s.freq := rfl
@[simp] theorem State.pushByte_tree (s : State) (b : Byte) : (s.pushByte b).tree = s.tree := rfl
@[simp] theorem State.pushByte_tvalid (s : State) (b : Byte) : (s.pushByte b).tvalid = s.tvalid := rfl
@[simp] theorem State.pushByte_code (s : State) (b : Byte) : (s.pushByte b).code = s.code := rfl
@[simp] theorem State.pushByte_cvalid (s : State) (b : Byte) : (s.pushByte b).cvalid = s.cvalid := rfl
@[simp] theorem State.pushByte_bw (s : State) (b : Byte) : (s.pushByte b).bw = s.bw := rfl
@[simp] theorem State.pushByte_err (s : State) (b : Byte) : (s.pushByte b).err = s.err := rfl
@[simp] theorem State.pushByte_errinfo (s : State) (b : Byte) : (s.pushByte b).errinfo = s.errinfo := rfl
@[simp] theorem State.pushByte_input (s : State) (b : Byte) : (s.pushByte b).input = s.input := rfl
@[simp] theorem State.pushByte_out (s : State) (b : Byte) : (s.pushByte b).out = s.out ++ [b] := rfl
@[simp] theorem State.pushByte_ioErrs (s : State) (b : Byte) : (s.pushByte b).ioErrs = s.ioErrs := rfl
@[simp] theorem State.pushByte_pending (s : State) (b : Byte) : (s.pushByte b).pending = s.pending := rfl
@[simp] theorem State.pushByte_replies (s : State) (b : Byte) : (s.pushByte b).replies = s.replies := rfl
@[simp] theorem State.pushByte_free (s : State) (b : Byte) : (s.pushByte b).free = s.free := rfl

/-! ### setFreq -/

@[simp] theorem State.setFreq_icur (s : State) (y : Byte) (c : Count) : (s.setFreq y c).icur = s.icur := rfl
@[simp] theorem State.setFreq_olen (s : State) (y : Byte) (c : Count) : (s.setFreq y c).olen = s.olen := rfl
@[simp] theorem State.setFreq_freq (s : State) (y : Byte) (c : Count) :
    (s.setFreq y c).freq = s.freq.set y.toNat c y.isLt := rfl
@[simp] theorem State.setFreq_tree (s : State) (y : Byte) (c : Count) : (s.setFreq y c).tree = s.tree := rfl
@[simp] theorem State.setFreq_tvalid (s : State) (y : Byte) (c : Count) : (s.setFreq y c).tvalid = s.tvalid := rfl
@[simp] theorem State.setFreq_code (s : State) (y : Byte) (c : Count) : (s.setFreq y c).code = s.code := rfl
@[simp] theorem State.setFreq_cvalid (s : State) (y : Byte) (c : Count) : (s.setFreq y c).cvalid = s.cvalid := rfl
@[simp] theorem State.setFreq_bw (s : State) (y : Byte) (c : Count) : (s.setFreq y c).bw = s.bw := rfl
@[simp] theorem State.setFreq_err (s : State) (y : Byte) (c : Count) : (s.setFreq y c).err = s.err := rfl
@[simp] theorem State.setFreq_errinfo (s : State) (y : Byte) (c : Count) : (s.setFreq y c).errinfo = s.errinfo := rfl
@[simp] theorem State.setFreq_input (s : State) (y : Byte) (c : Count) : (s.setFreq y c).input = s.input := rfl
@[simp] theorem State.setFreq_out (s : State) (y : Byte) (c : Count) : (s.setFreq y c).out = s.out := rfl
@[simp] theorem State.setFreq_ioErrs (s : State) (y : Byte) (c : Count) : (s.setFreq y c).ioErrs = s.ioErrs := rfl
@[simp] theorem State.setFreq_pending (s : State) (y : Byte) (c : Count) : (s.setFreq y c).pending = s.pending := rfl
@[simp] theorem State.setFreq_replies (s : State) (y : Byte) (c : Count) : (s.setFreq y c).replies = s.replies := rfl
@[simp] theorem State.setFreq_free (s : State) (y : Byte) (c : Count) : (s.setFreq y c).free = s.free := rfl

/-! ### clearFreq -/

@[simp] theorem State.clearFreq_icur (s : State) : s.clearFreq.icur = s.icur := rfl
@[simp] theorem State.clearFreq_olen (s : State) : s.clearFreq.olen = s.olen := rfl
@[simp] theorem State.clearFreq_freq (s : State) : s.clearFreq.freq = Vector.replicate 256 0#55 := rfl
@[simp] theorem State.clearFreq_tree (s : State) : s.clearFreq.tree = s.tree := rfl
@[simp] theorem State.clearFreq_tvalid (s : State) : s.clearFreq.tvalid = s.tvalid := rfl
@[simp] theorem State.clearFreq_code (s : State) : s.clearFreq.code = s.code := rfl
@[simp] theorem State.clearFreq_cvalid (s : State) : s.clearFreq.cvalid = s.cvalid := rfl
@[simp] theorem State.clearFreq_bw (s : State) : s.clearFreq.bw = s.bw := rfl
@[simp] theorem State.clearFreq_err (s : State) : s.clearFreq.err = s.err := rfl
@[simp] theorem State.clearFreq_errinfo (s : State) : s.clearFreq.errinfo = s.errinfo := rfl
@[simp] theorem State.clearFreq_input (s : State) : s.clearFreq.input = s.input := rfl
@[simp] theorem State.clearFreq_out (s : State) : s.clearFreq.out = s.out := rfl
@[simp] theorem State.clearFreq_ioErrs (s : State) : s.clearFreq.ioErrs = s.ioErrs := rfl
@[simp] theorem State.clearFreq_pending (s : State) : s.clearFreq.pending = s.pending := rfl
@[simp] theorem State.clearFreq_replies (s : State) : s.clearFreq.replies = s.replies := rfl
@[simp] theorem State.clearFreq_free (s : State) : s.clearFreq.free = s.free := rfl

/-! ### setTree -/

@[simp] theorem State.setTree_icur (s : State) (t : TreeMem) : (s.setTree t).icur = s.icur := rfl
@[simp] theorem State.setTree_olen (s : State) (t : TreeMem) : (s.setTree t).olen = s.olen := rfl
@[simp] theorem State.setTree_freq (s : State) (t : TreeMem) : (s.setTree t).freq = s.freq := rfl
@[simp] theorem State.setTree_tree (s : State) (t : TreeMem) : (s.setTree t).tree = t := rfl
@[simp] theorem State.setTree_tvalid (s : State) (t : TreeMem) : (s.setTree t).tvalid = s.tvalid := rfl
@[simp] theorem State.setTree_code (s : State) (t : TreeMem) : (s.setTree t).code = s.code := rfl
@[simp] theorem State.setTree_cvalid (s : State) (t : TreeMem) : (s.setTree t).cvalid = s.cvalid := rfl
@[simp] theorem State.setTree_bw (s : State) (t : TreeMem) : (s.setTree t).bw = s.bw := rfl
@[simp] theorem State.setTree_err (s : State) (t : TreeMem) : (s.setTree t).err = s.err := rfl
@[simp] theorem State.setTree_errinfo (s : State) (t : TreeMem) : (s.setTree t).errinfo = s.errinfo := rfl
@[simp] theorem State.setTree_input (s : State) (t : TreeMem) : (s.setTree t).input = s.input := rfl
@[simp] theorem State.setTree_out (s : State) (t : TreeMem) : (s.setTree t).out = s.out := rfl
@[simp] theorem State.setTree_ioErrs (s : State) (t : TreeMem) : (s.setTree t).ioErrs = s.ioErrs := rfl
@[simp] theorem State.setTree_pending (s : State) (t : TreeMem) : (s.setTree t).pending = s.pending := rfl
@[simp] theorem State.setTree_replies (s : State) (t : TreeMem) : (s.setTree t).replies = s.replies := rfl
@[simp] theorem State.setTree_free (s : State) (t : TreeMem) : (s.setTree t).free = s.free := rfl

/-! ### markTree -/

@[simp] theorem State.markTree_icur (s : State) : s.markTree.icur = s.icur := rfl
@[simp] theorem State.markTree_olen (s : State) : s.markTree.olen = s.olen := rfl
@[simp] theorem State.markTree_freq (s : State) : s.markTree.freq = s.freq := rfl
@[simp] theorem State.markTree_tree (s : State) : s.markTree.tree = s.tree := rfl
@[simp] theorem State.markTree_tvalid (s : State) : s.markTree.tvalid = true := rfl
@[simp] theorem State.markTree_code (s : State) : s.markTree.code = s.code := rfl
@[simp] theorem State.markTree_cvalid (s : State) : s.markTree.cvalid = s.cvalid := rfl
@[simp] theorem State.markTree_bw (s : State) : s.markTree.bw = s.bw := rfl
@[simp] theorem State.markTree_err (s : State) : s.markTree.err = s.err := rfl
@[simp] theorem State.markTree_errinfo (s : State) : s.markTree.errinfo = s.errinfo := rfl
@[simp] theorem State.markTree_input (s : State) : s.markTree.input = s.input := rfl
@[simp] theorem State.markTree_out (s : State) : s.markTree.out = s.out := rfl
@[simp] theorem State.markTree_ioErrs (s : State) : s.markTree.ioErrs = s.ioErrs := rfl
@[simp] theorem State.markTree_pending (s : State) : s.markTree.pending = s.pending := rfl
@[simp] theorem State.markTree_replies (s : State) : s.markTree.replies = s.replies := rfl
@[simp] theorem State.markTree_free (s : State) : s.markTree.free = s.free := rfl

/-! ### setCode -/

@[simp] theorem State.setCode_icur (s : State) (y : Byte) (c : CodeEntry) : (s.setCode y c).icur = s.icur := rfl
@[simp] theorem State.setCode_olen (s : State) (y : Byte) (c : CodeEntry) : (s.setCode y c).olen = s.olen := rfl
@[simp] theorem State.setCode_freq (s : State) (y : Byte) (c : CodeEntry) : (s.setCode y c).freq = s.freq := rfl
@[simp] theorem State.setCode_tree (s : State) (y : Byte) (c : CodeEntry) : (s.setCode y c).tree = s.tree := rfl
@[simp] theorem State.setCode_tvalid (s : State) (y : Byte) (c : CodeEntry) : (s.setCode y c).tvalid = s.tvalid := rfl
@[simp] theorem State.setCode_code (s : State) (y : Byte) (c : CodeEntry) :
    (s.setCode y c).code = s.code.set y.toNat c y.isLt := rfl
@[simp] theorem State.setCode_cvalid (s : State) (y : Byte) (c : CodeEntry) : (s.setCode y c).cvalid = s.cvalid := rfl
@[simp] theorem State.setCode_bw (s : State) (y : Byte) (c : CodeEntry) : (s.setCode y c).bw = s.bw := rfl
@[simp] theorem State.setCode_err (s : State) (y : Byte) (c : CodeEntry) : (s.setCode y c).err = s.err := rfl
@[simp] theorem State.setCode_errinfo (s : State) (y : Byte) (c : CodeEntry) :
    (s.setCode y c).errinfo = s.errinfo := rfl
@[simp] theorem State.setCode_input (s : State) (y : Byte) (c : CodeEntry) : (s.setCode y c).input = s.input := rfl
@[simp] theorem State.setCode_out (s : State) (y : Byte) (c : CodeEntry) : (s.setCode y c).out = s.out := rfl
@[simp] theorem State.setCode_ioErrs (s : State) (y : Byte) (c : CodeEntry) : (s.setCode y c).ioErrs = s.ioErrs := rfl
@[simp] theorem State.setCode_pending (s : State) (y : Byte) (c : CodeEntry) :
    (s.setCode y c).pending = s.pending := rfl
@[simp] theorem State.setCode_replies (s : State) (y : Byte) (c : CodeEntry) :
    (s.setCode y c).replies = s.replies := rfl
@[simp] theorem State.setCode_free (s : State) (y : Byte) (c : CodeEntry) : (s.setCode y c).free = s.free := rfl

/-! ### clearCode -/

@[simp] theorem State.clearCode_icur (s : State) : s.clearCode.icur = s.icur := rfl
@[simp] theorem State.clearCode_olen (s : State) : s.clearCode.olen = s.olen := rfl
@[simp] theorem State.clearCode_freq (s : State) : s.clearCode.freq = s.freq := rfl
@[simp] theorem State.clearCode_tree (s : State) : s.clearCode.tree = s.tree := rfl
@[simp] theorem State.clearCode_tvalid (s : State) : s.clearCode.tvalid = s.tvalid := rfl
@[simp] theorem State.clearCode_code (s : State) : s.clearCode.code = Vector.replicate 256 CodeEntry.absent := rfl
@[simp] theorem State.clearCode_cvalid (s : State) : s.clearCode.cvalid = s.cvalid := rfl
@[simp] theorem State.clearCode_bw (s : State) : s.clearCode.bw = s.bw := rfl
@[simp] theorem State.clearCode_err (s : State) : s.clearCode.err = s.err := rfl
@[simp] theorem State.clearCode_errinfo (s : State) : s.clearCode.errinfo = s.errinfo := rfl
@[simp] theorem State.clearCode_input (s : State) : s.clearCode.input = s.input := rfl
@[simp] theorem State.clearCode_out (s : State) : s.clearCode.out = s.out := rfl
@[simp] theorem State.clearCode_ioErrs (s : State) : s.clearCode.ioErrs = s.ioErrs := rfl
@[simp] theorem State.clearCode_pending (s : State) : s.clearCode.pending = s.pending := rfl
@[simp] theorem State.clearCode_replies (s : State) : s.clearCode.replies = s.replies := rfl
@[simp] theorem State.clearCode_free (s : State) : s.clearCode.free = s.free := rfl

/-! ### setWriter -/

@[simp] theorem State.setWriter_icur (s : State) (buf : Byte) (cur : BitVec 3) :
    (s.setWriter buf cur).icur = s.icur := rfl
@[simp] theorem State.setWriter_olen (s : State) (buf : Byte) (cur : BitVec 3) :
    (s.setWriter buf cur).olen = s.olen := rfl
@[simp] theorem State.setWriter_freq (s : State) (buf : Byte) (cur : BitVec 3) :
    (s.setWriter buf cur).freq = s.freq := rfl
@[simp] theorem State.setWriter_tree (s : State) (buf : Byte) (cur : BitVec 3) :
    (s.setWriter buf cur).tree = s.tree := rfl
@[simp] theorem State.setWriter_tvalid (s : State) (buf : Byte) (cur : BitVec 3) :
    (s.setWriter buf cur).tvalid = s.tvalid := rfl
@[simp] theorem State.setWriter_code (s : State) (buf : Byte) (cur : BitVec 3) :
    (s.setWriter buf cur).code = s.code := rfl
@[simp] theorem State.setWriter_cvalid (s : State) (buf : Byte) (cur : BitVec 3) :
    (s.setWriter buf cur).cvalid = s.cvalid := rfl
@[simp] theorem State.setWriter_bw (s : State) (buf : Byte) (cur : BitVec 3) :
    (s.setWriter buf cur).bw = { buf := buf, cur := cur } := rfl
@[simp] theorem State.setWriter_err (s : State) (buf : Byte) (cur : BitVec 3) : (s.setWriter buf cur).err = s.err := rfl
@[simp] theorem State.setWriter_errinfo (s : State) (buf : Byte) (cur : BitVec 3) :
    (s.setWriter buf cur).errinfo = s.errinfo := rfl
@[simp] theorem State.setWriter_input (s : State) (buf : Byte) (cur : BitVec 3) :
    (s.setWriter buf cur).input = s.input := rfl
@[simp] theorem State.setWriter_out (s : State) (buf : Byte) (cur : BitVec 3) : (s.setWriter buf cur).out = s.out := rfl
@[simp] theorem State.setWriter_ioErrs (s : State) (buf : Byte) (cur : BitVec 3) :
    (s.setWriter buf cur).ioErrs = s.ioErrs := rfl
@[simp] theorem State.setWriter_pending (s : State) (buf : Byte) (cur : BitVec 3) :
    (s.setWriter buf cur).pending = s.pending := rfl
@[simp] theorem State.setWriter_replies (s : State) (buf : Byte) (cur : BitVec 3) :
    (s.setWriter buf cur).replies = s.replies := rfl
@[simp] theorem State.setWriter_free (s : State) (buf : Byte) (cur : BitVec 3) :
    (s.setWriter buf cur).free = s.free := rfl

/-! ### answer -/

@[simp] theorem State.answer_icur (s : State) (v : Word) : (s.answer v).icur = s.icur := rfl
@[simp] theorem State.answer_olen (s : State) (v : Word) : (s.answer v).olen = s.olen := rfl
@[simp] theorem State.answer_freq (s : State) (v : Word) : (s.answer v).freq = s.freq := rfl
@[simp] theorem State.answer_tree (s : State) (v : Word) : (s.answer v).tree = s.tree := rfl
@[simp] theorem State.answer_tvalid (s : State) (v : Word) : (s.answer v).tvalid = s.tvalid := rfl
@[simp] theorem State.answer_code (s : State) (v : Word) : (s.answer v).code = s.code := rfl
@[simp] theorem State.answer_cvalid (s : State) (v : Word) : (s.answer v).cvalid = s.cvalid := rfl
@[simp] theorem State.answer_bw (s : State) (v : Word) : (s.answer v).bw = s.bw := rfl
@[simp] theorem State.answer_err (s : State) (v : Word) : (s.answer v).err = s.err := rfl
@[simp] theorem State.answer_errinfo (s : State) (v : Word) : (s.answer v).errinfo = s.errinfo := rfl
@[simp] theorem State.answer_input (s : State) (v : Word) : (s.answer v).input = s.input := rfl
@[simp] theorem State.answer_out (s : State) (v : Word) : (s.answer v).out = s.out := rfl
@[simp] theorem State.answer_ioErrs (s : State) (v : Word) : (s.answer v).ioErrs = s.ioErrs := rfl
@[simp] theorem State.answer_pending (s : State) (v : Word) : (s.answer v).pending = s.pending := rfl
@[simp] theorem State.answer_replies (s : State) (v : Word) : (s.answer v).replies = s.replies ++ [v] := rfl
@[simp] theorem State.answer_free (s : State) (v : Word) : (s.answer v).free = s.free := rfl

/-! ### setPending -/

@[simp] theorem State.setPending_icur (s : State) (l : List HostAccess) : (s.setPending l).icur = s.icur := rfl
@[simp] theorem State.setPending_olen (s : State) (l : List HostAccess) : (s.setPending l).olen = s.olen := rfl
@[simp] theorem State.setPending_freq (s : State) (l : List HostAccess) : (s.setPending l).freq = s.freq := rfl
@[simp] theorem State.setPending_tree (s : State) (l : List HostAccess) : (s.setPending l).tree = s.tree := rfl
@[simp] theorem State.setPending_tvalid (s : State) (l : List HostAccess) : (s.setPending l).tvalid = s.tvalid := rfl
@[simp] theorem State.setPending_code (s : State) (l : List HostAccess) : (s.setPending l).code = s.code := rfl
@[simp] theorem State.setPending_cvalid (s : State) (l : List HostAccess) : (s.setPending l).cvalid = s.cvalid := rfl
@[simp] theorem State.setPending_bw (s : State) (l : List HostAccess) : (s.setPending l).bw = s.bw := rfl
@[simp] theorem State.setPending_err (s : State) (l : List HostAccess) : (s.setPending l).err = s.err := rfl
@[simp] theorem State.setPending_errinfo (s : State) (l : List HostAccess) : (s.setPending l).errinfo = s.errinfo := rfl
@[simp] theorem State.setPending_input (s : State) (l : List HostAccess) : (s.setPending l).input = s.input := rfl
@[simp] theorem State.setPending_out (s : State) (l : List HostAccess) : (s.setPending l).out = s.out := rfl
@[simp] theorem State.setPending_ioErrs (s : State) (l : List HostAccess) : (s.setPending l).ioErrs = s.ioErrs := rfl
@[simp] theorem State.setPending_pending (s : State) (l : List HostAccess) : (s.setPending l).pending = l := rfl
@[simp] theorem State.setPending_replies (s : State) (l : List HostAccess) : (s.setPending l).replies = s.replies := rfl
@[simp] theorem State.setPending_free (s : State) (l : List HostAccess) : (s.setPending l).free = s.free := rfl

/-! ### recordFault -/

@[simp] theorem State.recordFault_icur (s : State) (e : ErrCode) (w : Word) : (s.recordFault e w).icur = s.icur := rfl
@[simp] theorem State.recordFault_olen (s : State) (e : ErrCode) (w : Word) : (s.recordFault e w).olen = s.olen := rfl
@[simp] theorem State.recordFault_freq (s : State) (e : ErrCode) (w : Word) : (s.recordFault e w).freq = s.freq := rfl
@[simp] theorem State.recordFault_tree (s : State) (e : ErrCode) (w : Word) : (s.recordFault e w).tree = s.tree := rfl
@[simp] theorem State.recordFault_tvalid (s : State) (e : ErrCode) (w : Word) :
    (s.recordFault e w).tvalid = s.tvalid := rfl
@[simp] theorem State.recordFault_code (s : State) (e : ErrCode) (w : Word) : (s.recordFault e w).code = s.code := rfl
@[simp] theorem State.recordFault_cvalid (s : State) (e : ErrCode) (w : Word) :
    (s.recordFault e w).cvalid = s.cvalid := rfl
@[simp] theorem State.recordFault_bw (s : State) (e : ErrCode) (w : Word) : (s.recordFault e w).bw = s.bw := rfl
@[simp] theorem State.recordFault_err (s : State) (e : ErrCode) (w : Word) : (s.recordFault e w).err = e := rfl
@[simp] theorem State.recordFault_errinfo (s : State) (e : ErrCode) (w : Word) : (s.recordFault e w).errinfo = w := rfl
@[simp] theorem State.recordFault_input (s : State) (e : ErrCode) (w : Word) :
    (s.recordFault e w).input = s.input := rfl
@[simp] theorem State.recordFault_out (s : State) (e : ErrCode) (w : Word) : (s.recordFault e w).out = s.out := rfl
@[simp] theorem State.recordFault_ioErrs (s : State) (e : ErrCode) (w : Word) :
    (s.recordFault e w).ioErrs = s.ioErrs := rfl
@[simp] theorem State.recordFault_pending (s : State) (e : ErrCode) (w : Word) :
    (s.recordFault e w).pending = s.pending := rfl
@[simp] theorem State.recordFault_replies (s : State) (e : ErrCode) (w : Word) :
    (s.recordFault e w).replies = s.replies := rfl
@[simp] theorem State.recordFault_free (s : State) (e : ErrCode) (w : Word) : (s.recordFault e w).free = s.free := rfl

/-! ### spoilWriter -/

@[simp] theorem State.spoilWriter_icur (s : State) : s.spoilWriter.icur = s.icur := rfl
@[simp] theorem State.spoilWriter_olen (s : State) : s.spoilWriter.olen = s.olen := rfl
@[simp] theorem State.spoilWriter_freq (s : State) : s.spoilWriter.freq = s.freq := rfl
@[simp] theorem State.spoilWriter_tree (s : State) : s.spoilWriter.tree = s.tree := rfl
@[simp] theorem State.spoilWriter_tvalid (s : State) : s.spoilWriter.tvalid = s.tvalid := rfl
@[simp] theorem State.spoilWriter_code (s : State) : s.spoilWriter.code = s.code := rfl
@[simp] theorem State.spoilWriter_cvalid (s : State) : s.spoilWriter.cvalid = s.cvalid := rfl
@[simp] theorem State.spoilWriter_bw (s : State) :
    s.spoilWriter.bw = { buf := Config.freeBwBuf s.free, cur := Config.freeBwCur s.free } := rfl
@[simp] theorem State.spoilWriter_err (s : State) : s.spoilWriter.err = s.err := rfl
@[simp] theorem State.spoilWriter_errinfo (s : State) : s.spoilWriter.errinfo = s.errinfo := rfl
@[simp] theorem State.spoilWriter_input (s : State) : s.spoilWriter.input = s.input := rfl
@[simp] theorem State.spoilWriter_out (s : State) : s.spoilWriter.out = s.out := rfl
@[simp] theorem State.spoilWriter_ioErrs (s : State) : s.spoilWriter.ioErrs = s.ioErrs := rfl
@[simp] theorem State.spoilWriter_pending (s : State) : s.spoilWriter.pending = s.pending := rfl
@[simp] theorem State.spoilWriter_replies (s : State) : s.spoilWriter.replies = s.replies := rfl
@[simp] theorem State.spoilWriter_free (s : State) : s.spoilWriter.free = s.free + 1 := rfl

/-! ### recordInner -/

@[simp] theorem State.recordInner_icur (s : State) (e : ErrCode) (w : Word) : (s.recordInner e w).icur = s.icur := rfl
@[simp] theorem State.recordInner_olen (s : State) (e : ErrCode) (w : Word) : (s.recordInner e w).olen = s.olen := rfl
@[simp] theorem State.recordInner_freq (s : State) (e : ErrCode) (w : Word) : (s.recordInner e w).freq = s.freq := rfl
@[simp] theorem State.recordInner_tree (s : State) (e : ErrCode) (w : Word) : (s.recordInner e w).tree = s.tree := rfl
@[simp] theorem State.recordInner_tvalid (s : State) (e : ErrCode) (w : Word) :
    (s.recordInner e w).tvalid = s.tvalid := rfl
@[simp] theorem State.recordInner_code (s : State) (e : ErrCode) (w : Word) : (s.recordInner e w).code = s.code := rfl
@[simp] theorem State.recordInner_cvalid (s : State) (e : ErrCode) (w : Word) :
    (s.recordInner e w).cvalid = s.cvalid := rfl
@[simp] theorem State.recordInner_bw (s : State) (e : ErrCode) (w : Word) :
    (s.recordInner e w).bw = { buf := Config.freeBwBuf s.free, cur := Config.freeBwCur s.free } := rfl
@[simp] theorem State.recordInner_err (s : State) (e : ErrCode) (w : Word) : (s.recordInner e w).err = e := rfl
@[simp] theorem State.recordInner_errinfo (s : State) (e : ErrCode) (w : Word) : (s.recordInner e w).errinfo = w := rfl
@[simp] theorem State.recordInner_input (s : State) (e : ErrCode) (w : Word) :
    (s.recordInner e w).input = s.input := rfl
@[simp] theorem State.recordInner_out (s : State) (e : ErrCode) (w : Word) : (s.recordInner e w).out = s.out := rfl
@[simp] theorem State.recordInner_ioErrs (s : State) (e : ErrCode) (w : Word) :
    (s.recordInner e w).ioErrs = s.ioErrs := rfl
@[simp] theorem State.recordInner_pending (s : State) (e : ErrCode) (w : Word) :
    (s.recordInner e w).pending = s.pending := rfl
@[simp] theorem State.recordInner_replies (s : State) (e : ErrCode) (w : Word) :
    (s.recordInner e w).replies = s.replies := rfl
@[simp] theorem State.recordInner_free (s : State) (e : ErrCode) (w : Word) :
    (s.recordInner e w).free = s.free + 1 := rfl

/-! ### accept -/

@[simp] theorem State.accept_icur (s : State) (p n : Nat) : (s.accept p n).icur = s.icur := rfl
@[simp] theorem State.accept_olen (s : State) (p n : Nat) :
    (s.accept p n).olen = s.olen + BitVec.ofNat 64 ((s.bw.cur.toNat + n) / 8) := rfl
@[simp] theorem State.accept_freq (s : State) (p n : Nat) : (s.accept p n).freq = s.freq := rfl
@[simp] theorem State.accept_tree (s : State) (p n : Nat) : (s.accept p n).tree = s.tree := rfl
@[simp] theorem State.accept_tvalid (s : State) (p n : Nat) : (s.accept p n).tvalid = s.tvalid := rfl
@[simp] theorem State.accept_code (s : State) (p n : Nat) : (s.accept p n).code = s.code := rfl
@[simp] theorem State.accept_cvalid (s : State) (p n : Nat) : (s.accept p n).cvalid = s.cvalid := rfl
@[simp] theorem State.accept_bw (s : State) (p n : Nat) :
    (s.accept p n).bw = { buf := BitVec.ofNat 8 ((s.bw.buf.toNat + p * 2 ^ s.bw.cur.toNat) / 2 ^ (8 * ((s.bw.cur.toNat + n) / 8))), cur := BitVec.ofNat 3 ((s.bw.cur.toNat + n) % 8) } := rfl
@[simp] theorem State.accept_err (s : State) (p n : Nat) : (s.accept p n).err = s.err := rfl
@[simp] theorem State.accept_errinfo (s : State) (p n : Nat) : (s.accept p n).errinfo = s.errinfo := rfl
@[simp] theorem State.accept_input (s : State) (p n : Nat) : (s.accept p n).input = s.input := rfl
@[simp] theorem State.accept_out (s : State) (p n : Nat) :
    (s.accept p n).out = s.out ++ (List.range ((s.bw.cur.toNat + n) / 8)).map fun j => BitVec.ofNat 8 ((s.bw.buf.toNat + p * 2 ^ s.bw.cur.toNat) / 2 ^ (8 * j)) := rfl
@[simp] theorem State.accept_ioErrs (s : State) (p n : Nat) :
    (s.accept p n).ioErrs = s.ioErrs.drop ((s.bw.cur.toNat + n) / 8) := rfl
@[simp] theorem State.accept_pending (s : State) (p n : Nat) : (s.accept p n).pending = s.pending := rfl
@[simp] theorem State.accept_replies (s : State) (p n : Nat) : (s.accept p n).replies = s.replies := rfl
@[simp] theorem State.accept_free (s : State) (p n : Nat) : (s.accept p n).free = s.free := rfl

/-! ### pushAll -/

@[simp] theorem State.pushAll_icur (s : State) (bs : List Byte) : (s.pushAll bs).icur = s.icur := rfl
@[simp] theorem State.pushAll_olen (s : State) (bs : List Byte) :
    (s.pushAll bs).olen = s.olen + BitVec.ofNat 64 bs.length := rfl
@[simp] theorem State.pushAll_freq (s : State) (bs : List Byte) : (s.pushAll bs).freq = s.freq := rfl
@[simp] theorem State.pushAll_tree (s : State) (bs : List Byte) : (s.pushAll bs).tree = s.tree := rfl
@[simp] theorem State.pushAll_tvalid (s : State) (bs : List Byte) : (s.pushAll bs).tvalid = s.tvalid := rfl
@[simp] theorem State.pushAll_code (s : State) (bs : List Byte) : (s.pushAll bs).code = s.code := rfl
@[simp] theorem State.pushAll_cvalid (s : State) (bs : List Byte) : (s.pushAll bs).cvalid = s.cvalid := rfl
@[simp] theorem State.pushAll_bw (s : State) (bs : List Byte) : (s.pushAll bs).bw = s.bw := rfl
@[simp] theorem State.pushAll_err (s : State) (bs : List Byte) : (s.pushAll bs).err = s.err := rfl
@[simp] theorem State.pushAll_errinfo (s : State) (bs : List Byte) : (s.pushAll bs).errinfo = s.errinfo := rfl
@[simp] theorem State.pushAll_input (s : State) (bs : List Byte) : (s.pushAll bs).input = s.input := rfl
@[simp] theorem State.pushAll_out (s : State) (bs : List Byte) : (s.pushAll bs).out = s.out ++ bs := rfl
@[simp] theorem State.pushAll_ioErrs (s : State) (bs : List Byte) :
    (s.pushAll bs).ioErrs = s.ioErrs.drop bs.length := rfl
@[simp] theorem State.pushAll_pending (s : State) (bs : List Byte) : (s.pushAll bs).pending = s.pending := rfl
@[simp] theorem State.pushAll_replies (s : State) (bs : List Byte) : (s.pushAll bs).replies = s.replies := rfl
@[simp] theorem State.pushAll_free (s : State) (bs : List Byte) : (s.pushAll bs).free = s.free := rfl

/-! ### queueCommand -/

@[simp] theorem State.queueCommand_icur (s : State) (w : Word) : (s.queueCommand w).icur = s.icur := rfl
@[simp] theorem State.queueCommand_olen (s : State) (w : Word) : (s.queueCommand w).olen = s.olen := rfl
@[simp] theorem State.queueCommand_freq (s : State) (w : Word) : (s.queueCommand w).freq = s.freq := rfl
@[simp] theorem State.queueCommand_tree (s : State) (w : Word) : (s.queueCommand w).tree = s.tree := rfl
@[simp] theorem State.queueCommand_tvalid (s : State) (w : Word) : (s.queueCommand w).tvalid = s.tvalid := rfl
@[simp] theorem State.queueCommand_code (s : State) (w : Word) : (s.queueCommand w).code = s.code := rfl
@[simp] theorem State.queueCommand_cvalid (s : State) (w : Word) : (s.queueCommand w).cvalid = s.cvalid := rfl
@[simp] theorem State.queueCommand_bw (s : State) (w : Word) : (s.queueCommand w).bw = s.bw := rfl
@[simp] theorem State.queueCommand_err (s : State) (w : Word) : (s.queueCommand w).err = s.err := rfl
@[simp] theorem State.queueCommand_errinfo (s : State) (w : Word) : (s.queueCommand w).errinfo = s.errinfo := rfl
@[simp] theorem State.queueCommand_input (s : State) (w : Word) : (s.queueCommand w).input = s.input := rfl
@[simp] theorem State.queueCommand_out (s : State) (w : Word) : (s.queueCommand w).out = s.out := rfl
@[simp] theorem State.queueCommand_ioErrs (s : State) (w : Word) : (s.queueCommand w).ioErrs = s.ioErrs := rfl
@[simp] theorem State.queueCommand_pending (s : State) (w : Word) :
    (s.queueCommand w).pending = .write 0x000#12 w :: s.pending := rfl
@[simp] theorem State.queueCommand_replies (s : State) (w : Word) : (s.queueCommand w).replies = s.replies := rfl
@[simp] theorem State.queueCommand_free (s : State) (w : Word) : (s.queueCommand w).free = s.free := rfl

/-! ### hardReset -/

@[simp] theorem hardReset_icur (l : List Byte) (s : State) : (hardReset l s).icur = State.reset.icur := rfl
@[simp] theorem hardReset_olen (l : List Byte) (s : State) : (hardReset l s).olen = State.reset.olen := rfl
@[simp] theorem hardReset_freq (l : List Byte) (s : State) : (hardReset l s).freq = State.reset.freq := rfl
@[simp] theorem hardReset_tree (l : List Byte) (s : State) : (hardReset l s).tree = State.reset.tree := rfl
@[simp] theorem hardReset_tvalid (l : List Byte) (s : State) : (hardReset l s).tvalid = State.reset.tvalid := rfl
@[simp] theorem hardReset_code (l : List Byte) (s : State) : (hardReset l s).code = State.reset.code := rfl
@[simp] theorem hardReset_cvalid (l : List Byte) (s : State) : (hardReset l s).cvalid = State.reset.cvalid := rfl
@[simp] theorem hardReset_bw (l : List Byte) (s : State) : (hardReset l s).bw = State.reset.bw := rfl
@[simp] theorem hardReset_err (l : List Byte) (s : State) : (hardReset l s).err = State.reset.err := rfl
@[simp] theorem hardReset_errinfo (l : List Byte) (s : State) : (hardReset l s).errinfo = State.reset.errinfo := rfl
@[simp] theorem hardReset_input (l : List Byte) (s : State) : (hardReset l s).input = l := rfl
@[simp] theorem hardReset_out (l : List Byte) (s : State) : (hardReset l s).out = State.reset.out := rfl
@[simp] theorem hardReset_ioErrs (l : List Byte) (s : State) : (hardReset l s).ioErrs = s.ioErrs := rfl
@[simp] theorem hardReset_pending (l : List Byte) (s : State) : (hardReset l s).pending = s.pending := rfl
@[simp] theorem hardReset_replies (l : List Byte) (s : State) : (hardReset l s).replies = s.replies := rfl
@[simp] theorem hardReset_free (l : List Byte) (s : State) : (hardReset l s).free = s.free := rfl

/-! ### Updates of one field twice, and of the same value -/

@[simp] theorem State.setPending_setPending (s : State) (l k : List HostAccess) :
    (s.setPending l).setPending k = s.setPending k := rfl
@[simp] theorem State.setCvalid_setCvalid (s : State) (b c : Bool) : (s.setCvalid b).setCvalid c = s.setCvalid c := rfl
@[simp] theorem State.setWriter_setWriter (s : State) (buf buf' : Byte) (cur cur' : BitVec 3) :
    (s.setWriter buf cur).setWriter buf' cur' = s.setWriter buf' cur' := rfl
@[simp] theorem State.pushAll_nil (s : State) : s.pushAll [] = s := by simp [State.pushAll]

/-! ### Entries of the tables -/

@[simp] theorem freqAt_setFreq_self (s : State) (y : Byte) (c : Count) : freqAt (s.setFreq y c).freq y = c := by
  simp [freqAt]

theorem freqAt_setFreq_ne (s : State) (y z : Byte) (c : Count) (h : y ≠ z) :
    freqAt (s.setFreq y c).freq z = freqAt s.freq z := by
  have : y.toNat ≠ z.toNat := fun e => h (BitVec.eq_of_toNat_eq e)
  simp [freqAt, Vector.getElem_set_ne, this]

@[simp] theorem codeAt_setCode_self (s : State) (y : Byte) (c : CodeEntry) : codeAt (s.setCode y c).code y = c := by
  simp [codeAt]

theorem codeAt_setCode_ne (s : State) (y z : Byte) (c : CodeEntry) (h : y ≠ z) :
    codeAt (s.setCode y c).code z = codeAt s.code z := by
  have : y.toNat ≠ z.toNat := fun e => h (BitVec.eq_of_toNat_eq e)
  simp [codeAt, Vector.getElem_set_ne, this]

@[simp] theorem freqAt_clearFreq (s : State) (y : Byte) : freqAt s.clearFreq.freq y = 0#55 := by simp [freqAt]

@[simp] theorem codeAt_clearCode (s : State) (y : Byte) : codeAt s.clearCode.code y = CodeEntry.absent := by
  simp [codeAt]

theorem nodeAt_setIfInBounds_self (m : Vector Node 511) (i : Nat) (n : Node) (h : i < 511) :
    nodeAt (m.setIfInBounds i n) i = n := by
  simp [nodeAt, h]

theorem nodeAt_setIfInBounds_ne (m : Vector Node 511) (i j : Nat) (n : Node) (h : i ≠ j) :
    nodeAt (m.setIfInBounds i n) j = nodeAt m j := by
  simp only [nodeAt]
  split
  · simp [h]
  · rfl

end Sys2Proof.Machine
end

