-- ==== Sys2Proof/Laws/Ops.lean ====
section
/-! SUPPORT. What each shared operation can do, said once: the lemmas the proofs cite instead of unfolding it. -/

namespace Sys2Proof.Machine

/-! ### Body -/

/-- The state a body ends in, whether at its end or at a `raise`. -/
def Body.final : Body → State
  | .done s => s
  | .raised _ s => s

@[simp] theorem Body.final_done (s : State) : (Body.done s).final = s := rfl
@[simp] theorem Body.final_raised (e : ErrCode) (s : State) : (Body.raised e s).final = s := rfl
@[simp] theorem Body.andThen_done (s : State) (k : State → Body) : (Body.done s).andThen k = k s := rfl
@[simp] theorem Body.andThen_raised (e : ErrCode) (s : State) (k : State → Body) :
    (Body.raised e s).andThen k = .raised e s := rfl

theorem Body.andThen_assoc (b : Body) (k l : State → Body) :
    (b.andThen k).andThen l = b.andThen fun s => (k s).andThen l := by cases b <;> rfl

theorem Body.andThen_done_right (b : Body) : b.andThen Body.done = b := by cases b <;> rfl

/-- A sequence is done exactly when both parts are. -/
theorem Body.andThen_eq_done {b : Body} {k : State → Body} {t : State} :
    b.andThen k = .done t ↔ ∃ m, b = .done m ∧ k m = .done t := by
  cases b <;> simp [Body.andThen]

/-- A sequence raises exactly when the first part does, or the first is done and the second does. -/
theorem Body.andThen_eq_raised {b : Body} {k : State → Body} {e : ErrCode} {t : State} :
    b.andThen k = .raised e t ↔ b = .raised e t ∨ ∃ m, b = .done m ∧ k m = .raised e t := by
  cases b <;> simp [Body.andThen]

/-- A relation that both parts of a sequence keep is kept by the sequence. -/
theorem Body.final_andThen (R : State → State → Prop) (trans : ∀ a b c, R a b → R b c → R a c) {s : State} {b : Body}
    {k : State → Body} (hb : R s b.final) (hk : ∀ m, R m (k m).final) : R s (b.andThen k).final := by
  cases b with
  | done m => exact trans _ _ _ hb (hk m)
  | raised e m => exact hb

/-! ### Draws -/

theorem State.nextDraw_of_noIoErrors {s : State} (h : s.noIoErrors) : s.nextDraw = false := by
  unfold State.nextDraw
  cases e : s.ioErrs with
  | nil => rfl
  | cons b bs => simp_all [State.noIoErrors]

theorem State.noIoErrors_dropDraw {s : State} (h : s.noIoErrors) : s.dropDraw.noIoErrors := by
  cases e : s.ioErrs <;> simp_all [State.noIoErrors]

/-! ### The streams -/

/-- `InRead()`: an error, and only a draw is used up; or the cursor moves on by one. -/
theorem inRead_cases (s : State) :
    (s.nextDraw = true ∧ inRead s = .raised .io s.dropDraw) ∨
      (s.nextDraw = false ∧ inRead s = .done s.dropDraw.advanceInput) := by
  cases h : s.nextDraw <;> simp [inRead, h]

/-- `OutByte(b)`: an error, and only a draw is used up; or the byte is appended. -/
theorem outByte_cases (b : Byte) (s : State) :
    (s.nextDraw = true ∧ outByte b s = .raised .io s.dropDraw) ∨
      (s.nextDraw = false ∧ outByte b s = .done (s.dropDraw.pushByte b)) := by
  cases h : s.nextDraw <;> simp [outByte, h]

theorem pushAll_pushAll (s : State) (as bs : List Byte) : (s.pushAll as).pushAll bs = s.pushAll (as ++ bs) := by
  simp only [State.pushAll, List.length_append, List.append_assoc, List.drop_drop, BitVec.ofNat_add, BitVec.add_assoc]

theorem dropDraw_pushByte (s : State) (b : Byte) : s.dropDraw.pushByte b = s.pushAll [b] := by
  simp [State.dropDraw, State.pushByte, State.pushAll]

/-- A list of bytes whose pushes draw no error is appended whole. -/
theorem outBytes_of_no_error (bs : List Byte) (s : State) (h : ∀ e ∈ s.ioErrs.take bs.length, e = false) :
    outBytes bs s = .done (s.pushAll bs) := by
  induction bs generalizing s with
  | nil => simp [outBytes]
  | cons b bs ih =>
    have hd : s.nextDraw = false := by
      unfold State.nextDraw
      cases e : s.ioErrs with
      | nil => rfl
      | cons x xs => exact h x (by simp [e])
    have ht : ∀ e ∈ (s.pushAll [b]).ioErrs.take bs.length, e = false := by
      intro e he
      refine h e ?_
      cases hs : s.ioErrs with
      | nil => simp [hs] at he
      | cons x xs => simp [hs] at he ⊢; exact .inr he
    simp only [outBytes, outByte, hd, dropDraw_pushByte]
    simp [ih _ ht, pushAll_pushAll]

/-- A list of bytes of which the push of number `k` draws the first error: the bytes before it are appended. -/
theorem outBytes_of_error (bs : List Byte) (s : State) (k : Nat) (rest : List Bool)
    (he : s.ioErrs = List.replicate k false ++ true :: rest) (hk : k < bs.length) :
    outBytes bs s = .raised .io (s.pushAll (bs.take k)).dropDraw := by
  induction bs generalizing s k with
  | nil => simp at hk
  | cons b bs ih =>
    cases k with
    | zero => simp [outBytes, outByte, State.nextDraw, he]
    | succ k =>
      have hd : s.nextDraw = false := by simp [State.nextDraw, he, List.replicate_succ]
      simp only [outBytes, outByte, hd, dropDraw_pushByte]
      have := ih (s.pushAll [b]) k (by simp [he, List.replicate_succ]) (by simpa using hk)
      simp [this, pushAll_pushAll]

/-- `OutByte` of a list: all of it appended, or an `IO` error after a proper part of it. -/
theorem outBytes_cases (bs : List Byte) (s : State) :
    outBytes bs s = .done (s.pushAll bs) ∨
      ∃ k, k < bs.length ∧ outBytes bs s = .raised .io (s.pushAll (bs.take k)).dropDraw := by
  induction bs generalizing s with
  | nil => exact .inl (by simp [outBytes])
  | cons b bs ih =>
    obtain ⟨-, h⟩ | ⟨-, h⟩ := outByte_cases b s
    · exact .inr ⟨0, by simp, by simp [outBytes, h]⟩
    · rw [dropDraw_pushByte] at h
      obtain h' | ⟨k, hk, h'⟩ := ih (s.pushAll [b])
      · exact .inl (by simp [outBytes, h, h', pushAll_pushAll])
      · exact .inr ⟨k + 1, by simpa using hk, by simp [outBytes, h, h', pushAll_pushAll]⟩

/-! ### What a body that only talks to the streams and the writer changes -/

/-- Only the bit writer, the cursor, `OUT`, `OLEN` and the used-up draws differ, and `OUT` only grows. -/
structure StreamsOnly (s t : State) : Prop where
  freq : t.freq = s.freq
  tree : t.tree = s.tree
  tvalid : t.tvalid = s.tvalid
  code : t.code = s.code
  cvalid : t.cvalid = s.cvalid
  err : t.err = s.err
  errinfo : t.errinfo = s.errinfo
  input : t.input = s.input
  pending : t.pending = s.pending
  replies : t.replies = s.replies
  free : t.free = s.free
  out : s.out <+: t.out

theorem StreamsOnly.rfl' (s : State) : StreamsOnly s s := by constructor <;> simp

theorem StreamsOnly.trans (a b c : State) (h : StreamsOnly a b) (k : StreamsOnly b c) : StreamsOnly a c := by
  obtain ⟨h1, h2, h3, h4, h5, h6, h7, h8, h9, h10, h11, h12⟩ := h
  obtain ⟨k1, k2, k3, k4, k5, k6, k7, k8, k9, k10, k11, k12⟩ := k
  constructor <;> first | exact h12.trans k12 | simp only [*]

theorem StreamsOnly.dropDraw (s : State) : StreamsOnly s s.dropDraw := by constructor <;> simp
theorem StreamsOnly.advanceInput (s : State) : StreamsOnly s s.advanceInput := by constructor <;> simp
theorem StreamsOnly.rewindInput (s : State) : StreamsOnly s s.rewindInput := by constructor <;> simp
theorem StreamsOnly.pushAll (s : State) (bs : List Byte) : StreamsOnly s (s.pushAll bs) := by constructor <;> simp
theorem StreamsOnly.setWriter (s : State) (buf : Byte) (cur : BitVec 3) : StreamsOnly s (s.setWriter buf cur) := by
  constructor <;> simp

theorem streamsOnly_inRead (s : State) : StreamsOnly s (inRead s).final := by
  obtain ⟨-, h⟩ | ⟨-, h⟩ := inRead_cases s <;> rw [h]
  · exact .dropDraw s
  · exact .trans _ _ _ (.dropDraw s) (.advanceInput _)

theorem streamsOnly_outBytes (bs : List Byte) (s : State) : StreamsOnly s (outBytes bs s).final := by
  obtain h | ⟨k, -, h⟩ := outBytes_cases bs s <;> rw [h]
  · exact .pushAll s bs
  · exact .trans _ _ _ (.pushAll s _) (.dropDraw _)

theorem outByte_eq_outBytes (b : Byte) (s : State) : outByte b s = outBytes [b] s := by
  simp [outBytes, Body.andThen_done_right]

theorem streamsOnly_outByte (b : Byte) (s : State) : StreamsOnly s (outByte b s).final := by
  rw [outByte_eq_outBytes]; exact streamsOnly_outBytes _ _

theorem streamsOnly_pushBit (b : Bool) (s : State) : StreamsOnly s (pushBit b s).final := by
  unfold pushBit
  dsimp only
  split
  · exact Body.final_andThen _ StreamsOnly.trans (streamsOnly_outByte _ s) fun m => .setWriter m _ _
  · exact .setWriter s _ _

theorem streamsOnly_pushBits (bits : List Bool) (s : State) : StreamsOnly s (pushBits bits s).final := by
  induction bits generalizing s with
  | nil => exact .rfl' s
  | cons b bits ih => exact Body.final_andThen _ StreamsOnly.trans (streamsOnly_pushBit b s) ih

theorem streamsOnly_bitAppend (pat : Pattern) (n : Nat) (s : State) : StreamsOnly s (bitAppend pat n s).final :=
  streamsOnly_pushBits _ s

theorem streamsOnly_bitFlush (s : State) : StreamsOnly s (bitFlush s).final := by
  unfold bitFlush
  split
  · exact .rfl' s
  · exact Body.final_andThen _ StreamsOnly.trans (streamsOnly_outByte _ s) fun m => .setWriter m _ _

/-- A relation that the reads and the loop's body keep is kept by the loop over the input. -/
theorem forInput_final (R : State → State → Prop) (refl : ∀ a, R a a) (trans : ∀ a b c, R a b → R b c → R a c)
    (body : Byte → State → Body) (hr : ∀ s, R s (inRead s).final) (hb : ∀ b s, R s (body b s).final) (turns : Nat)
    (s : State) : R s (forInput body turns s).final := by
  induction turns generalizing s with
  | zero => exact refl s
  | succ n ih =>
    unfold forInput
    split
    · exact refl s
    · exact Body.final_andThen R trans (hr s) fun m => Body.final_andThen R trans (hb _ m) ih

/-! ### The bit writer -/

theorem pushBits_append (as bs : List Bool) (s : State) :
    pushBits (as ++ bs) s = (pushBits as s).andThen (pushBits bs) := by
  induction as generalizing s with
  | nil => rfl
  | cons a as ih =>
    have h : pushBits (as ++ bs) = fun s => (pushBits as s).andThen (pushBits bs) := funext ih
    simp [pushBits, Body.andThen_assoc, h]

theorem patternBits_length (pat : Pattern) (n : Nat) : (patternBits pat n).length = n := by simp [patternBits]

/-- `BWBUF[BWCUR] <- b` on a clean writer adds b at position `BWCUR`. -/
theorem putBit_toNat (buf : Byte) (cur : BitVec 3) (b : Bool) (h : buf.toNat < 2 ^ cur.toNat) :
    (putBit buf cur b).toNat = buf.toNat + b.toNat * 2 ^ cur.toNat := by
  have key : ∀ (cur : BitVec 3) (b : Bool) (buf : BitVec 8), buf.toNat < 2 ^ cur.toNat →
      (putBit buf cur b).toNat = buf.toNat + b.toNat * 2 ^ cur.toNat := by decide +kernel
  exact key cur b buf h

theorem pushBit_of_cur_lt (b : Bool) (s : State) (h : s.bw.cur ≠ 7#3) :
    pushBit b s = .done (s.setWriter (putBit s.bw.buf s.bw.cur b) (s.bw.cur + 1#3)) := by
  simp [pushBit, h]

theorem pushBit_of_cur_eq (b : Bool) (s : State) (h : s.bw.cur = 7#3) :
    pushBit b s = (outByte (putBit s.bw.buf 7#3 b) s).andThen fun t => .done (t.setWriter 0#8 0#3) := by
  simp [pushBit, h]

/-! ### Issuing a command -/

/-- Running a command always answers a next state, and that state is one of five (R54). -/
theorem issue_cases (i : Instr) (g : State → Option ErrCode) (body : State → Body) (s : State) :
    (s.err ≠ .none ∧ issue i g body s = .next s) ∨
    (s.err = .none ∧ i.wellFormed = false ∧ issue i g body s = .next (s.recordFault .ill (encode i))) ∨
    (s.err = .none ∧ i.wellFormed = true ∧ ∃ e, g s = some e ∧ issue i g body s = .next (s.recordFault e (encode i))) ∨
    (s.err = .none ∧ i.wellFormed = true ∧ g s = none ∧ ∃ t, body s = .done t ∧ issue i g body s = .next t) ∨
    (s.err = .none ∧ i.wellFormed = true ∧ g s = none ∧
      ∃ e t, body s = .raised e t ∧ issue i g body s = .next (t.recordInner e (encode i))) := by
  by_cases h : s.err = .none
  · cases hw : i.wellFormed with
    | false => exact .inr (.inl ⟨h, rfl, by simp [issue, h, hw]⟩)
    | true =>
      cases hg : g s with
      | some e => exact .inr (.inr (.inl ⟨h, rfl, e, rfl, by simp [issue, h, hw, hg]⟩))
      | none =>
        cases hb : body s with
        | done t => exact .inr (.inr (.inr (.inl ⟨h, rfl, rfl, t, rfl, by simp [issue, h, hw, hg, hb]⟩)))
        | raised e t => exact .inr (.inr (.inr (.inr ⟨h, rfl, rfl, e, t, rfl, by simp [issue, h, hw, hg, hb]⟩)))
  · exact .inl ⟨h, by simp [issue, h]⟩

/-- A command whose checks pass and whose body ends without a fault. -/
theorem issue_done {i : Instr} {g : State → Option ErrCode} {body : State → Body} {s t : State} (h : s.err = .none)
    (hw : i.wellFormed = true) (hg : g s = none) (hb : body s = .done t) : issue i g body s = .next t := by
  simp [issue, h, hw, hg, hb]

/-- A command whose body raises a fault. -/
theorem issue_raised {i : Instr} {g : State → Option ErrCode} {body : State → Body} {s t : State} {e : ErrCode}
    (h : s.err = .none) (hw : i.wellFormed = true) (hg : g s = none) (hb : body s = .raised e t) :
    issue i g body s = .next (t.recordInner e (encode i)) := by
  simp [issue, h, hw, hg, hb]

/-- A command whose checks fail. -/
theorem issue_guarded {i : Instr} {g : State → Option ErrCode} {body : State → Body} {s : State} {e : ErrCode}
    (h : s.err = .none) (hw : i.wellFormed = true) (hg : g s = some e) :
    issue i g body s = .next (s.recordFault e (encode i)) := by
  simp [issue, h, hw, hg]

/-- A faulted core refuses every command. -/
theorem issue_refused {i : Instr} {g : State → Option ErrCode} {body : State → Body} {s : State} (h : s.err ≠ .none) :
    issue i g body s = .next s := by
  simp [issue, h]

theorem issue_answers_next (i : Instr) (g : State → Option ErrCode) (body : State → Body) (s : State) :
    ∃ t, issue i g body s = .next t := by
  rcases issue_cases i g body s with ⟨-, h⟩ | ⟨-, -, h⟩ | ⟨-, -, _, -, h⟩ | ⟨-, -, -, _, -, h⟩ | ⟨-, -, -, _, _, -, h⟩ <;>
    exact ⟨_, h⟩

end Sys2Proof.Machine
end

