-- ==== Sys2Proof/Laws/Memory.lean ====
section
/-! SUPPORT. The form of the streams (`Memory.wf`: spec/00_scope.md R5, spec/10_state.md R15, R16) holds at reset, and every
operation on them keeps it. -/

namespace Sys2Proof.Machine

theorem memory_wf_reset : Memory.wf State.reset := by decide

/-- `InRead()` keeps the form where its precondition holds (R37). -/
theorem memory_wf_inRead {s : State} (h : Memory.wf s) (b : Byte) (hb : s.inByte? = some b) :
    Memory.wf (inRead s).final := by
  obtain ⟨h1, h2, h3, h4⟩ := h
  obtain ⟨-, e⟩ | ⟨-, e⟩ := inRead_cases s <;> rw [e]
  · exact ⟨h1, h2, h3, h4⟩
  · have hlt : s.icur.toNat < s.input.length := by
      simp only [State.inByte?] at hb
      exact (List.getElem?_eq_some_iff.mp hb).1
    refine ⟨h1, ?_, h3, h4⟩
    simp only [Body.final_done, State.advanceInput_icur, State.dropDraw_icur, State.advanceInput_input,
      State.dropDraw_input, BitVec.toNat_add, BitVec.toNat_ofNat]
    omega

/-- Pushing bytes keeps the form. -/
theorem memory_wf_pushAll {s : State} (h : Memory.wf s) (bs : List Byte) : Memory.wf (s.pushAll bs) := by
  obtain ⟨h1, h2, h3, h4⟩ := h
  refine ⟨h1, h2, ?_, h4⟩
  simp only [State.pushAll_olen, State.pushAll_out, h3, List.length_append, BitVec.ofNat_add]

theorem memory_wf_outBytes {s : State} (h : Memory.wf s) (bs : List Byte) : Memory.wf (outBytes bs s).final := by
  obtain e | ⟨k, -, e⟩ := outBytes_cases bs s <;> rw [e]
  · exact memory_wf_pushAll h bs
  · exact memory_wf_pushAll h _

theorem memory_wf_outByte {s : State} (h : Memory.wf s) (b : Byte) : Memory.wf (outByte b s).final := by
  rw [outByte_eq_outBytes]; exact memory_wf_outBytes h _

/-- A sequence keeps the form when its parts do. -/
theorem memory_wf_andThen {b : Body} {k : State → Body} (hb : Memory.wf b.final)
    (hk : ∀ m, Memory.wf m → Memory.wf (k m).final) : Memory.wf (b.andThen k).final := by
  cases b with
  | done m => exact hk m hb
  | raised e m => exact hb

theorem memory_wf_pushBit {s : State} (h : Memory.wf s) (b : Bool) : Memory.wf (pushBit b s).final := by
  unfold pushBit
  dsimp only
  split
  · exact memory_wf_andThen (memory_wf_outByte h _) fun m hm => hm
  · exact h

theorem memory_wf_pushBits {s : State} (h : Memory.wf s) (bits : List Bool) : Memory.wf (pushBits bits s).final := by
  induction bits generalizing s with
  | nil => exact h
  | cons b bits ih => exact memory_wf_andThen (memory_wf_pushBit h b) fun m hm => ih hm

theorem memory_wf_bitFlush {s : State} (h : Memory.wf s) : Memory.wf (bitFlush s).final := by
  unfold bitFlush
  split
  · exact h
  · exact memory_wf_andThen (memory_wf_outByte h _) fun m hm => hm

theorem memory_wf_forInput {body : Byte → State → Body}
    (hbody : ∀ b s, Memory.wf s → Memory.wf (body b s).final) (turns : Nat) {s : State} (h : Memory.wf s) :
    Memory.wf (forInput body turns s).final := by
  induction turns generalizing s with
  | zero => exact h
  | succ n ih =>
    unfold forInput
    split
    · exact h
    · next b hb =>
      exact memory_wf_andThen (memory_wf_inRead h b hb) fun m hm =>
        memory_wf_andThen (hbody b m hm) fun k hk => ih hk

/-- Hardware reset gives the form whatever it was before, if the input it presents and those to come are below 2^64 bytes. -/
theorem memory_wf_hardReset {s : State} (l : List Byte) (hl : l.length < 2 ^ 64)
    (hp : s.pending.all HostAccess.presentable = true) : Memory.wf (hardReset l s) :=
  ⟨hl, Nat.zero_le _, rfl, hp⟩

end Sys2Proof.Machine
end

