-- ==== Sys2Proof/Laws/Meanings.lean ====
section
/-! SUPPORT. What the bodies of the commands change, one lemma per body, and the arms of exec as calls of `issue`. -/

namespace Sys2Proof.Machine

/-! ### Every arm is a call of issue -/

theorem exec_count (s : State) : exec .count s = issue .count noGuard countBody s := rfl
theorem exec_rewind (s : State) : exec .rewind s = issue .rewind noGuard rewindBody s := rfl
theorem exec_tbuild (s : State) : exec .tbuild s = issue .tbuild noGuard tbuildBody s := rfl
theorem exec_cgen (s : State) : exec .cgen s = issue .cgen needTree cgenBody s := rfl
theorem exec_bwrite (pat : BitVec 32) (n : BitVec 8) (s : State) :
    exec (.bwrite pat n) s = issue (.bwrite pat n) noGuard (bitAppend (bwritePattern pat) (bwriteCount n)) s := rfl
theorem exec_bclose (s : State) : exec .bclose s = issue .bclose noGuard bitFlush s := rfl
theorem exec_hdr (s : State) : exec .hdr s = issue .hdr needEmptyWriter hdrBody s := rfl
theorem exec_tser (s : State) : exec .tser s = issue .tser (bothGuards needTree needEmptyWriter) tserBody s := rfl
theorem exec_emit (y : Byte) (s : State) :
    exec (.emit y) s = issue (.emit y) (bothGuards needCodes (needCodeOf y)) (sendCode y) s := rfl
theorem exec_payload (s : State) : exec .payload s = issue .payload needCodes payloadBody s := rfl
theorem exec_encode (s : State) : exec .encode s = issue .encode needEmptyWriter encodeBody s := rfl

/-! ### The frequency counter -/

/-- Only the table, the cursor and the used-up draws differ. -/
structure CountsOnly (s t : State) : Prop where
  olen : t.olen = s.olen
  tree : t.tree = s.tree
  tvalid : t.tvalid = s.tvalid
  code : t.code = s.code
  cvalid : t.cvalid = s.cvalid
  bw : t.bw = s.bw
  err : t.err = s.err
  errinfo : t.errinfo = s.errinfo
  input : t.input = s.input
  out : t.out = s.out
  pending : t.pending = s.pending
  replies : t.replies = s.replies
  free : t.free = s.free

theorem CountsOnly.rfl' (s : State) : CountsOnly s s := by constructor <;> rfl

theorem CountsOnly.trans (a b c : State) (h : CountsOnly a b) (k : CountsOnly b c) : CountsOnly a c := by
  obtain ⟨h1, h2, h3, h4, h5, h6, h7, h8, h9, h10, h11, h12, h13⟩ := h
  obtain ⟨k1, k2, k3, k4, k5, k6, k7, k8, k9, k10, k11, k12, k13⟩ := k
  constructor <;> simp only [*]

theorem countsOnly_inRead (s : State) : CountsOnly s (inRead s).final := by
  obtain ⟨-, h⟩ | ⟨-, h⟩ := inRead_cases s <;> rw [h] <;> constructor <;> simp

theorem countsOnly_countByte (b : Byte) (s : State) : CountsOnly s (countByte b s).final := by
  unfold countByte
  split <;> constructor <;> simp

/-- `COUNT`'s body: the flags are cleared, and otherwise only the table, the cursor and the draws differ. -/
theorem countsOnly_countBody (s : State) : CountsOnly s.clearValid.clearFreq (countBody s).final :=
  forInput_final _ CountsOnly.rfl' CountsOnly.trans _ countsOnly_inRead countsOnly_countByte _ _

theorem memory_wf_countByte (b : Byte) (s : State) (h : Memory.wf s) : Memory.wf (countByte b s).final := by
  unfold countByte
  split <;> exact h

theorem memory_wf_countBody {s : State} (h : Memory.wf s) : Memory.wf (countBody s).final :=
  memory_wf_forInput memory_wf_countByte _ (s := s.clearValid.clearFreq) h

/-! ### The tree builder -/

/-- `TBUILD`'s body: done with a new tree and the flags, or an overflow with both flags cleared; nothing else differs but
the tree state. -/
theorem tbuildBody_cases (s : State) :
    (∃ t, tbuildBody s = .done (s.clearValid.setTree t).markTree) ∨
      ∃ t, tbuildBody s = .raised .cntOvf (s.clearValid.setTree t) := by
  unfold tbuildBody
  dsimp only
  split
  · exact .inr ⟨_, rfl⟩
  · exact .inl ⟨_, rfl⟩

/-- `PopMin` moves one of the two fronts and touches no node. -/
theorem popMin_cases (b : Builder) :
    (b.takesLeaf = true ∧ b.popMin = (b.lh, { b with lh := b.lh + 1 })) ∨
      (b.takesLeaf = false ∧ b.popMin = (b.mh, { b with mh := b.mh + 1 })) := by
  cases h : b.takesLeaf <;> simp [Builder.popMin, h]

@[simp] theorem popMin_node (b : Builder) : b.popMin.2.node = b.node := by
  obtain ⟨-, h⟩ | ⟨-, h⟩ := popMin_cases b <;> rw [h]
@[simp] theorem popMin_nleaf (b : Builder) : b.popMin.2.nleaf = b.nleaf := by
  obtain ⟨-, h⟩ | ⟨-, h⟩ := popMin_cases b <;> rw [h]
@[simp] theorem popMin_mt (b : Builder) : b.popMin.2.mt = b.mt := by
  obtain ⟨-, h⟩ | ⟨-, h⟩ := popMin_cases b <;> rw [h]

/-- One merge: the sum of the two popped counts, and the node over them at the back of the merge queue (R67). -/
theorem mergeStep_eq (b : Builder) :
    b.mergeStep =
      let x := b.popMin.1
      let y := b.popMin.2.popMin.1
      let c := (nodeAt b.node x).cnt.toNat + (nodeAt b.node y).cnt.toNat
      if Config.cntMax < c then none else some (b.popMin.2.popMin.2.pushMerged (internalNode x y c)) := rfl

/-! ### The code-table generator -/

/-- The walk of `CGEN` changes nothing but the code table. -/
theorem genCodes_final (depth i : Nat) (pat : Pattern) (len : CodeLen) (s : State) :
    ∃ c, (genCodes depth i pat len s).final = { s with code := c } := by
  induction depth generalizing i pat len s with
  | zero => exact ⟨s.code, rfl⟩
  | succ d ih =>
    unfold genCodes
    dsimp only
    split
    · exact ⟨_, rfl⟩
    · split
      · refine Body.final_andThen (fun a b => ∃ c, b = { a with code := c }) ?_ (ih _ _ _ s) fun m => ih _ _ _ m
        rintro a b c ⟨x, rfl⟩ ⟨y, rfl⟩
        exact ⟨y, rfl⟩
      · exact ⟨s.code, rfl⟩

/-- `CGEN`'s body changes nothing but the code table and `CVALID`. -/
theorem cgenBody_final (s : State) : ∃ c v, (cgenBody s).final = { s with code := c, cvalid := v } := by
  have key : ∃ c, (genFromRoot (s.setCvalid false).clearCode).final = { s with code := c, cvalid := false } := by
    unfold genFromRoot
    dsimp only
    split
    · exact ⟨_, rfl⟩
    · split
      · exact ⟨_, rfl⟩
      · obtain ⟨c, h⟩ := genCodes_final Config.nnodeMax (s.setCvalid false).clearCode.tree.root.toNat 0#256 0#9
          (s.setCvalid false).clearCode
        exact ⟨c, h⟩
  obtain ⟨c, h⟩ := key
  unfold cgenBody
  cases hb : genFromRoot (s.setCvalid false).clearCode with
  | done m =>
    rw [hb] at h
    simp only [Body.final_done] at h
    subst h
    exact ⟨c, true, rfl⟩
  | raised e m =>
    rw [hb] at h
    simp only [Body.final_raised] at h
    subst h
    exact ⟨c, false, rfl⟩

/-! ### The encoder -/

theorem streamsOnly_serNodes (depth i : Nat) (s : State) : StreamsOnly s (serNodes depth i s).final := by
  induction depth generalizing i s with
  | zero => exact .rfl' s
  | succ d ih =>
    unfold serNodes
    dsimp only
    split
    · exact streamsOnly_outBytes _ s
    · split
      · exact Body.final_andThen _ StreamsOnly.trans
          (Body.final_andThen _ StreamsOnly.trans (streamsOnly_outBytes _ s) fun m => ih _ m) fun m => ih _ m
      · exact .rfl' s

theorem streamsOnly_tserBody (s : State) : StreamsOnly s (tserBody s).final := by
  refine Body.final_andThen _ StreamsOnly.trans ?_ fun m => streamsOnly_outBytes _ m
  unfold serTree
  split
  · exact .rfl' s
  · exact streamsOnly_serNodes _ _ s

theorem streamsOnly_hdrBody (s : State) : StreamsOnly s (hdrBody s).final := streamsOnly_outBytes _ s

theorem streamsOnly_sendCode (y : Byte) (s : State) : StreamsOnly s (sendCode y s).final := streamsOnly_bitAppend _ _ s

theorem streamsOnly_payloadByte (b : Byte) (s : State) : StreamsOnly s (payloadByte b s).final := by
  unfold payloadByte
  split
  · exact streamsOnly_sendCode b s
  · exact .rfl' s

theorem streamsOnly_payloadBody (s : State) : StreamsOnly s (payloadBody s).final :=
  forInput_final _ StreamsOnly.rfl' StreamsOnly.trans _ streamsOnly_inRead streamsOnly_payloadByte _ s

theorem memory_wf_serNodes (depth i : Nat) {s : State} (h : Memory.wf s) : Memory.wf (serNodes depth i s).final := by
  induction depth generalizing i s with
  | zero => exact h
  | succ d ih =>
    unfold serNodes
    dsimp only
    split
    · exact memory_wf_outBytes h _
    · split
      · exact memory_wf_andThen (memory_wf_andThen (memory_wf_outBytes h _) fun m hm => ih _ hm) fun m hm => ih _ hm
      · exact h

theorem memory_wf_tserBody {s : State} (h : Memory.wf s) : Memory.wf (tserBody s).final := by
  refine memory_wf_andThen ?_ fun m hm => memory_wf_outBytes hm _
  unfold serTree
  split
  · exact h
  · exact memory_wf_serNodes _ _ h

theorem memory_wf_payloadByte (b : Byte) (s : State) (h : Memory.wf s) : Memory.wf (payloadByte b s).final := by
  unfold payloadByte
  split
  · exact memory_wf_pushBits h _
  · exact h

theorem memory_wf_payloadBody {s : State} (h : Memory.wf s) : Memory.wf (payloadBody s).final :=
  memory_wf_forInput memory_wf_payloadByte _ h

/-- The bytes a record is sent as are its word's, least significant first. -/
theorem wordBytes_eq_littleEndian (w : Word) : wordBytes w = littleEndian w := by
  refine List.map_congr_left fun k _ => BitVec.eq_of_toNat_eq ?_
  simp [BitVec.extractLsb'_toNat, Nat.shiftRight_eq_div_pow]

theorem nodeBytes_eq (n : Node) : nodeBytes n = wordBytes (recordWord n) := (wordBytes_eq_littleEndian _).symm

/-- A walk sees what `childrenLive` tests. -/
theorem childrenLive_eq_false_iff (t : TreeMem) (n : Node) :
    childrenLive t n = false ↔ t.nnode.toNat ≤ n.left.toNat ∨ t.nnode.toNat ≤ n.right.toNat := by
  simp only [childrenLive, Bool.and_eq_false_iff, decide_eq_false_iff_not, Nat.not_lt]

end Sys2Proof.Machine
end

