-- ==== Sys2Proof/Laws/PerInstr.lean ====
section
/-! SUPPORT. The laws stated per instruction. Family `MatchesRow`: the encoder's word of an instruction lies in its row of the
opcode table, `w & mask == match`, and carries its operands (spec/30_encoding.md R50, R51). -/

namespace Sys2Proof.Laws.MatchesRow

/-- The word of `i` is selected by the row of `i` and carries the operands of `i`. -/
def Statement (i : Instr) : Prop :=
  Sys2Proof.encode i &&& rowMask i = rowMatch i ∧ rowOperands i (Sys2Proof.encode i) = true

theorem count : Statement .count := by unfold Statement; decide
theorem rewind : Statement .rewind := by unfold Statement; decide
theorem tbuild : Statement .tbuild := by unfold Statement; decide
theorem cgen : Statement .cgen := by unfold Statement; decide

theorem bwrite (pat : BitVec 32) (n : BitVec 8) : Statement (.bwrite pat n) := by
  constructor
  · refine BitVec.eq_of_getLsbD_eq fun i hi => ?_
    rw [BitVec.getLsbD_and, Sys2Proof.encode, cmdWord_getLsbD, rowMask, rowMatch]
    interval_cases i <;> simp
  · have h1 : pat = (Sys2Proof.encode (.bwrite pat n)).extractLsb' 0 32 := (cmdPat_cmdWord 5#8 n pat).symm
    have h2 : n = (Sys2Proof.encode (.bwrite pat n)).extractLsb' 48 8 := (cmdA_cmdWord 5#8 n pat).symm
    simp [rowOperands, ← h1, ← h2]

theorem bclose : Statement .bclose := by unfold Statement; decide
theorem hdr : Statement .hdr := by unfold Statement; decide
theorem tser : Statement .tser := by unfold Statement; decide

theorem emit (sym : Byte) : Statement (.emit sym) := by
  have h : ∀ sym : BitVec 8, Sys2Proof.encode (.emit sym) &&& rowMask (.emit sym) = rowMatch (.emit sym) ∧
      rowOperands (.emit sym) (Sys2Proof.encode (.emit sym)) = true := by decide +kernel
  exact h sym

theorem payload : Statement .payload := by unfold Statement; decide
theorem encode : Statement .encode := by unfold Statement; decide

end Sys2Proof.Laws.MatchesRow
end

