-- ==== Sys2Proof/Tests/Slice0.lean ====
section
/-! SUPPORT. Tests of single steps against the vectors of spec/95_test_vectors.md, and a witness for the hypotheses of each
statement of Certificates/Slice0/Obligations.lean. Expected values are the spec's, never the model's own answers. -/

-- One theorem at a time: checked in parallel they need more thread stacks than the compile's memory limit allows.
set_option Elab.async false

namespace Sys2Proof.Tests

open Sys2Proof.Machine

/-! ### Helpers -/

/-- The state a command leaves. -/
def after (i : Instr) (s : State) : State :=
  match exec i s with
  | .next t => t
  | .fault _ => s
  | .refused _ => s

/-- The state one step leaves. -/
def afterStep (s : State) : State :=
  match step s with
  | .next t => t
  | .fault _ => s
  | .refused _ => s

/-- Reset with an input. -/
def fresh (input : List Byte) : State := { State.reset with input := input }

/-- `"aaabbc"` (R7). -/
def aaabbc : List Byte := [0x61, 0x61, 0x61, 0x62, 0x62, 0x63]

/-- Bits pending in the writer after `BWRITE 0xAC, 5` (S2). -/
def pendingBits : State := { State.reset with bw := { buf := 0x0C, cur := 5 } }

/-- After `COUNT` of `"aaabbc"` (T1.1). -/
def counted : State := { ((State.reset.setFreq 0x61 3).setFreq 0x62 2).setFreq 0x63 1 with input := aaabbc, icur := 6 }

/-- The tree of `"aaabbc"` (T2.1). -/
def treeOfAaabbc : TreeMem :=
  { node := writeNodes [⟨true, 0x63, 1, 0x1FF, 0x1FF⟩, ⟨true, 0x62, 2, 0x1FF, 0x1FF⟩, ⟨true, 0x61, 3, 0x1FF, 0x1FF⟩,
      ⟨false, 0, 3, 0, 1⟩, ⟨false, 0, 6, 2, 3⟩] 0 (Vector.replicate 511 Node.dead)
    nleaf := 3
    nnode := 5
    root := 4 }

/-- After `TBUILD` (T2.1). -/
def built : State := { counted with tree := treeOfAaabbc, tvalid := true }

/-- After `CGEN` (T4.1): a = 0, b = 1 1, c = 1 0. -/
def coded : State :=
  { ((built.setCode 0x61 ⟨true, 1, 0⟩).setCode 0x62 ⟨true, 2, 3⟩).setCode 0x63 ⟨true, 2, 1⟩ with cvalid := true }

/-- After a second `REWIND`. -/
def rewound : State := { coded with icur := 0 }

/-- The tree of a lone leaf 7A: 4 (T2.4). -/
def loneLeaf : State :=
  { State.reset with
    tree := { node := writeNodes [⟨true, 0x7A, 4, 0x1FF, 0x1FF⟩] 0 (Vector.replicate 511 Node.dead)
              nleaf := 1, nnode := 1, root := 0 }
    tvalid := true }

/-- The tree state of an empty table (T2.3). -/
def noTree : State := { State.reset with tvalid := true }

/-- A faulted state: `CGEN` from reset (P6). -/
def faulted : State := after .cgen (fresh aaabbc)

theorem exec_answers_next (i : Instr) (s : State) : ∃ t, exec i s = .next t := by
  cases i <;> simp only [exec, execCount, execRewind, execTbuild, execCgen, execBwrite, execBclose, execHdr, execTser,
    execEmit, execPayload, execEncode] <;> apply issue_answers_next

theorem exec_eq_after (i : Instr) (s : State) : exec i s = .next (after i s) := by
  obtain ⟨t, h⟩ := exec_answers_next i s
  simp [after, h]

/-! ### Syntax and decoding (R49 to R52) -/

theorem test_wellFormed_refuses_bwrite_33 : (Instr.bwrite 0xFFFFFFFF 33).wellFormed = false := by decide
theorem test_wellFormed_accepts_bwrite_32 : (Instr.bwrite 0xFFFFFFFF 32).wellFormed = true := by decide

-- The words of 95_test_vectors.md, P2, T6, T12 and R100.
theorem test_decode_count : decode 0x0100000000000000 = .ok .count := by decide
theorem test_decode_rewind : decode 0x0200000000000000 = .ok .rewind := by decide
theorem test_decode_tbuild : decode 0x0300000000000000 = .ok .tbuild := by decide
theorem test_decode_cgen : decode 0x0400000000000000 = .ok .cgen := by decide
theorem test_decode_bwrite : decode 0x05200000DEADBEEF = .ok (.bwrite 0xDEADBEEF 32) := by decide
theorem test_decode_bclose : decode 0x0600000000000000 = .ok .bclose := by decide
theorem test_decode_hdr : decode 0x0700000000000000 = .ok .hdr := by decide
theorem test_decode_tser : decode 0x0800000000000000 = .ok .tser := by decide
theorem test_decode_emit : decode 0x097A000000000000 = .ok (.emit 0x7A) := by decide
theorem test_decode_payload : decode 0x0A00000000000000 = .ok .payload := by decide
theorem test_decode_encode : decode 0x0B00000000000000 = .ok .encode := by decide

-- T14.1 to T14.6, T6.18, T6.19.
theorem test_decode_zero_word : decode 0 = .error .badOpcode := by decide
theorem test_decode_opcode_0C : decode 0x0C00000000000000 = .error .badOpcode := by decide
theorem test_decode_count_with_a : decode 0x0101000000000000 = .error .fixedBitSet := by decide
theorem test_decode_rewind_with_pat : decode 0x0200000000000001 = .error .fixedBitSet := by decide
theorem test_decode_emit_with_pat : decode 0x0961000000000001 = .error .fixedBitSet := by decide
theorem test_decode_bwrite_33 : decode 0x05210000FFFFFFFF = .error .countAbove32 := by decide
theorem test_decode_bwrite_reserved : decode 0x05080001000000AC = .error .fixedBitSet := by decide
theorem test_decodeTableWord : decodeTableWord 64 0x0961000000000000 = some (.emit 0x61) := by decide

/-! ### Commands -/

-- T1.1.
theorem test_count_aaabbc :
    (fun t : State => (freqAt t.freq 0x61, freqAt t.freq 0x62, freqAt t.freq 0x63, freqAt t.freq 0x64, t.icur, t.statusWord))
      (after .count (fresh aaabbc)) = (3, 2, 1, 0, 6, 0x8) := by decide +kernel
-- T1.8.
theorem test_count_read_error :
    (fun t : State => (t.err, t.errinfo, t.icur, freqAt t.freq 0x61, t.statusWord))
      (after .count { fresh aaabbc with ioErrs := [false, false, true] }) =
        (.io, 0x0100000000000000, 2, 2, 0x4) := by decide +kernel
-- R59's example.
theorem test_rewind : (after .rewind counted).icur = 0 := by decide +kernel
-- T2.1: the leaf ties with the internal node and is popped first.
theorem test_tbuild_aaabbc :
    (fun t : State => (t.tvalid, t.tree.root, t.tree.nleaf, t.tree.nnode, (List.range 5).map (nodeAt t.tree.node)))
      (after .tbuild counted) = (true, 4, 3, 5, (List.range 5).map (nodeAt treeOfAaabbc.node)) := by decide +kernel
-- T3.3.
theorem test_tbuild_overflow :
    (fun t : State => (t.err, t.errinfo, t.tvalid))
      (after .tbuild ((State.reset.setFreq 0 0x7FFFFFFFFFFFFF).setFreq 1 1)) =
        (.cntOvf, 0x0300000000000000, false) := by decide +kernel
-- T4.1.
theorem test_cgen_aaabbc :
    (fun t : State => (t.cvalid, codeAt t.code 0x61, codeAt t.code 0x62, codeAt t.code 0x63)) (after .cgen built) =
      (true, (⟨true, 1, 0⟩ : CodeEntry), (⟨true, 2, 3⟩ : CodeEntry), (⟨true, 2, 1⟩ : CodeEntry)) := by decide +kernel
-- T4.14: the lone leaf.
theorem test_cgen_lone_leaf :
    codeAt (after .cgen loneLeaf).code 0x7A = ⟨true, 1, 0⟩ := by decide +kernel
-- T6.5: crossing a byte boundary.
theorem test_bwrite_crosses_byte :
    (fun t : State => (t.out, t.bw)) (after (.bwrite 0x1FF 9) (after (.bwrite 5 3) State.reset)) =
      ([0xFD], ⟨0x0F, 4⟩) := by decide +kernel
-- T6.10: 32 bits at an odd position.
theorem test_bwrite_32_at_odd_position :
    (fun t : State => (t.out, t.bw, t.olen)) (after (.bwrite 0xDEADBEEF 32) (after (.bwrite 1 1) State.reset)) =
      ([0xDF, 0x7D, 0x5B, 0xBD], ⟨1, 1⟩, 4) := by decide +kernel
-- S2.
theorem test_bclose_pads : (fun t : State => (t.out, t.bw)) (after .bclose pendingBits) = ([0x0C], ⟨0, 0⟩) := by
  decide +kernel
-- T6.14.
theorem test_bclose_on_empty_writer : exec .bclose State.reset = .next State.reset := rfl
-- T6.20.
theorem test_hdr_order : (fun t : State => (t.err, t.errinfo, t.out)) (after .hdr pendingBits) =
    (.order, 0x0700000000000000, []) := by decide +kernel
-- R95's example.
theorem test_hdr_length : (fun t : State => (t.out.length, t.olen)) (after .hdr State.reset) = (8, 8) := by
  decide +kernel
-- T7.5: the tree of 61: 1, 62: 1, 63: 2.
theorem test_tser_t7_5 :
    (after .tser (after .tbuild (((State.reset.setFreq 0x61 1).setFreq 0x62 1).setFreq 0x63 2))).out =
      [8, 0, 0, 0, 0, 0, 0, 0, 5, 0, 0, 0, 0, 0, 0, 0x63, 4, 0, 0, 0, 0, 0, 0, 0, 3, 0, 0, 0, 0, 0, 0, 0x61,
        3, 0, 0, 0, 0, 0, 0, 0x62, 0, 0, 0, 0, 0, 0, 0, 0] := by decide +kernel
-- 95_test_vectors.md, T7: SEQ is tested before ORDER.
theorem test_tser_seq_before_order : (after .tser pendingBits).err = .seq := by decide +kernel
-- T12.1.
theorem test_emit_c : (fun t : State => (t.out, t.bw)) (after (.emit 0x63) coded) = ([], ⟨1, 2⟩) := by decide +kernel
-- T12.7.
theorem test_emit_without_code : (fun t : State => (t.err, t.errinfo)) (after (.emit 0x7A) coded) =
    (.noCode, 0x097A000000000000) := by decide +kernel
-- T12.4.
theorem test_payload_aaabbc : (fun t : State => (t.out, t.bw, t.icur)) (after .payload rewound) =
    ([0xF8], ⟨0, 1⟩, 6) := by decide +kernel
-- T12.9.
theorem test_payload_no_code :
    (fun t : State => (t.err, t.errinfo, t.icur))
      (after .payload (after .cgen (after .tbuild (fresh [0x78, 0x79, 0x7A])))) =
        (.noCode, 0x0A00000000000000, 1) := by decide +kernel
-- T13.8: 5 leaves' worth of payload in one full byte.
theorem test_encode_t13_8 :
    (fun t : State => (t.out.drop 8, t.olen, t.statusWord)) (after .encode (fresh [0, 0xFF, 0, 0xFF, 1])) =
      ([0x0A, 0, 0, 0, 0, 0, 0, 0, 5, 0, 0, 0, 0, 0, 0, 0xFF, 6, 0, 0, 0, 0, 0, 0, 0, 3, 0, 0, 0, 0, 0, 0, 1,
        5, 0, 0, 0, 0, 0, 0, 0, 0, 0, 0, 0, 0, 0, 0, 0, 0x5B], 57, 0xB) := by decide +kernel
-- T15.2: the 12th push of the run errs.
theorem test_encode_push_error :
    (fun t : State => (t.err, t.out.drop 8, t.olen, t.icur, t.statusWord))
      (after .encode { fresh aaabbc with ioErrs := List.replicate 17 false ++ [true] }) =
        (.io, [0x0C, 0, 0], 11, 6, 0xF) := by decide +kernel

/-! ### The port -/

-- T2, register reads after T2.1 and T4.1.
theorem test_read_nodew : regRead 0x204 coded = 0x000000000000000C := by decide +kernel
theorem test_read_link_leaf : regRead 0x400 coded = 0x0000000001FF01FF := by decide +kernel
theorem test_read_link_root : regRead 0x404 coded = 0x0000000000030002 := by decide +kernel
theorem test_read_dead_node : (regRead 0x205 coded, regRead 0x405 coded) = (0, 0) := by decide +kernel
theorem test_read_clen : (regRead 0x661 coded, regRead 0x662 coded, regRead 0x664 coded) = (0x8001, 0x8002, 0) := by
  decide +kernel
theorem test_read_cpat : (regRead 0x988 coded, regRead 0x98C coded, regRead 0x98D coded) = (3, 1, 0) := by
  decide +kernel
-- T14.11.
theorem test_read_unmapped : (regRead 0x009 coded, regRead 0x3FF coded, regRead 0x5FF coded, regRead 0x700 coded,
    regRead 0xFFF coded, regRead 0x000 coded) = (0, 0, 0, 0, 0, 0) := by decide +kernel
-- T3.4.
theorem test_write_freq_too_wide :
    (fun t : State => (t.err, t.errinfo, freqAt t.freq 0))
      (afterStep { State.reset with pending := [.write 0x100 0x0080000000000000] }) = (.ill, 0x100, 0) := by
  decide +kernel
-- T14.13: the write clears both flags.
theorem test_write_freq_clears_flags :
    (fun t : State => (t.tvalid, t.cvalid, freqAt t.freq 0x61))
      (afterStep { coded with pending := [.write 0x161 3] }) = (false, false, 3) := by decide +kernel
-- T14.10.
theorem test_write_read_only :
    (fun t : State => (t.err, t.errinfo)) (afterStep { State.reset with pending := [.write 0x200 1] }) =
      (.ill, 0x200) := by decide +kernel
-- T14.12: refused in the faulted state.
theorem test_write_refused : freqAt (afterStep { faulted with pending := [.write 0x161 5] }).freq 0x61 = 0 := by
  decide +kernel
-- P6.
theorem test_reset_ends_the_fault :
    (fun t : State => (t.err, t.errinfo, t.input)) (afterStep { faulted with pending := [.reset [0x61]] }) =
      (.none, 0, [0x61]) := by decide +kernel
-- A command word as the first access after reset.
theorem test_withFetchWord_bwrite :
    (fun t : State => (t.out, t.bw)) (afterStep (State.reset.withFetchWord 64 0x05050000000000AC)) =
      ([], ⟨0x0C, 5⟩) := by decide +kernel
-- P5's `SETFREQ 0x61, 1`.
theorem test_setFreq_expands : ScriptLine.expand (.setFreq 0x61 1) = [.write 0x161 1] := by decide

/-! ### Witnesses: states and operands that meet the hypotheses of the statements -/

theorem tbuild_counted_ends : (after .tbuild counted).err = .none := by decide +kernel
theorem encode_fresh_ends : (after .encode (fresh aaabbc)).err = .none := by decide +kernel
theorem leafCount_counted : leafCount counted.freq = 3 := by decide +kernel
theorem leafCount_reset : leafCount State.reset.freq = 0 := by decide +kernel
theorem freqTotal_counted : freqTotal counted.freq = 6 := by decide +kernel

theorem witness_HardResetGivesResetState :
    ({ faulted with pending := [.reset aaabbc, .read 1] } : State).pending = .reset aaabbc :: [.read 1] := rfl

theorem witness_DecodeInvertsEncode : (Instr.bwrite 0xDEADBEEF 32).wellFormed = true := by decide

theorem witness_EncodeInvertsDecode : decode 0x05200000DEADBEEF = .ok (.bwrite 0xDEADBEEF 32) := by decide

theorem witness_IllegalWordsRaiseIll :
    (fun s : State => s.err = .none ∧ s.pending = .write 0x000#12 0x0C00000000000000#64 :: [.read 2] ∧
      decode 0x0C00000000000000#64 = .error .badOpcode)
      { State.reset with pending := [.write 0x000#12 0x0C00000000000000#64, .read 2] } := by
  refine ⟨rfl, rfl, by decide⟩

theorem witness_StepRunsTheCommandWritten :
    (fun s : State => s.err = .none ∧ s.pending = .write 0x000#12 0x0B00000000000000#64 :: [.read 1] ∧
      decode 0x0B00000000000000#64 = .ok .encode)
      { State.reset with pending := [.write 0x000#12 0x0B00000000000000#64, .read 1] } := by
  refine ⟨rfl, rfl, by decide⟩

theorem witness_SequenceFaultIsPrecise :
    State.reset.err = .none ∧ State.reset.tvalid = false ∧ State.reset.cvalid = false := by decide

theorem witness_OrderFaultIsPrecise :
    (fun s : State => s.err = .none ∧ s.bw.cur ≠ 0#3 ∧ s.tvalid = true)
      { built with bw := { buf := 0#8, cur := 1#3 } } := by decide +kernel

/-- Accepted, too wide, and refused. -/
theorem witness_FreqWindowReadsAndWrites :
    (fun s : State => s.pending = .write (BitVec.ofNat 12 (0x100 + (0xFF#8).toNat)) 0x007FFFFFFFFFFFFF#64 :: [] ∧
      s.err = .none ∧ (0x007FFFFFFFFFFFFF#64).extractLsb' 55 9 = 0#9)
      { State.reset with pending := [.write 0x1FF#12 0x007FFFFFFFFFFFFF#64] } ∧
    (fun s : State => s.pending = .write (BitVec.ofNat 12 (0x100 + (0#8).toNat)) 0x0080000000000000#64 :: [] ∧
      s.err = .none ∧ (0x0080000000000000#64).extractLsb' 55 9 ≠ 0#9)
      { State.reset with pending := [.write 0x100#12 0x0080000000000000#64] } ∧
    (fun s : State => s.pending = .write (BitVec.ofNat 12 (0x100 + (0x61#8).toNat)) 5#64 :: [] ∧ s.err ≠ .none)
      { faulted with pending := [.write 0x161#12 5#64] } := by decide +kernel

/-- The last live node, the first dead one, and the last of the window. -/
theorem witness_NodeWindowsRead :
    (coded.tvalid = true ∧ 4 < coded.tree.nnode.toNat) ∧ ¬ (coded.tvalid = true ∧ 5 < coded.tree.nnode.toNat) ∧
      ¬ (coded.tvalid = true ∧ 510 < coded.tree.nnode.toNat) := by decide +kernel

theorem witness_CodeWindowsRead :
    (coded.cvalid = true ∧ (coded.code[(0x63#8).toNat]'(0x63#8).isLt).valid = true) ∧
      ¬ (coded.cvalid = true ∧ (coded.code[(0xFF#8).toNat]'(0xFF#8).isLt).valid = true) := by decide +kernel

/-- Numbers at the edges of the ranges: a write that raises `ILL`, a refused one, and a read of the first unmapped number. -/
theorem witness_UnmappedAndReadOnlyRegisters :
    (fun s : State => s.pending = .write 0xC00#12 1#64 :: [] ∧ 0xC00 ≤ (0xC00#12).toNat ∧ s.err = .none)
      { State.reset with pending := [.write 0xC00#12 1#64] } ∧
    (fun s : State => s.pending = .write 0x001#12 1#64 :: [] ∧ 1 ≤ (0x001#12).toNat ∧ (0x001#12).toNat ≤ 0xFF ∧
      s.err ≠ .none) { faulted with pending := [.write 0x001#12 1#64] } ∧
    (fun s : State => s.pending = .read 0x009#12 :: [] ∧ 9 ≤ (0x009#12).toNat ∧ (0x009#12).toNat ≤ 0xFF)
      { coded with pending := [.read 0x009#12] } := by decide +kernel

/-- A write that `readOnly` speaks of, at the first and last number of each read-only window. -/
theorem witness_readOnly : ∀ a ∈ [0x001#12, 0x002#12, 0x008#12, BitVec.ofNat 12 (0x200 + 510), BitVec.ofNat 12 (0x400 + 0),
      BitVec.ofNat 12 (0x600 + (0xFF#8).toNat), BitVec.ofNat 12 (0x800 + 4 * (0xFF#8).toNat + 3)],
    ∃ (s : State) (v : Word) (rest : List HostAccess), s.pending = .write a v :: rest :=
  fun a _ => ⟨{ State.reset with pending := [.write a 1] }, 1, [], rfl⟩

theorem witness_ReadsChangeNothing :
    ({ coded with pending := [.read 0x204, .read 1] } : State).pending = .read 0x204 :: [.read 1] := rfl

theorem witness_EveryStepAnswersNext : State.reset.pending = [] := rfl

theorem witness_FaultedCoreRefusesAllButReset :
    (fun s : State => s.err ≠ .none ∧ s.pending = .write 0x000#12 0x0100000000000000#64 :: [])
      { faulted with pending := [.write 0x000#12 0x0100000000000000#64] } ∧
    (fun s : State => s.err ≠ .none ∧ s.pending = .read 3 :: []) { faulted with pending := [.read 3] } := by
  decide +kernel

theorem witness_CountMakesTheTable :
    (fun s : State => s.err = .none ∧ s.input.length < 2 ^ 64 ∧ s.icur.toNat ≤ s.input.length ∧ s.noIoErrors ∧
      countsFit s.remaining ∧ s.remaining ≠ []) (fresh aaabbc) := by decide +kernel

/-- An input of `n` + 1 zero bytes meets the statement's premises for `n` in place of `CNTMAX`. -/
theorem zeros_overflow (n : Nat) (hn : n + 1 < 2 ^ 64) :
    (fresh (List.replicate n 0#8 ++ [0#8])).input.length < 2 ^ 64 ∧
      (fresh (List.replicate n 0#8 ++ [0#8])).remaining = List.replicate n 0#8 ++ 0#8 :: [] ∧
      (∀ b, (List.replicate n 0#8).count b ≤ n) ∧ (List.replicate n 0#8).count 0#8 = n := by
  refine ⟨?_, rfl, fun b => ?_, List.count_replicate_self⟩
  · simpa only [fresh, List.length_append, List.length_replicate, List.length_singleton] using hn
  · exact List.count_le_length.trans (List.length_replicate).le

theorem witness_CountOverflowFault : ∃ (s : State) (pre post : List Byte) (b : Byte), s.err = .none ∧
    s.input.length < 2 ^ 64 ∧ s.icur.toNat ≤ s.input.length ∧ s.noIoErrors ∧ s.remaining = pre ++ b :: post ∧
    countsFit pre ∧ pre.count b = Config.cntMax :=
  have h := zeros_overflow Config.cntMax (by decide)
  ⟨_, _, [], 0#8, rfl, h.1, Nat.zero_le _, rfl, h.2.1, h.2.2.1, h.2.2.2⟩

theorem witness_CountReadErrorFault :
    (fun s : State => s.err = .none ∧ s.input.length < 2 ^ 64 ∧ s.icur.toNat ≤ s.input.length ∧
      s.ioErrs = List.replicate 2 false ++ true :: [] ∧ 2 < s.remaining.length ∧ countsFit (s.remaining.take 2))
      { fresh aaabbc with ioErrs := [false, false, true] } := by decide +kernel

theorem witness_RewindMovesOnlyTheCursor : counted.err = .none ∧ counted.icur ≠ 0#64 := by decide +kernel

/-- A table with leaves, and the empty one. -/
theorem witness_TbuildSortsLeavesAndSetsRoot :
    (counted.err = .none ∧ mergesFit counted.freq ∧ leafCount counted.freq = 3) ∧
      (State.reset.err = .none ∧ mergesFit State.reset.freq ∧ leafCount State.reset.freq = 0) :=
  ⟨⟨rfl, .inr (freqTotal_counted ▸ by decide), leafCount_counted⟩,
    ⟨rfl, .inl (leafCount_reset ▸ by decide), leafCount_reset⟩⟩

theorem witness_TbuildOverflowExactly :
    (fun s : State => s.err = .none ∧ 2 ≤ leafCount s.freq ∧ Config.cntMax < freqTotal s.freq)
      ((State.reset.setFreq 0 0x7FFFFFFFFFFFFF).setFreq 1 1) := by decide +kernel

theorem witness_TbuildMakesATree : ∃ t, counted.err = .none ∧ exec .tbuild counted = .next t ∧ t.err = .none ∧
    1 ≤ leafCount counted.freq :=
  ⟨_, rfl, exec_eq_after _ _, tbuild_counted_ends, leafCount_counted ▸ by decide⟩

theorem witness_MergeQueueNonDecreasing :
    ∃ b, mergeSteps 2 (startBuilder counted.freq counted.tree.node) = some b :=
  Option.isSome_iff_exists.mp (by decide +kernel)

theorem witness_PopMinTakesTheSmallest : ∃ b : Builder, b.ordered ∧ 0 < b.waiting := by
  refine ⟨{ node := Vector.replicate 511 Node.dead, nleaf := 2, lh := 1, mh := 2, mt := 3 }, ?_, by decide⟩
  refine ⟨by decide, by decide, by decide, fun i j hi hij hj => ?_, fun i j hi hij hj => ?_⟩ <;>
    simp only at hi hj <;> omega

theorem witness_TbuildDependsOnFreqAlone : ∃ s' u', counted.err = .none ∧ (after .rewind counted).err = .none ∧
    counted.freq = (after .rewind counted).freq ∧ exec .tbuild counted = .next s' ∧
    exec .tbuild (after .rewind counted) = .next u' ∧ s'.err = .none :=
  ⟨_, _, rfl, rfl, rfl, exec_eq_after _ _, exec_eq_after _ _, tbuild_counted_ends⟩

/-- A tree of three leaves, a lone leaf, and no tree. -/
theorem witness_CgenGivesPathCodes :
    (built.err = .none ∧ built.tvalid = true ∧ built.tree.sound = true) ∧
    (fun s : State => s.err = .none ∧ s.tvalid = true ∧ s.tree.sound = true)
      loneLeaf ∧
    (fun s : State => s.err = .none ∧ s.tvalid = true ∧ s.tree.sound = true) noTree := by
  decide +kernel

theorem witness_CgenCodesArePrefixFree : ∃ t, built.err = .none ∧ built.tvalid = true ∧ built.tree.sound = true ∧
    exec .cgen built = .next t ∧ (codeAt t.code 0x61).valid = true ∧ (codeAt t.code 0x62).valid = true ∧
    (codeAt t.code 0x61).len.toNat ≤ (codeAt t.code 0x62).len.toNat :=
  ⟨after .cgen built, by decide +kernel, by decide +kernel, by decide +kernel, exec_eq_after _ _, by decide +kernel,
    by decide +kernel, by decide +kernel⟩

/-- The tree of `"aaabbc"` with a broken node 3: the root and its left leaf are visited before it. -/
theorem witness_ImpossibleChildRaisesInvariant :
    (fun s : State => s.err = .none ∧ s.tvalid = true ∧ s.tree.root ≠ 0x1FF#9 ∧
      walkFrom Config.nnodeMax s.tree s.tree.root.toNat = some ([4, 2], false) ∧ s.bw.cur = 0#3 ∧
      ∀ e ∈ s.ioErrs.take (8 * [4, 2].length), e = false)
      { built with tree := { treeOfAaabbc with node := treeOfAaabbc.node.set 3 ⟨false, 0, 3, 0, 0x1FF⟩ } } := by
  decide +kernel

/-- No bits, an error-free write, and a write whose first push errs. -/
theorem witness_BwriteAppendsLowBits :
    (pendingBits.err = .none ∧ (32#8).toNat ≤ 32 ∧ pendingBits.writerClean ∧ pendingBits.noIoErrors) ∧
    (fun s : State => s.err = .none ∧ s.writerClean ∧ s.ioErrs = List.replicate 0 false ++ true :: [] ∧
      0 < (s.bw.cur.toNat + (3#8).toNat) / 8) { pendingBits with ioErrs := [true] } := by decide +kernel

theorem witness_BitAppendClosedForm : (256 : Nat) ≤ 256 ∧ pendingBits.writerClean ∧ pendingBits.noIoErrors := by
  decide

theorem witness_FlushedBitsArePacked :
    State.reset.bw = { buf := 0#8, cur := 0#3 } ∧ State.reset.noIoErrors := by decide

/-- Nothing pending, bits pending, and a failing push. -/
theorem witness_BcloseFlushesOnce :
    (State.reset.err = .none ∧ State.reset.bw.cur = 0#3) ∧
    (pendingBits.err = .none ∧ pendingBits.bw.cur ≠ 0#3 ∧ pendingBits.ioErrs.headD false = false) ∧
    (fun s : State => s.err = .none ∧ s.bw.cur ≠ 0#3 ∧ s.ioErrs.headD false = true)
      { pendingBits with ioErrs := [true] } := by decide

/-- Bits pending, the error-free case, and an error at the last push. -/
theorem witness_HdrWritesTheMagic :
    (pendingBits.err = .none ∧ pendingBits.bw.cur ≠ 0#3) ∧
    (State.reset.err = .none ∧ State.reset.bw.cur = 0#3 ∧ State.reset.noIoErrors) ∧
    (fun s : State => s.err = .none ∧ s.bw.cur = 0#3 ∧ s.ioErrs = List.replicate 7 false ++ true :: [])
      { State.reset with ioErrs := List.replicate 7 false ++ [true] } := by decide

theorem witness_TserWritesRecordsInPreorder :
    (built.err = .none ∧ built.tvalid = true ∧ built.bw.cur = 0#3 ∧ built.tree.sound = true ∧ built.noIoErrors) ∧
    (fun s : State => s.err = .none ∧ s.tvalid = true ∧ s.bw.cur = 0#3 ∧ s.tree.sound = true ∧
      s.ioErrs = List.replicate 3 false ++ true :: [] ∧ 3 < (treeBytes s.tree).length)
      { built with ioErrs := [false, false, false, true] } := by decide +kernel

/-- A symbol with a code, one without, and a code whose first push errs. -/
theorem witness_EmitSendsOneCode :
    (fun s : State => s.err = .none ∧ s.cvalid = true ∧ (codeAt s.code 0x63).valid = true ∧ s.writerClean ∧
      s.ioErrs = List.replicate 0 false ++ true :: [] ∧ 0 < (s.bw.cur.toNat + (codeAt s.code 0x63).len.toNat) / 8)
      { coded with bw := { buf := 0#8, cur := 7#3 }, ioErrs := [true] } ∧
    (coded.err = .none ∧ coded.cvalid = true ∧ (codeAt coded.code 0x63).valid = true ∧ coded.writerClean ∧
      coded.noIoErrors) ∧ (codeAt coded.code 0x7A).valid = false := by decide +kernel

theorem witness_PayloadSendsAllCodes :
    rewound.err = .none ∧ rewound.cvalid = true ∧ rewound.input.length < 2 ^ 64 ∧
      rewound.icur.toNat ≤ rewound.input.length ∧ rewound.writerClean ∧ rewound.noIoErrors ∧
      allCoded rewound.code rewound.remaining ∧ rewound.remaining ≠ [] := by decide +kernel

/-- The table of `"aaabbc"` over the input 61 7A. -/
theorem witness_PayloadStopsAtByteWithoutCode :
    (fun s : State => s.err = .none ∧ s.cvalid = true ∧ s.input.length < 2 ^ 64 ∧ s.icur.toNat ≤ s.input.length ∧
      s.writerClean ∧ s.noIoErrors ∧ s.remaining = [0x61#8] ++ 0x7A#8 :: [] ∧ allCoded s.code [0x61#8] ∧
      (codeAt s.code 0x7A#8).valid = false) { rewound with input := [0x61, 0x7A] } := by decide +kernel

/-- Over `"aaabbc"` with its table: the read of the byte after "aa" errs, and the push that the code of "c" completes
errs. -/
theorem witness_PayloadStopsAtStreamError :
    (fun s : State => s.err = .none ∧ s.cvalid = true ∧ s.input.length < 2 ^ 64 ∧ s.icur.toNat ≤ s.input.length ∧
      s.writerClean ∧ s.remaining = [0x61, 0x61] ++ 0x61#8 :: [0x62, 0x62, 0x63] ∧ allCoded s.code [0x61, 0x61] ∧
      s.ioErrs = List.replicate (2 + (s.bw.cur.toNat + (codeString s.code [0x61, 0x61]).length) / 8) false ++ true :: [])
      { rewound with ioErrs := [false, false, true] } ∧
    (fun s : State => s.err = .none ∧ s.cvalid = true ∧ s.input.length < 2 ^ 64 ∧ s.icur.toNat ≤ s.input.length ∧
      s.writerClean ∧ s.remaining = [0x61, 0x61, 0x61, 0x62, 0x62] ++ 0x63#8 :: [] ∧
      allCoded s.code [0x61, 0x61, 0x61, 0x62, 0x62] ∧ (codeAt s.code 0x63).valid = true ∧
      (s.bw.cur.toNat + (codeString s.code [0x61, 0x61, 0x61, 0x62, 0x62]).length) / 8 + 0 <
        (s.bw.cur.toNat + (codeString s.code ([0x61, 0x61, 0x61, 0x62, 0x62] ++ [0x63])).length) / 8 ∧
      s.ioErrs = List.replicate (5 + 1 +
        (s.bw.cur.toNat + (codeString s.code [0x61, 0x61, 0x61, 0x62, 0x62]).length) / 8 + 0) false ++ true :: [])
      { rewound with ioErrs := List.replicate 6 false ++ [true] } := by decide +kernel

/-- A run that ends without a fault, and one whose first read errs. -/
theorem witness_EncodeIsNineCommands :
    ((fresh aaabbc).err = .none ∧ (fresh aaabbc).bw.cur = 0#3 ∧ (after .encode (fresh aaabbc)).err = .none) ∧
      (fun s : State => s.err = .none ∧ s.bw.cur = 0#3 ∧ (after .encode s).err = .io)
        { fresh aaabbc with ioErrs := [true] } :=
  ⟨⟨rfl, rfl, encode_fresh_ends⟩, by decide +kernel⟩

theorem witness_EncodeWritesOneFile :
    (fun s : State => s.err = .none ∧ s.bw = { buf := 0#8, cur := 0#3 } ∧ s.noIoErrors ∧
      s.input.length ≤ Config.cntMax ∧ s.input ≠ []) (fresh aaabbc) := by decide

theorem witness_EncodeOfEmptyInput :
    State.reset.err = .none ∧ State.reset.bw = { buf := 0#8, cur := 0#3 } ∧ State.reset.noIoErrors ∧
      State.reset.input = [] := by decide

theorem witness_EncodeRoundTrip : ∃ t, (fresh aaabbc).err = .none ∧
    (fresh aaabbc).bw = { buf := 0#8, cur := 0#3 } ∧ (fresh aaabbc).out = [] ∧ (fresh aaabbc).input.length < 2 ^ 64 ∧
    exec .encode (fresh aaabbc) = .next t ∧ t.err = .none :=
  ⟨_, rfl, rfl, rfl, by decide, exec_eq_after _ _, encode_fresh_ends⟩

theorem witness_EncodeOutputDependsOnInputAlone : ∃ s' u', (fresh aaabbc).err = .none ∧ coded.err = .none ∧
    (fresh aaabbc).bw = { buf := 0#8, cur := 0#3 } ∧ coded.bw = { buf := 0#8, cur := 0#3 } ∧
    (fresh aaabbc).input = coded.input ∧ (fresh aaabbc).input.length < 2 ^ 64 ∧
    exec .encode (fresh aaabbc) = .next s' ∧ exec .encode coded = .next u' ∧ s'.err = .none ∧ u'.err = .none :=
  ⟨_, _, rfl, by decide +kernel, rfl, by decide +kernel, by decide +kernel, by decide, exec_eq_after _ _,
    exec_eq_after _ _, encode_fresh_ends, by decide +kernel⟩

/-- The fixed-length code 0, 10, 11 of the three symbols of `"aaabbc"`. -/
def rivalCode (y : Byte) : List Bool :=
  if y = 0x63 then [false] else if y = 0x62 then [true, false] else [true, true]

theorem witness_HuffmanOptimality : ∃ t, counted.err = .none ∧ execAll [.tbuild, .cgen] counted = .next t ∧
    t.err = .none ∧ prefixFree (sortedSymbols counted.freq) rivalCode ∧
    ∀ y ∈ sortedSymbols counted.freq, rivalCode y ≠ [] := by
  refine ⟨after .cgen (after .tbuild counted), by decide +kernel, ?_, by decide +kernel, by decide +kernel,
    by decide +kernel⟩
  simp only [execAll, exec_eq_after]

theorem witness_StepKeepsSafe : ∃ t, (fresh aaabbc).Safe ∧ step (fresh aaabbc) = .next t :=
  ⟨_, by decide, rfl⟩

theorem witness_StepKeepsFlagsTruthful : ∃ t, (fresh aaabbc).flagsTruthful ∧ step (fresh aaabbc) = .next t := by
  refine ⟨_, ⟨fun h => ?_, fun h => ?_⟩, rfl⟩ <;> simp [fresh, State.reset] at h

theorem witness_OutOnlyGrowsAndInStays : ∃ t, step coded = .next t ∧
    ∀ input rest, coded.pending ≠ .reset input :: rest := by
  have h : coded.pending = [] := by decide +kernel
  refine ⟨coded, ?_, fun input rest => by simp [h]⟩
  simp [step, portTurn, h]

theorem witness_FaultsRecordTheCommandWord : ∃ t, State.reset.err = .none ∧ Instr.cgen.wellFormed = true ∧
    State.reset.input.length < 2 ^ 64 ∧ exec .cgen State.reset = .next t ∧ t.err ≠ .none :=
  ⟨_, rfl, rfl, by decide, exec_eq_after _ _, by decide +kernel⟩

theorem witness_PreciseFaultsChangeNothing : ∃ t, State.reset.err = .none ∧ exec .payload State.reset = .next t ∧
    t.err = .seq :=
  ⟨_, rfl, exec_eq_after _ _, by decide +kernel⟩

theorem witness_CounterFrame : ∃ t, exec .count (fresh aaabbc) = .next t ∧ t.err = .none :=
  ⟨_, exec_eq_after _ _, by decide +kernel⟩

theorem witness_BuilderFrame : ∃ t, exec .tbuild counted = .next t ∧ t.err = .none :=
  ⟨_, exec_eq_after _ _, tbuild_counted_ends⟩

theorem witness_WriterFrame : ∃ t, exec (.bwrite 0xAC 5) pendingBits = .next t ∧ t.err = .none ∧
    1 = (pendingBits.bw.cur.toNat + (5#8).toNat) / 8 :=
  ⟨_, exec_eq_after _ _, by decide +kernel, by decide⟩

theorem witness_HeaderAndTreeFrame : ∃ t, exec .tser built = .next t ∧ built.tree.sound = true ∧ t.err = .none :=
  ⟨_, exec_eq_after _ _, by decide +kernel, by decide +kernel⟩

theorem witness_PayloadAndEncodeFrame : ∃ t u, exec .payload rewound = .next t ∧ rewound.input.length < 2 ^ 64 ∧
    t.err = .none ∧ exec .encode (fresh aaabbc) = .next u ∧ u.err = .none :=
  ⟨_, _, exec_eq_after _ _, by decide, by decide +kernel, exec_eq_after _ _, encode_fresh_ends⟩

end Sys2Proof.Tests
end

section
/-! SUPPORT. Every command is one call of `issue`, how a body ends, and what one access of the host can do, said once. -/

namespace Sys2Proof.Machine

/-! ### Commands as calls of issue -/

/-- The checks of a command before its body runs (R54 steps 3 and 4). -/
def guardOf : Instr → State → Option ErrCode
  | .count | .rewind | .tbuild | .bwrite _ _ | .bclose => noGuard
  | .cgen => needTree
  | .hdr | .encode => needEmptyWriter
  | .tser => bothGuards needTree needEmptyWriter
  | .emit y => bothGuards needCodes (needCodeOf y)
  | .payload => needCodes

/-- The pseudocode of a command (R54 step 5). -/
def bodyOf : Instr → State → Body
  | .count => countBody
  | .rewind => rewindBody
  | .tbuild => tbuildBody
  | .cgen => cgenBody
  | .bwrite pat n => bitAppend (bwritePattern pat) (bwriteCount n)
  | .bclose => bitFlush
  | .hdr => hdrBody
  | .tser => tserBody
  | .emit y => sendCode y
  | .payload => payloadBody
  | .encode => encodeBody

theorem exec_eq_issue (i : Instr) (s : State) : exec i s = issue i (guardOf i) (bodyOf i) s := by
  cases i <;> rfl

/-- What a command can do: it is refused, it raises a fault before its body runs, or its body runs. -/
theorem exec_cases {i : Instr} {s t : State} (h : exec i s = .next t) :
    (s.err ≠ .none ∧ t = s) ∨
    (s.err = .none ∧ ∃ e, t = s.recordFault e (encode i)) ∨
    (s.err = .none ∧ guardOf i s = none ∧ bodyOf i s = .done t) ∨
    (s.err = .none ∧ guardOf i s = none ∧ ∃ e m, bodyOf i s = .raised e m ∧ t = m.recordInner e (encode i)) := by
  rw [exec_eq_issue] at h
  obtain ⟨he, e⟩ | ⟨he, -, e⟩ | ⟨he, -, c, -, e⟩ | ⟨he, -, hg, m, hm, e⟩ | ⟨he, -, hg, c, m, hm, e⟩ :=
    issue_cases i (guardOf i) (bodyOf i) s <;> rw [e] at h <;> cases h
  · exact .inl ⟨he, rfl⟩
  · exact .inr (.inl ⟨he, _, rfl⟩)
  · exact .inr (.inl ⟨he, _, rfl⟩)
  · exact .inr (.inr (.inl ⟨he, hg, hm⟩))
  · exact .inr (.inr (.inr ⟨he, hg, c, m, hm, rfl⟩))

theorem needTree_eq_none {s : State} (h : needTree s = none) : s.tvalid = true := by
  by_contra hv
  simp [needTree, hv] at h

/-! ### How a body ends -/

/-- The body is done in a state with `P`, or raises a fault with `Q` of its code and state. -/
def Body.Ends (P : State → Prop) (Q : ErrCode → State → Prop) : Body → Prop
  | .done t => P t
  | .raised e t => Q e t

theorem Body.Ends.mono {P P' : State → Prop} {Q : ErrCode → State → Prop} {b : Body} (h : b.Ends P Q)
    (hP : ∀ t, P t → P' t) : b.Ends P' Q := by
  cases b with
  | done t => exact hP t h
  | raised e t => exact h

theorem Body.Ends.andThen {P R : State → Prop} {Q : ErrCode → State → Prop} {b : Body} {k : State → Body}
    (hb : b.Ends P Q) (hk : ∀ m, P m → (k m).Ends R Q) : (b.andThen k).Ends R Q := by
  cases b with
  | done m => exact hk m hb
  | raised e m => exact hb

/-- Where the final state has `P` whichever way the body ends. -/
theorem Body.ends_of_final {P : State → Prop} {b : Body} (h : P b.final) : b.Ends P fun _ => P := by
  cases b <;> exact h

/-! ### Steps -/

/-- A step leaves an idle core as it is, or takes the host's next access. -/
theorem step_cases {s t : State} (h : step s = .next t) :
    (s.pending = [] ∧ t = s) ∨ ∃ x rest, s.pending = x :: rest ∧ access x (s.setPending rest) = .next t := by
  unfold step portTurn at h
  split at h
  · next hp => cases h; exact .inl ⟨hp, rfl⟩
  · next x rest hp => exact .inr ⟨x, rest, hp, h⟩

theorem step_of_pending {s : State} {x : HostAccess} {rest : List HostAccess} (h : s.pending = x :: rest) :
    step s = access x (s.setPending rest) := by
  simp [step, portTurn, h]

theorem writeOther_of_faulted (a : RegNum) (v : Word) {s : State} (he : s.err ≠ .none) : writeOther a v s = s := by
  simp [writeOther, he]

theorem writeOther_of_freq {a : RegNum} {y : Byte} (v : Word) {s : State} (he : s.err = .none) (ha : regOf a = .freq y) :
    writeOther a v s = writeFreq a y v s := by
  simp [writeOther, he, ha]

/-- A number outside the `FREQ` window raises `ILL` with the number (R34). -/
theorem writeOther_of_not_freq {a : RegNum} (v : Word) {s : State} (he : s.err = .none) (ha : ∀ y, regOf a ≠ .freq y) :
    writeOther a v s = s.recordFault .ill (a.setWidth 64) := by
  cases hr : regOf a with
  | freq y => exact absurd hr (ha y)
  | _ => simp [writeOther, he, hr]

theorem writeFreq_of_wide {a : RegNum} {y : Byte} {v : Word} (s : State) (hv : v.extractLsb' 55 9 ≠ 0#9) :
    writeFreq a y v s = s.recordFault .ill (a.setWidth 64) := if_pos hv

theorem writeFreq_of_narrow {a : RegNum} {y : Byte} {v : Word} (s : State) (hv : v.extractLsb' 55 9 = 0#9) :
    writeFreq a y v s = (s.setFreq y (v.extractLsb' 0 55)).clearValid := if_neg (not_not.mpr hv)

/-- A write to a register other than `CMD` is refused, raises `ILL`, or stores an entry of `FREQ` (R31, R34). -/
theorem writeOther_cases (a : RegNum) (v : Word) (s : State) :
    (s.err ≠ .none ∧ writeOther a v s = s) ∨
    (s.err = .none ∧ writeOther a v s = s.recordFault .ill (a.setWidth 64)) ∨
    (s.err = .none ∧ ∃ y c, writeOther a v s = (s.setFreq y c).clearValid) := by
  by_cases he : s.err = .none
  · by_cases ha : ∃ y, regOf a = .freq y
    · obtain ⟨y, hy⟩ := ha
      rw [writeOther_of_freq v he hy]
      by_cases hv : v.extractLsb' 55 9 = 0#9
      · exact .inr (.inr ⟨he, y, _, writeFreq_of_narrow s hv⟩)
      · exact .inr (.inl ⟨he, writeFreq_of_wide s hv⟩)
    · exact .inr (.inl ⟨he, writeOther_of_not_freq v he (not_exists.mp ha)⟩)
  · exact .inl ⟨he, writeOther_of_faulted a v he⟩

/-- A write of the host is refused, raises `ILL`, stores an entry of `FREQ`, or runs a command (R28, R31, R34). -/
theorem regWrite_cases {a : RegNum} {v : Word} {s t : State} (h : regWrite a v s = .next t) :
    (s.err ≠ .none ∧ t = s) ∨
    (s.err = .none ∧ ∃ w, t = s.recordFault .ill w) ∨
    (s.err = .none ∧ ∃ y c, t = (s.setFreq y c).clearValid) ∨
    (s.err = .none ∧ ∃ i, exec i s = .next t) := by
  unfold regWrite at h
  split at h
  · unfold issueWord at h
    split at h
    · next he => cases h; exact .inl ⟨he, rfl⟩
    · next he =>
      rw [not_not] at he
      split at h
      · cases h; exact .inr (.inl ⟨he, _, rfl⟩)
      · next i _ => exact .inr (.inr (.inr ⟨he, i, h⟩))
  · cases h
    obtain ⟨he, e⟩ | ⟨he, e⟩ | ⟨he, y, c, e⟩ := writeOther_cases a v s
    · exact .inl ⟨he, e⟩
    · exact .inr (.inl ⟨he, _, e⟩)
    · exact .inr (.inr (.inl ⟨he, y, c, e⟩))

/-- A predicate that no reply and no change of the host's queue touches is kept by every step, if a recorded `ILL`, a store
to `FREQ`, every command and every reset keep it. -/
theorem step_keeps {P : State → Prop} {s t : State} (hs : P s) (h : step s = .next t)
    (hpending : ∀ x rest, s.pending = x :: rest → P (s.setPending rest))
    (hanswer : ∀ m v, P m → P (m.answer v))
    (hill : ∀ m w, m.err = .none → P m → P (m.recordFault .ill w))
    (hfreq : ∀ m y c, P m → P ((m.setFreq y c).clearValid))
    (hexec : ∀ i m, P m → exec i m = .next t → P t)
    (hreset : ∀ input rest, s.pending = .reset input :: rest → P (hardReset input (s.setPending rest))) : P t := by
  obtain ⟨-, rfl⟩ | ⟨x, rest, hp, hx⟩ := step_cases h
  · exact hs
  · have hm := hpending x rest hp
    cases x with
    | write a v =>
      obtain ⟨-, rfl⟩ | ⟨he, w, rfl⟩ | ⟨-, y, c, rfl⟩ | ⟨-, i, hi⟩ := regWrite_cases hx
      · exact hm
      · exact hill _ w he hm
      · exact hfreq _ y c hm
      · exact hexec i _ hm hi
    | read a => cases hx; exact hanswer _ _ hm
    | reset input => cases hx; exact hreset input rest hp

end Sys2Proof.Machine
end
section
/-! SUPPORT. The invariant `Safe`: every operation of a command keeps what it says of a running command, and so every step
keeps it (O50). -/

namespace Sys2Proof.Machine

/-! ### The invariant inside a command -/

/-- What a command keeps while it runs, the cursor at `c` and the input `inp`: the form of the streams, `CVALID` only with
`TVALID`, and a clean writer. -/
structure State.At (c : Word) (inp : List Byte) (s : State) : Prop where
  wf : Memory.wf s
  flags : s.cvalid = true → s.tvalid = true
  clean : s.writerClean
  icur : s.icur = c
  input : s.input = inp

/-- What is left of `State.At` when a fault has been raised: its code is not `NONE`, and the writer and the cursor may be
anywhere. -/
def FaultFormed (e : ErrCode) (t : State) : Prop :=
  e ≠ .none ∧ Memory.wf t ∧ (t.cvalid = true → t.tvalid = true)

theorem State.At.faultFormed {c : Word} {inp : List Byte} {s : State} (h : s.At c inp) {e : ErrCode} (he : e ≠ .none) :
    FaultFormed e s :=
  ⟨he, h.wf, h.flags⟩

/-- The statement that a piece of pseudocode keeps `State.At`, wherever the cursor is. -/
def KeepsAt (body : State → Body) : Prop :=
  ∀ (c : Word) (inp : List Byte) (s : State), s.At c inp → (body s).Ends (State.At c inp) FaultFormed

theorem KeepsAt.done : KeepsAt .done := fun _ _ _ h => h

theorem KeepsAt.andThen {j k : State → Body} (hj : KeepsAt j) (hk : KeepsAt k) :
    KeepsAt fun s => (j s).andThen k := fun c inp s h => (hj c inp s h).andThen (hk c inp)

theorem State.At.dropDraw {c : Word} {inp : List Byte} {s : State} (h : s.At c inp) : s.dropDraw.At c inp :=
  ⟨h.wf, h.flags, h.clean, h.icur, h.input⟩

theorem State.At.pushAll {c : Word} {inp : List Byte} {s : State} (h : s.At c inp) (bs : List Byte) :
    (s.pushAll bs).At c inp :=
  ⟨memory_wf_pushAll h.wf bs, h.flags, h.clean, h.icur, h.input⟩

theorem State.At.setWriter {c : Word} {inp : List Byte} {s : State} (h : s.At c inp) {buf : Byte} {cur : BitVec 3}
    (hc : buf.toNat < 2 ^ cur.toNat) : (s.setWriter buf cur).At c inp :=
  ⟨h.wf, h.flags, hc, h.icur, h.input⟩

theorem State.At.setEmptyWriter {c : Word} {inp : List Byte} {s : State} (h : s.At c inp) :
    (s.setWriter 0#8 0#3).At c inp := h.setWriter (by decide)

/-- A read where there is a byte moves the cursor on by one (R37). -/
theorem State.At.inRead {c : Word} {inp : List Byte} {s : State} (h : s.At c inp) {b : Byte} (hb : s.inByte? = some b) :
    (inRead s).Ends (State.At (c + 1#64) inp) FaultFormed := by
  have hwf := memory_wf_inRead h.wf b hb
  obtain ⟨-, e⟩ | ⟨-, e⟩ := inRead_cases s <;> rw [e] at hwf ⊢
  · exact h.dropDraw.faultFormed (by decide)
  · exact ⟨hwf, h.flags, h.clean, by simp [h.icur], h.input⟩

theorem keepsAt_outBytes (bs : List Byte) : KeepsAt (outBytes bs) := by
  intro c inp s h
  obtain e | ⟨k, -, e⟩ := outBytes_cases bs s <;> rw [e]
  · exact h.pushAll bs
  · exact (h.pushAll _).dropDraw.faultFormed (by decide)

theorem keepsAt_outByte (b : Byte) : KeepsAt (outByte b) := by
  intro c inp s h
  rw [outByte_eq_outBytes]
  exact keepsAt_outBytes [b] c inp s h

/-- A byte is pushed and the writer is empty: how a full byte and a flush end (R85, R87). -/
theorem keepsAt_outByte_setEmptyWriter (b : Byte) :
    KeepsAt fun s => (outByte b s).andThen fun t => .done (t.setWriter 0#8 0#3) :=
  (keepsAt_outByte b).andThen fun _ _ _ h => h.setEmptyWriter

/-- A bit put at position `BWCUR` below 7 leaves a clean writer with one bit more (R85). -/
theorem putBit_lt_two_pow_succ {buf : Byte} {cur : BitVec 3} (b : Bool) (h : buf.toNat < 2 ^ cur.toNat) (hc : cur ≠ 7#3) :
    (putBit buf cur b).toNat < 2 ^ (cur + 1#3).toNat := by
  have hcur : (cur + 1#3).toNat = cur.toNat + 1 := by bv_omega
  have hbit : b.toNat * 2 ^ cur.toNat ≤ 1 * 2 ^ cur.toNat := Nat.mul_le_mul_right _ (Bool.toNat_le b)
  rw [putBit_toNat buf cur b h, hcur, Nat.pow_succ]
  omega

theorem keepsAt_pushBit (b : Bool) : KeepsAt (pushBit b) := by
  intro c inp s h
  by_cases hc : s.bw.cur = 7#3
  · rw [pushBit_of_cur_eq b s hc]
    exact keepsAt_outByte_setEmptyWriter _ c inp s h
  · rw [pushBit_of_cur_lt b s hc]
    exact h.setWriter (putBit_lt_two_pow_succ b h.clean hc)

theorem keepsAt_pushBits (bits : List Bool) : KeepsAt (pushBits bits) := by
  induction bits with
  | nil => exact KeepsAt.done
  | cons b bits ih => exact (keepsAt_pushBit b).andThen ih

theorem keepsAt_bitFlush : KeepsAt bitFlush := by
  intro c inp s h
  unfold bitFlush
  split
  · exact h
  · exact keepsAt_outByte_setEmptyWriter _ c inp s h

/-- A loop over the input whose body keeps `State.At` ends with the cursor at the end of the input (R58, R99). -/
theorem forInput_reaches_end {body : Byte → State → Body} (hbody : ∀ b, KeepsAt (body b)) {inp : List Byte} (turns : Nat)
    {c : Word} {s : State} (h : s.At c inp) (hturns : inp.length - c.toNat ≤ turns) :
    (forInput body turns s).Ends (State.At (BitVec.ofNat 64 inp.length) inp) FaultFormed := by
  have hwf := h.wf
  obtain ⟨hlen, hle, -, -⟩ := hwf
  rw [h.input] at hlen
  rw [h.icur, h.input] at hle
  have atEnd (hend : inp.length ≤ c.toNat) : s.At (BitVec.ofNat 64 inp.length) inp := by
    have : c = BitVec.ofNat 64 inp.length := by bv_omega
    exact this ▸ h
  induction turns generalizing c s with
  | zero => exact atEnd (by omega)
  | succ n ih =>
    unfold forInput
    split
    · next hnone =>
      rw [State.inByte?, h.icur, h.input, List.getElem?_eq_none_iff] at hnone
      exact atEnd hnone
    · next b hb =>
      have hlt : c.toNat < inp.length := by
        rw [State.inByte?, h.icur, h.input] at hb
        exact (List.getElem?_eq_some_iff.mp hb).1
      have hsucc : (c + 1#64).toNat = c.toNat + 1 := by bv_omega
      refine (h.inRead hb).andThen fun m hm => (hbody b _ _ m hm).andThen fun k hk => ?_
      refine ih hk (by omega) (by omega) fun hend => ?_
      have : c + 1#64 = BitVec.ofNat 64 inp.length := by bv_omega
      exact this ▸ hk

theorem State.At.bytesLeft {c : Word} {inp : List Byte} {s : State} (h : s.At c inp) :
    inp.length - c.toNat = s.bytesLeft := by rw [State.bytesLeft, h.icur, h.input]

/-! ### The bodies of the commands -/

theorem keepsAt_countByte (b : Byte) : KeepsAt (countByte b) := by
  intro c inp s h
  unfold countByte
  split
  · exact h.faultFormed (by decide)
  · exact ⟨h.wf, h.flags, h.clean, h.icur, h.input⟩

/-- `COUNT` ends with the cursor at the end (R58). -/
theorem State.At.countBody {c : Word} {inp : List Byte} {s : State} (h : s.At c inp) :
    (countBody s).Ends (State.At (BitVec.ofNat 64 inp.length) inp) FaultFormed := by
  have hcleared : s.clearValid.clearFreq.At c inp := ⟨h.wf, by simp, h.clean, h.icur, h.input⟩
  exact forInput_reaches_end keepsAt_countByte _ hcleared hcleared.bytesLeft.le

/-- `REWIND` ends with the cursor at the start (R59). -/
theorem State.At.rewindBody {c : Word} {inp : List Byte} {s : State} (h : s.At c inp) :
    (rewindBody s).Ends (State.At 0#64 inp) FaultFormed := by
  obtain ⟨hlen, -, holen, hpend⟩ := h.wf
  exact ⟨⟨hlen, Nat.zero_le _, holen, hpend⟩, h.flags, h.clean, rfl, h.input⟩

/-- `TBUILD` keeps `State.At`, and when it ends `TVALID` is 1. -/
theorem State.At.tbuildBody {c : Word} {inp : List Byte} {s : State} (h : s.At c inp) :
    (tbuildBody s).Ends (fun t => t.At c inp ∧ t.tvalid = true) FaultFormed := by
  obtain ⟨t, e⟩ | ⟨t, e⟩ := tbuildBody_cases s <;> rw [e]
  · exact ⟨⟨h.wf, fun _ => rfl, h.clean, h.icur, h.input⟩, rfl⟩
  · exact ⟨by decide, h.wf, fun hc => by simp at hc⟩

theorem keepsAt_tbuildBody : KeepsAt tbuildBody := fun _ _ _ h => h.tbuildBody.mono fun _ ht => ht.1

/-- The walk of `CGEN` raises nothing but `INVARIANT` (R84). -/
theorem genCodes_raises_invariant {depth i : Nat} {pat : Pattern} {len : CodeLen} {s t : State} {e : ErrCode}
    (h : genCodes depth i pat len s = .raised e t) : e = .invariant := by
  induction depth generalizing i pat len s with
  | zero => cases h; rfl
  | succ d ih =>
    unfold genCodes at h
    dsimp only at h
    split at h
    · cases h
    · split at h
      · obtain hl | ⟨m, -, hr⟩ := Body.andThen_eq_raised.mp h
        · exact ih hl
        · exact ih hr
      · cases h; rfl

theorem cgenBody_raises_invariant {s t : State} {e : ErrCode} (h : cgenBody s = .raised e t) : e = .invariant := by
  obtain h | ⟨m, -, hm⟩ := Body.andThen_eq_raised.mp h
  · unfold genFromRoot at h
    dsimp only at h
    split at h
    · cases h
    · split at h
      · cases h
      · exact genCodes_raises_invariant h
  · cases hm

/-- `CGEN` with a valid tree keeps `State.At` (R81). -/
theorem State.At.cgenBody {c : Word} {inp : List Byte} {s : State} (h : s.At c inp) (ht : s.tvalid = true) :
    (cgenBody s).Ends (State.At c inp) FaultFormed := by
  obtain ⟨table, v, hfinal⟩ := cgenBody_final s
  cases e : Machine.cgenBody s with
  | done t =>
    rw [e, Body.final_done] at hfinal
    subst hfinal
    exact ⟨h.wf, fun _ => ht, h.clean, h.icur, h.input⟩
  | raised code t =>
    rw [e, Body.final_raised] at hfinal
    subst hfinal
    exact ⟨by simp [cgenBody_raises_invariant e], h.wf, fun _ => ht⟩

theorem keepsAt_serNodes (depth i : Nat) : KeepsAt (serNodes depth i) := by
  induction depth generalizing i with
  | zero => exact fun _ _ _ h => h.faultFormed (by decide)
  | succ d ih =>
    intro c inp s h
    unfold serNodes
    dsimp only
    split
    · exact keepsAt_outBytes _ c inp s h
    · split
      · exact ((keepsAt_outBytes _ c inp s h).andThen (ih _ c inp)).andThen (ih _ c inp)
      · exact h.faultFormed (by decide)

theorem keepsAt_tserBody : KeepsAt tserBody := by
  intro c inp s h
  refine Body.Ends.andThen (P := State.At c inp) ?_ (keepsAt_outBytes _ c inp)
  unfold serTree
  split
  · exact h
  · exact keepsAt_serNodes _ _ c inp s h

theorem keepsAt_sendCode (y : Byte) : KeepsAt (sendCode y) := fun c inp s => keepsAt_pushBits _ c inp s

theorem keepsAt_payloadByte (b : Byte) : KeepsAt (payloadByte b) := by
  intro c inp s h
  unfold payloadByte
  split
  · exact keepsAt_sendCode b c inp s h
  · exact h.faultFormed (by decide)

/-- `PAYLOAD` ends with the cursor at the end (R99). -/
theorem State.At.payloadBody {c : Word} {inp : List Byte} {s : State} (h : s.At c inp) :
    (payloadBody s).Ends (State.At (BitVec.ofNat 64 inp.length) inp) FaultFormed :=
  forInput_reaches_end keepsAt_payloadByte _ h h.bytesLeft.le

/-- `ENCODE` ends with the cursor at the end, as its `PAYLOAD` leaves it (R100). -/
theorem State.At.encodeBody {c : Word} {inp : List Byte} {s : State} (h : s.At c inp) :
    (encodeBody s).Ends (State.At (BitVec.ofNat 64 inp.length) inp) FaultFormed := by
  have counted := h.rewindBody.andThen fun _ h => h.countBody
  have coded := (counted.andThen fun _ h => h.tbuildBody).andThen fun _ h => h.1.cgenBody h.2
  have written := (coded.andThen (keepsAt_outBytes magicBytes _ _)).andThen (keepsAt_tserBody _ _)
  exact ((written.andThen fun _ h => h.rewindBody).andThen fun _ h => h.payloadBody).andThen (keepsAt_bitFlush _ _)

/-! ### Commands and steps -/

/-- `Safe` without a fault is `State.At` with the cursor at an end of the input. -/
theorem State.Safe.at {s : State} (h : s.Safe) (herr : s.err = .none) : s.At s.icur s.input :=
  ⟨h.1, h.2.1, (h.2.2 herr).1, rfl, rfl⟩

theorem State.At.safe {c : Word} {inp : List Byte} {t : State} (h : t.At c inp)
    (hc : c.toNat = 0 ∨ c.toNat = inp.length) : t.Safe :=
  ⟨h.wf, h.flags, fun _ => ⟨h.clean, by rw [State.cursorAtAnEnd, h.icur, h.input]; exact hc⟩⟩

theorem State.At.safe_of_end {inp : List Byte} {t : State} (h : t.At (BitVec.ofNat 64 inp.length) inp) : t.Safe := by
  have hlen : inp.length < 2 ^ 64 := h.input ▸ h.wf.1
  exact h.safe (.inr (by simpa using hlen))

/-- A recorded fault leaves the streams and the flags; the writer and the cursor no longer matter. -/
theorem State.Safe.recordFault {s : State} (h : s.Safe) (herr : s.err = .none) (e : ErrCode) (w : Word) :
    (s.recordFault e w).Safe := ⟨h.1, h.2.1, fun _ => h.2.2 herr⟩

theorem FaultFormed.recordInner_safe {e : ErrCode} {t : State} (h : FaultFormed e t) (w : Word) :
    (t.recordInner e w).Safe := ⟨h.2.1, h.2.2, fun he => absurd he h.1⟩

/-- A body that leaves the cursor where it was ends in `Safe`. -/
theorem KeepsAt.ends_safe {body : State → Body} (hbody : KeepsAt body) {s : State} (hs : s.Safe) (herr : s.err = .none) :
    (body s).Ends State.Safe FaultFormed :=
  (hbody _ _ s (hs.at herr)).mono fun _ ht => ht.safe (hs.2.2 herr).2

/-- The body of every command, run where its checks passed, ends in `Safe` or raises a fault with the streams and the flags in
form. -/
theorem bodyOf_ends_safe (i : Instr) {s : State} (hs : s.Safe) (herr : s.err = .none) (hg : guardOf i s = none) :
    (bodyOf i s).Ends State.Safe FaultFormed := by
  have hat := hs.at herr
  cases i with
  | count => exact hat.countBody.mono fun _ => State.At.safe_of_end
  | rewind => exact hat.rewindBody.mono fun _ ht => ht.safe (.inl rfl)
  | tbuild => exact keepsAt_tbuildBody.ends_safe hs herr
  | cgen => exact (hat.cgenBody (needTree_eq_none hg)).mono fun _ ht => ht.safe (hs.2.2 herr).2
  | bwrite pat n => exact (keepsAt_pushBits _).ends_safe hs herr
  | bclose => exact keepsAt_bitFlush.ends_safe hs herr
  | hdr => exact (keepsAt_outBytes _).ends_safe hs herr
  | tser => exact keepsAt_tserBody.ends_safe hs herr
  | emit y => exact (keepsAt_sendCode y).ends_safe hs herr
  | payload => exact hat.payloadBody.mono fun _ => State.At.safe_of_end
  | encode => exact hat.encodeBody.mono fun _ => State.At.safe_of_end

theorem exec_keeps_safe {i : Instr} {s t : State} (hs : s.Safe) (h : exec i s = .next t) : t.Safe := by
  obtain ⟨-, rfl⟩ | ⟨herr, e, rfl⟩ | ⟨herr, hg, hb⟩ | ⟨herr, hg, e, m, hb, rfl⟩ := exec_cases h
  · exact hs
  · exact hs.recordFault herr _ _
  · have hends := bodyOf_ends_safe i hs herr hg
    rw [hb] at hends
    exact hends
  · have hends := bodyOf_ends_safe i hs herr hg
    rw [hb] at hends
    exact hends.recordInner_safe _

theorem State.Safe.setPending {s : State} (hs : s.Safe) {x : HostAccess} {rest : List HostAccess}
    (hp : s.pending = x :: rest) : (s.setPending rest).Safe := by
  obtain ⟨⟨hlen, hle, holen, hall⟩, hflags, hfree⟩ := hs
  rw [hp, List.all_cons, Bool.and_eq_true] at hall
  exact ⟨⟨hlen, hle, holen, hall.2⟩, hflags, hfree⟩

/-- Hardware reset, with an input that can be presented, gives `Safe` (R35, R116). -/
theorem State.Safe.hardReset {s : State} (hs : s.Safe) {input : List Byte} {rest : List HostAccess}
    (hp : s.pending = .reset input :: rest) : (hardReset input (s.setPending rest)).Safe := by
  have hall := hs.1.2.2.2
  rw [hp, List.all_cons, Bool.and_eq_true] at hall
  obtain ⟨hinput, hrest⟩ := hall
  exact ⟨memory_wf_hardReset input (by simpa [HostAccess.presentable] using hinput) hrest, fun h => h,
    fun _ => ⟨show (0#8).toNat < 2 ^ (0#3).toNat by decide, .inl rfl⟩⟩

end Sys2Proof.Machine

namespace Sys2Proof.Proofs

open Sys2Proof.Machine

/-- Settles O50: every access of the host keeps `Safe`, the commands by `exec_keeps_safe`. -/
theorem stepKeepsSafe : Obligations.StepKeepsSafe := by
  intro s t hs h
  refine step_keeps hs h ?_ ?_ ?_ ?_ ?_ ?_
  · exact fun _ _ hp => hs.setPending hp
  · exact fun _ _ hm => hm
  · exact fun _ w herr hm => hm.recordFault herr .ill w
  · exact fun _ _ _ hm => ⟨hm.1, fun hc => by simp at hc, hm.2.2⟩
  · exact fun _ _ hm => exec_keeps_safe hm
  · exact fun _ _ hp => hs.hardReset hp

end Sys2Proof.Proofs
end
section
/-! SUPPORT. `OUT` only grows and `IN` stays, but for a reset (O52). -/

namespace Sys2Proof.Machine

/-- `OUT` of `t` begins with `OUT` of `s`, and `IN` is the same (R11, R38). -/
structure OutExtends (s t : State) : Prop where
  out : s.out <+: t.out
  input : t.input = s.input

theorem OutExtends.of_eq {s t : State} (hout : t.out = s.out) (hin : t.input = s.input) : OutExtends s t :=
  ⟨hout ▸ List.prefix_refl _, hin⟩

theorem OutExtends.trans (a b c : State) (h : OutExtends a b) (k : OutExtends b c) : OutExtends a c :=
  ⟨h.out.trans k.out, k.input.trans h.input⟩

theorem StreamsOnly.outExtends {s t : State} (h : StreamsOnly s t) : OutExtends s t := ⟨h.out, h.input⟩

theorem outExtends_rewindBody (s : State) : OutExtends s (rewindBody s).final := .of_eq rfl rfl

theorem outExtends_countBody (s : State) : OutExtends s (countBody s).final :=
  .of_eq (countsOnly_countBody s).out (countsOnly_countBody s).input

theorem outExtends_tbuildBody (s : State) : OutExtends s (tbuildBody s).final := by
  obtain ⟨t, e⟩ | ⟨t, e⟩ := tbuildBody_cases s <;> rw [e] <;> exact .of_eq rfl rfl

theorem outExtends_cgenBody (s : State) : OutExtends s (cgenBody s).final := by
  obtain ⟨c, v, e⟩ := cgenBody_final s
  rw [e]
  exact .of_eq rfl rfl

theorem OutExtends.andThen {s : State} {b : Body} {k : State → Body} (hb : OutExtends s b.final)
    (hk : ∀ m, OutExtends m (k m).final) : OutExtends s (b.andThen k).final :=
  Body.final_andThen OutExtends OutExtends.trans hb hk

theorem outExtends_encodeBody (s : State) : OutExtends s (encodeBody s).final := by
  have built := ((outExtends_rewindBody s).andThen outExtends_countBody).andThen outExtends_tbuildBody
  have coded := built.andThen outExtends_cgenBody
  have written := (coded.andThen fun m => (streamsOnly_hdrBody m).outExtends).andThen
    fun m => (streamsOnly_tserBody m).outExtends
  exact ((written.andThen outExtends_rewindBody).andThen fun m => (streamsOnly_payloadBody m).outExtends).andThen
    fun m => (streamsOnly_bitFlush m).outExtends

theorem outExtends_bodyOf (i : Instr) (s : State) : OutExtends s (bodyOf i s).final := by
  cases i with
  | count => exact outExtends_countBody s
  | rewind => exact outExtends_rewindBody s
  | tbuild => exact outExtends_tbuildBody s
  | cgen => exact outExtends_cgenBody s
  | bwrite pat n => exact (streamsOnly_bitAppend _ _ s).outExtends
  | bclose => exact (streamsOnly_bitFlush s).outExtends
  | hdr => exact (streamsOnly_hdrBody s).outExtends
  | tser => exact (streamsOnly_tserBody s).outExtends
  | emit y => exact (streamsOnly_sendCode y s).outExtends
  | payload => exact (streamsOnly_payloadBody s).outExtends
  | encode => exact outExtends_encodeBody s

theorem exec_outExtends {i : Instr} {s t : State} (h : exec i s = .next t) : OutExtends s t := by
  have hbody := outExtends_bodyOf i s
  obtain ⟨-, rfl⟩ | ⟨-, e, rfl⟩ | ⟨-, -, hb⟩ | ⟨-, -, e, m, hb, rfl⟩ := exec_cases h
  · exact .of_eq rfl rfl
  · exact .of_eq rfl rfl
  · rwa [hb] at hbody
  · rw [hb] at hbody
    exact ⟨hbody.out, hbody.input⟩

end Sys2Proof.Machine

namespace Sys2Proof.Proofs

open Sys2Proof.Machine

/-- Settles O52: every command extends `OUT`, and no other access but a reset touches the streams. -/
theorem outOnlyGrowsAndInStays : Obligations.OutOnlyGrowsAndInStays := by
  intro s t h hreset
  have hext : OutExtends s t := by
    refine step_keeps (.of_eq rfl rfl) h ?_ ?_ ?_ ?_ ?_ ?_
    · exact fun _ _ _ => .of_eq rfl rfl
    · exact fun _ _ hm => ⟨hm.out, hm.input⟩
    · exact fun _ _ _ hm => ⟨hm.out, hm.input⟩
    · exact fun _ _ _ hm => ⟨hm.out, hm.input⟩
    · exact fun _ _ hm hexec => hm.trans _ _ _ (exec_outExtends hexec)
    · exact fun input rest hp => absurd hp (hreset input rest)
  obtain ⟨bytes, hbytes⟩ := hext.out
  exact ⟨⟨bytes, hbytes.symm⟩, hext.input⟩

end Sys2Proof.Proofs
end
section
/-! SUPPORT. The register map and the port (spec/10_state.md R27 to R35): which register a number names, what its view is as a
number, which numbers cannot be written; and the state at reset. -/

namespace Sys2Proof.Machine

/-! ### The map -/

theorem regOf_of_nine_le {a : RegNum} (h : 9 ≤ a.toNat) : regOf a = windowOf a.toNat := by
  unfold regOf
  split
  case h_10 => rfl
  all_goals omega

theorem windowOf_freq {n : Nat} (hn : n < 0x100) : windowOf (0x100 + n) = .freq (BitVec.ofNat 8 n) := by
  rw [windowOf, if_neg (by omega), if_pos (by omega), Nat.add_sub_cancel_left]

theorem windowOf_nodew {i : Nat} (hi : i < 511) : windowOf (0x200 + i) = .nodew i := by
  rw [windowOf, if_neg (by omega), if_neg (by omega), if_pos (by omega), Nat.add_sub_cancel_left]

theorem windowOf_link {i : Nat} (hi : i < 511) : windowOf (0x400 + i) = .link i := by
  rw [windowOf, if_neg (by omega), if_neg (by omega), if_neg (by omega), if_neg (by omega), if_pos (by omega),
    Nat.add_sub_cancel_left]

theorem windowOf_clen {n : Nat} (hn : n < 0x100) : windowOf (0x600 + n) = .clen (BitVec.ofNat 8 n) := by
  rw [windowOf, if_neg (by omega), if_neg (by omega), if_neg (by omega), if_neg (by omega), if_neg (by omega),
    if_neg (by omega), if_pos (by omega), Nat.add_sub_cancel_left]

theorem windowOf_cpat {n k : Nat} (hn : n < 0x100) (hk : k < 4) :
    windowOf (0x800 + 4 * n + k) = .cpat (BitVec.ofNat 8 n) (BitVec.ofNat 2 k) := by
  rw [windowOf, if_neg (by omega), if_neg (by omega), if_neg (by omega), if_neg (by omega), if_neg (by omega),
    if_neg (by omega), if_neg (by omega), if_neg (by omega), if_pos (by omega),
    show (0x800 + 4 * n + k - 0x800) / 4 = n by omega, show (0x800 + 4 * n + k - 0x800) % 4 = k by omega]

/-- The gaps of the map (R34). -/
theorem windowOf_unmapped {n : Nat}
    (hn : n ≤ 0xFF ∨ n = 0x3FF ∨ n = 0x5FF ∨ (0x700 ≤ n ∧ n ≤ 0x7FF) ∨ 0xC00 ≤ n) : windowOf n = .unmapped := by
  unfold windowOf
  split_ifs
  any_goals omega
  all_goals rfl

theorem windowOf_ne_freq {n : Nat} (hn : n < 0x100 ∨ 0x200 ≤ n) (y : Byte) : windowOf n ≠ .freq y := by
  unfold windowOf
  split_ifs
  any_goals omega
  all_goals exact nofun

/-- A register number in a window, from its offset. -/
theorem regOf_ofNat {n : Nat} (hlo : 9 ≤ n) (hhi : n < 2 ^ 12) : regOf (BitVec.ofNat 12 n) = windowOf n := by
  have hn : (BitVec.ofNat 12 n).toNat = n := Nat.mod_eq_of_lt hhi
  rw [regOf_of_nine_le (by omega), hn]

theorem regOf_freq (y : Byte) : regOf (BitVec.ofNat 12 (0x100 + y.toNat)) = .freq y := by
  rw [regOf_ofNat (by omega) (by omega), windowOf_freq y.isLt, BitVec.ofNat_toNat, BitVec.setWidth_eq]

theorem regOf_nodew {i : Nat} (hi : i < 511) : regOf (BitVec.ofNat 12 (0x200 + i)) = .nodew i := by
  rw [regOf_ofNat (by omega) (by omega), windowOf_nodew hi]

theorem regOf_link {i : Nat} (hi : i < 511) : regOf (BitVec.ofNat 12 (0x400 + i)) = .link i := by
  rw [regOf_ofNat (by omega) (by omega), windowOf_link hi]

theorem regOf_clen (y : Byte) : regOf (BitVec.ofNat 12 (0x600 + y.toNat)) = .clen y := by
  rw [regOf_ofNat (by omega) (by omega), windowOf_clen y.isLt, BitVec.ofNat_toNat, BitVec.setWidth_eq]

theorem regOf_cpat (y : Byte) {k : Nat} (hk : k < 4) :
    regOf (BitVec.ofNat 12 (0x800 + 4 * y.toNat + k)) = .cpat y (BitVec.ofNat 2 k) := by
  rw [regOf_ofNat (by omega) (by omega), windowOf_cpat y.isLt hk, BitVec.ofNat_toNat, BitVec.setWidth_eq]

theorem regOf_ne_freq {a : RegNum} (ha : a.toNat < 0x100 ∨ 0x200 ≤ a.toNat) (y : Byte) : regOf a ≠ .freq y := by
  unfold regOf
  split
  case h_10 => exact windowOf_ne_freq ha y
  all_goals exact nofun

/-! ### Numbers that cannot be written -/

/-- A write to a number other than `CMD` is `writeOther` (R12). -/
theorem step_write {s : State} {a : RegNum} {v : Word} {rest : List HostAccess} (ha : a ≠ 0#12)
    (hp : s.pending = .write a v :: rest) : step s = .next (writeOther a v (s.setPending rest)) := by
  rw [step_of_pending hp]
  exact if_neg ha

/-- Every number but `CMD` and those of the `FREQ` window is read-only (R34). -/
theorem readOnly_of_outside_freq {a : RegNum} (ha : (1 ≤ a.toNat ∧ a.toNat ≤ 0xFF) ∨ 0x200 ≤ a.toNat) : readOnly a := by
  intro s v rest hp
  have hcmd : a ≠ 0#12 := by bv_omega
  have hfreq : ∀ y, regOf a ≠ .freq y := regOf_ne_freq (by omega)
  rw [step_write hcmd hp]
  split
  · next he => rw [writeOther_of_not_freq (s := s.setPending rest) v he hfreq, ← BitVec.ofNat_toNat]; rfl
  · next he => rw [writeOther_of_faulted (s := s.setPending rest) a v he]; rfl

theorem readOnly_ofNat {n : Nat} (hlo : 0x200 ≤ n) (hhi : n < 2 ^ 12) : readOnly (BitVec.ofNat 12 n) :=
  readOnly_of_outside_freq (.inr (by rwa [BitVec.toNat_ofNat, Nat.mod_eq_of_lt hhi]))

/-! ### The views as numbers -/

/-- Fields side by side do not overlap: their values add. -/
theorem toNat_append_eq_add {m n : Nat} (x : BitVec m) (y : BitVec n) : (x ++ y).toNat = 2 ^ n * x.toNat + y.toNat := by
  rw [BitVec.toNat_append, ← Nat.shiftLeft_add_eq_or_of_lt y.isLt, Nat.shiftLeft_eq, Nat.mul_comm]

/-- `{sym, cnt, leaf}` as a number (R32). -/
theorem recordWord_toNat (n : Node) : (recordWord n).toNat = n.leaf.toNat + 2 * n.cnt.toNat + 2 ^ 56 * n.sym.toNat := by
  rw [recordWord, toNat_append_eq_add, toNat_append_eq_add, BitVec.toNat_ofBool]
  omega

/-- The `LINK` view as a number (R32). -/
theorem linkWord_toNat (n : Node) : (linkWord n).toNat = n.left.toNat + 2 ^ 16 * n.right.toNat := by
  have hl := n.left.isLt
  have hr := n.right.isLt
  have hshift : (n.right.setWidth 64 <<< 16).toNat = 2 ^ 16 * n.right.toNat := by
    rw [BitVec.toNat_shiftLeft, BitVec.toNat_setWidth, Nat.shiftLeft_eq]
    omega
  rw [linkWord, BitVec.toNat_or, hshift, BitVec.toNat_setWidth, Nat.mod_eq_of_lt (by omega), Nat.lor_comm,
    ← Nat.two_pow_add_eq_or_of_lt (by omega), Nat.add_comm]

/-- The `CLEN` view of a present entry as a number (R33). -/
theorem clenWord_toNat (c : CodeEntry) : (clenWord c).toNat = c.len.toNat + 2 ^ 15 := by
  have hlen := c.len.isLt
  rw [clenWord, BitVec.toNat_or, BitVec.toNat_setWidth, Nat.mod_eq_of_lt (by omega), Nat.lor_comm,
    show (0x8000#64).toNat = 2 ^ 15 * 1 by decide, ← Nat.two_pow_add_eq_or_of_lt (by omega), Nat.mul_one, Nat.add_comm]

/-- A word of the pattern of a present entry as a number (R33). -/
theorem cpatWord_toNat (c : CodeEntry) {k : Nat} (hk : k < 4) :
    (cpatWord c (BitVec.ofNat 2 k)).toNat = c.pat.toNat / 2 ^ (64 * k) % 2 ^ 64 := by
  rw [cpatWord, BitVec.extractLsb'_toNat, Nat.shiftRight_eq_div_pow, BitVec.toNat_ofNat, Nat.mod_eq_of_lt hk]

/-- A node index that `TVALID` masks, as a number (R30). -/
theorem masked_toNat (b : Bool) (x : NodeIdx) (d : Word) :
    (if b then x.setWidth 64 else d).toNat = if b then x.toNat else d.toNat := by
  rw [apply_ite BitVec.toNat, BitVec.toNat_setWidth, Nat.mod_eq_of_lt (by omega)]

theorem nodeAt_of_lt {m : Vector Node 511} {i : Nat} (hi : i < 511) : nodeAt m i = m[i] := dif_pos hi

theorem live_eq_true_iff (s : State) (i : Nat) : s.live i = true ↔ s.tvalid = true ∧ i < s.tree.nnode.toNat := by
  simp [State.live]

theorem coded_eq_true_iff (s : State) (y : Byte) : s.coded y = true ↔ s.cvalid = true ∧ (codeAt s.code y).valid = true := by
  simp [State.coded]

/-- The bits of `STATUS` (R29). -/
theorem statusWord_getLsbD (s : State) (k : Nat) :
    s.statusWord.getLsbD k = if k = 0 then s.tvalid else if k = 1 then s.cvalid else if k = 2 then s.faulted
      else if k = 3 then s.eos else false := by
  unfold State.statusWord
  simp only [BitVec.getLsbD_append, BitVec.getLsbD_ofBool, BitVec.getLsbD_zero]
  match k with
  | 0 | 1 | 2 | 3 => simp
  | k + 4 => simp

/-! ### The state at reset -/

/-- From 0x200 on every number reads 0 when neither flag is set (R32, R33, R34). -/
theorem regRead_windows_of_flags_clear {s : State} (ht : s.tvalid = false) (hc : s.cvalid = false) {a : RegNum}
    (ha : 0x200 ≤ a.toNat) : regRead a s = 0#64 := by
  rw [regRead, regOf_of_nine_le (by omega)]
  unfold windowOf
  split_ifs
  any_goals omega
  all_goals simp [readReg, State.live, State.coded, ht, hc]

end Sys2Proof.Machine

namespace Sys2Proof.Proofs

open Sys2Proof.Machine

/-- Settles O10: the access is a write to `CMD`, and its word is legal. -/
theorem stepRunsTheCommandWritten : Obligations.StepRunsTheCommandWritten := by
  intro s w rest i he hp hd
  rw [step_of_pending hp]
  simp [access, regWrite, issueWord, he, hd, State.setPending]

/-- Settles O19: the step is the read, and a read is its answer. -/
theorem readsChangeNothing : Obligations.ReadsChangeNothing := fun _ _ _ hp => step_of_pending hp

/-- Settles O13: the number is outside the `FREQ` window, and the bits are those of `statusWord`. -/
theorem statusRegisterBits : Obligations.StatusRegisterBits := by
  refine ⟨readOnly_of_outside_freq (.inl (by decide)), statusWord_getLsbD, fun s input => ?_⟩
  change (hardReset input s).statusWord = _
  cases input <;> simp [State.statusWord, State.eos, State.faulted, State.reset]

/-- Settles O14: each number names its register, and the last three are masked. -/
theorem fixedRegistersRead : Obligations.FixedRegistersRead := by
  refine ⟨fun a h2 h8 => readOnly_of_outside_freq (.inl (by omega)), fun s => ?_⟩
  have herr : regRead 0x002#12 s = s.err.bits.setWidth 64 := rfl
  refine ⟨rfl, ?_, rfl, rfl, rfl, masked_toNat _ _ _, masked_toNat _ _ _, masked_toNat _ _ _⟩
  rw [herr]
  cases s.err <;> rfl

/-- Settles O15: the number is that of the entry, and a write to it is refused, raises `ILL` or stores. -/
theorem freqWindowReadsAndWrites : Obligations.FreqWindowReadsAndWrites := by
  intro s y v rest
  have hreg := regOf_freq y
  have hlt := y.isLt
  have hcmd : BitVec.ofNat 12 (0x100 + y.toNat) ≠ 0#12 := by bv_omega
  refine ⟨by rw [regRead, hreg]; rfl, fun hp => ?_⟩
  rw [step_write hcmd hp]
  refine ⟨fun he => ?_, fun he hv => ?_, fun he hv => ?_⟩
  · rw [writeOther_of_faulted (s := s.setPending rest) _ _ he]
    rfl
  · rw [writeOther_of_freq (s := s.setPending rest) v he hreg, writeFreq_of_wide _ hv]
    have hnum : (BitVec.ofNat 12 (0x100 + y.toNat)).setWidth 64 = BitVec.ofNat 64 (0x100 + y.toNat) := by bv_omega
    rw [hnum]
    rfl
  · rw [writeOther_of_freq (s := s.setPending rest) v he hreg, writeFreq_of_narrow _ hv]
    exact ⟨(s.setFreq y (v.extractLsb' 0 55)).freq, freqAt_setFreq_self s y _,
      fun z hz => freqAt_setFreq_ne s y z _ hz.symm, rfl⟩

/-- Settles O16: the two numbers are those of the node's views. -/
theorem nodeWindowsRead : Obligations.NodeWindowsRead := by
  refine ⟨fun i hi => ⟨readOnly_ofNat (by omega) (by omega), readOnly_ofNat (by omega) (by omega)⟩, fun s i hi => ?_⟩
  dsimp only
  rw [regRead, regRead, regOf_nodew hi, regOf_link hi, ← live_eq_true_iff, ← nodeAt_of_lt hi]
  refine ⟨fun hlive => ?_, fun hlive => ?_⟩
  · simp only [readReg, hlive, if_true, recordWord_toNat, linkWord_toNat, and_self]
  · simp only [readReg, hlive, Bool.false_eq_true, if_false, and_self]

/-- Settles O17: the two numbers are those of the entry's views. -/
theorem codeWindowsRead : Obligations.CodeWindowsRead := by
  refine ⟨fun y k hk => ⟨readOnly_ofNat (by omega) (by omega), readOnly_ofNat (by omega) (by omega)⟩, fun s y k hk => ?_⟩
  dsimp only
  rw [regRead, regRead, regOf_clen y, regOf_cpat y hk]
  have hshown : (s.cvalid = true ∧ (s.code[y.toNat]'y.isLt).valid = true) ↔ s.coded y = true :=
    (coded_eq_true_iff s y).symm
  rw [hshown]
  refine ⟨fun hc => ?_, fun hc => ?_⟩
  · simp only [readReg, hc, if_true, clenWord_toNat, cpatWord_toNat _ hk]
    exact ⟨rfl, rfl⟩
  · simp only [readReg, hc, Bool.false_eq_true, if_false, and_self]

/-- Settles O18: the gaps of the map name no register, and only `CMD` and the `FREQ` window can be written. -/
theorem unmappedAndReadOnlyRegisters : Obligations.UnmappedAndReadOnlyRegisters := by
  refine ⟨fun s a rest ha hp => ?_, fun a ha => readOnly_of_outside_freq ha⟩
  have hreg : regOf a = .unmapped := by
    rw [regOf_of_nine_le (by omega)]
    exact windowOf_unmapped (by omega)
  rw [readsChangeNothing s a rest hp, regRead, hreg]
  rfl

/-- Settles O1: the fields are those of the table, and with both flags clear every window reads 0. -/
theorem resetStateMatchesTable : Obligations.ResetStateMatchesTable := by
  refine ⟨rfl, rfl, rfl, ?_, rfl, rfl, rfl, rfl, rfl, rfl, rfl, rfl, rfl, ?_⟩
  · exact freqAt_clearFreq State.reset
  · exact fun a => regRead_windows_of_flags_clear rfl rfl

/-- Settles O2: the streams are in form, the writer is empty, the cursor is at the start, and both flags are clear. -/
theorem resetStateIsSafe : Obligations.ResetStateIsSafe :=
  ⟨⟨memory_wf_reset, nofun, fun _ => ⟨show (0#8).toNat < 2 ^ (0#3).toNat by decide, .inl rfl⟩⟩, nofun, nofun⟩

end Sys2Proof.Proofs
end
section
/-! SUPPORT. The leaves of `TBUILD`: the sorted byte values, and the node memory with the leaves in it (spec/41_tree_builder.md
R64). -/

namespace Sys2Proof.Machine

/-! ### The sorted byte values -/

theorem mem_allSymbols (y : Byte) : y ∈ allSymbols :=
  List.mem_map.mpr ⟨y.toNat, List.mem_range.mpr y.isLt, by simp⟩

theorem nodup_allSymbols : allSymbols.Nodup := by
  refine List.nodup_range.map_on fun i hi j hj h => ?_
  rw [List.mem_range] at hi hj
  bv_omega

/-- The byte values with a non-zero count, in ascending order of value. -/
def usedSymbols (f : Vector Count 256) : List Byte := allSymbols.filter fun y => decide (freqAt f y ≠ 0#55)

theorem sortedSymbols_perm (f : Vector Count 256) : (sortedSymbols f).Perm (usedSymbols f) := List.perm_insertionSort _ _

theorem mem_sortedSymbols (f : Vector Count 256) (y : Byte) : y ∈ sortedSymbols f ↔ freqAt f y ≠ 0#55 := by
  rw [(sortedSymbols_perm f).mem_iff, usedSymbols, List.mem_filter]
  simp [mem_allSymbols]

theorem nodup_sortedSymbols (f : Vector Count 256) : (sortedSymbols f).Nodup :=
  (sortedSymbols_perm f).nodup_iff.mpr (nodup_allSymbols.filter _)

theorem leafCount_le (f : Vector Count 256) : leafCount f ≤ 256 := by
  have hall : allSymbols.length = 256 := by simp [allSymbols]
  rw [leafCount, (sortedSymbols_perm f).length_eq, ← hall]
  exact List.length_filter_le _ _

theorem pairwise_leafBefore (f : Vector Count 256) : (sortedSymbols f).Pairwise (leafBefore f) := by
  have total : Std.Total (leafBefore f) := ⟨fun a b => by simp only [leafBefore]; omega⟩
  have trans : IsTrans Byte (leafBefore f) := ⟨fun a b c => by simp only [leafBefore]; omega⟩
  exact List.pairwise_insertionSort _ _

/-- The leaves are in strictly ascending order of count and then of byte value (R64). -/
theorem pairwise_sortedSymbols (f : Vector Count 256) :
    (sortedSymbols f).Pairwise fun x y => (freqAt f x).toNat < (freqAt f y).toNat ∨
      ((freqAt f x).toNat = (freqAt f y).toNat ∧ x.toNat < y.toNat) := by
  refine ((pairwise_leafBefore f).and (nodup_sortedSymbols f)).imp fun {x y} ⟨hle, hne⟩ => ?_
  have hval : x.toNat ≠ y.toNat := fun h => hne (BitVec.eq_of_toNat_eq h)
  simp only [leafBefore] at hle
  omega

/-- A list's sum does not change when entries that count nothing are left out. -/
theorem sum_map_filter {α : Type} (p : α → Bool) (g : α → Nat) (hp : ∀ a, p a = false → g a = 0) (l : List α) :
    ((l.filter p).map g).sum = (l.map g).sum := by
  induction l with
  | nil => rfl
  | cons a l ih => cases h : p a <;> simp [h, ih, hp]

/-- The leaves count the whole table. -/
theorem sum_sortedSymbols (f : Vector Count 256) :
    ((sortedSymbols f).map fun y => (freqAt f y).toNat).sum = freqTotal f := by
  rw [((sortedSymbols_perm f).map _).sum_eq, usedSymbols, freqTotal, sum_map_filter]
  intro y hy
  have hzero : freqAt f y = 0#55 := by simpa using hy
  rw [hzero]
  rfl

/-! ### The node memory -/

/-- Two node memories agree on the entries below `n`. -/
def AgreeBelow (n : Nat) (m m' : Vector Node 511) : Prop := ∀ i, i < n → nodeAt m i = nodeAt m' i

theorem agreeBelow_setIfInBounds (m : Vector Node 511) (n : Nat) (x : Node) : AgreeBelow n (m.setIfInBounds n x) m :=
  fun _ hi => nodeAt_setIfInBounds_ne m _ _ x (by omega)

theorem AgreeBelow.childAt_eq {n : Nat} {m m' : Vector Node 511} (h : AgreeBelow n m m') {l k : Nat} (hk : l + k / 2 < n) :
    childAt m l k = childAt m' l k := by
  simp only [childAt, h _ hk]

theorem AgreeBelow.nodeBefore_iff {n : Nat} {m m' : Vector Node 511} (h : AgreeBelow n m m') {i j : Nat} (hi : i < n)
    (hj : j < n) : nodeBefore m i j ↔ nodeBefore m' i j := by
  simp only [nodeBefore, h _ hi, h _ hj]

theorem nodeBefore.cnt_le {m : Vector Node 511} {i j : Nat} (h : nodeBefore m i j) :
    (nodeAt m i).cnt.toNat ≤ (nodeAt m j).cnt.toNat := by
  unfold nodeBefore at h
  omega

theorem nodeBefore.ne {m : Vector Node 511} {i j : Nat} (h : nodeBefore m i j) : i ≠ j := by
  rintro rfl
  unfold nodeBefore at h
  omega

theorem childAt_even (m : Vector Node 511) (l k : Nat) : childAt m l (2 * k) = (nodeAt m (l + k)).left.toNat := by
  simp [childAt]

theorem childAt_odd (m : Vector Node 511) (l k : Nat) : childAt m l (2 * k + 1) = (nodeAt m (l + k)).right.toNat := by
  simp [childAt, Nat.add_mod, show (2 * k + 1) / 2 = k by omega]

theorem nodeAt_writeNodes_of_lt (ns : List Node) {k i : Nat} (m : Vector Node 511) (hi : i < k) :
    nodeAt (writeNodes ns k m) i = nodeAt m i := by
  induction ns generalizing k m with
  | nil => rfl
  | cons n ns ih =>
    rw [writeNodes, ih _ (by omega), nodeAt_setIfInBounds_ne _ _ _ _ (by omega)]

theorem nodeAt_writeNodes {ns : List Node} {k i : Nat} {n : Node} (m : Vector Node 511) (hn : ns[i]? = some n)
    (hk : k + ns.length ≤ 511) : nodeAt (writeNodes ns k m) (k + i) = n := by
  induction ns generalizing k i m with
  | nil => simp at hn
  | cons a ns ih =>
    rw [List.length_cons] at hk
    cases i with
    | zero =>
      rw [List.getElem?_cons_zero, Option.some_inj] at hn
      have hlt : k < 511 := by omega
      change nodeAt (writeNodes ns (k + 1) (m.setIfInBounds k a)) k = n
      rw [nodeAt_writeNodes_of_lt _ _ k.lt_succ_self, nodeAt_setIfInBounds_self m k a hlt, hn]
    | succ i =>
      rw [List.getElem?_cons_succ] at hn
      have hrest : k + 1 + ns.length ≤ 511 := by omega
      rw [writeNodes, show k + (i + 1) = k + 1 + i by omega, ih (m.setIfInBounds k a) hn hrest]

/-- `TBUILD` starts with the leaves in order, at index 0 and on (R64). -/
theorem nodeAt_startBuilder {f : Vector Count 256} {i : Nat} {y : Byte} (m : Vector Node 511)
    (hy : (sortedSymbols f)[i]? = some y) : nodeAt (startBuilder f m).node i = leafNode f y := by
  have hlen : (sortedSymbols f).length ≤ 256 := leafCount_le f
  have hget : ((sortedSymbols f).map (leafNode f))[i]? = some (leafNode f y) := by simp [hy]
  have hfit : 0 + ((sortedSymbols f).map (leafNode f)).length ≤ 511 := by rw [List.length_map]; omega
  rw [startBuilder, ← nodeAt_writeNodes m hget hfit, Nat.zero_add]

end Sys2Proof.Machine
end
section
/-! SUPPORT. `PopMin` and `MergeStep` on ordered queues (spec/41_tree_builder.md R66, R67, R73): what a pop and a pair of pops
take, and what the nodes that wait count together. -/

namespace Sys2Proof.Machine

/-! ### PopMin -/

/-- What the nodes in both queues count together. -/
def Builder.weight (b : Builder) : Nat :=
  ∑ i ∈ Finset.Ico b.lh b.nleaf, (nodeAt b.node i).cnt.toNat + ∑ i ∈ Finset.Ico b.mh b.mt, (nodeAt b.node i).cnt.toNat

theorem Builder.ordered.waiting_eq {b : Builder} (h : b.ordered) : b.waiting + b.lh + b.mh = b.nleaf + b.mt := by
  obtain ⟨hlh, -, hmh, -⟩ := h
  unfold Builder.waiting
  omega

theorem Builder.ordered.leaf_front_le {b : Builder} (h : b.ordered) {j : Nat} (hj : b.lh ≤ j) (hlt : j < b.nleaf) :
    (nodeAt b.node b.lh).cnt.toNat ≤ (nodeAt b.node j).cnt.toNat := by
  obtain ⟨-, -, -, hleaves, -⟩ := h
  obtain rfl | hne := eq_or_lt_of_le hj
  · exact le_rfl
  · exact hleaves _ _ le_rfl hne hlt

theorem Builder.ordered.merged_front_le {b : Builder} (h : b.ordered) {j : Nat} (hj : b.mh ≤ j) (hlt : j < b.mt) :
    (nodeAt b.node b.mh).cnt.toNat ≤ (nodeAt b.node j).cnt.toNat := by
  obtain ⟨-, -, -, -, hmerged⟩ := h
  obtain rfl | hne := eq_or_lt_of_le hj
  · exact le_rfl
  · exact hmerged _ _ le_rfl hne hlt

/-- What a pop from ordered queues takes: a node that waits, before all that wait after it, which are the others (R73). -/
structure Popped (b : Builder) (x : Nat) (b' : Builder) : Prop where
  node : b'.node = b.node
  nleaf : b'.nleaf = b.nleaf
  mt : b'.mt = b.mt
  ordered : b'.ordered
  fronts : b'.lh + b'.mh = b.lh + b.mh + 1
  waits : b.waits x
  rest : ∀ j, b'.waits j → b.waits j
  first : ∀ j, b'.waits j → nodeBefore b.node x j
  weight : b.weight = (nodeAt b.node x).cnt.toNat + b'.weight

/-- The leaf queue's front, where it does not count more than the merge queue's (R66). -/
theorem popped_leaf {b : Builder} (ho : b.ordered) (hlt : b.lh < b.nleaf)
    (hle : b.mh < b.mt → (nodeAt b.node b.lh).cnt.toNat ≤ (nodeAt b.node b.mh).cnt.toNat) :
    Popped b b.lh { b with lh := b.lh + 1 } := by
  obtain ⟨hlh, hmh, hmt, hleaves, hmerged⟩ := id ho
  refine ⟨rfl, rfl, rfl, ⟨hlt, hmh, hmt, fun i j hi => hleaves i j (Nat.le_of_succ_le hi), hmerged⟩,
    Nat.add_right_comm _ _ _, .inl ⟨le_rfl, hlt⟩, fun j => Or.imp_left (And.imp_left Nat.le_of_succ_le), ?_, ?_⟩
  · rintro j (⟨hj, hjlt⟩ | ⟨hj, hjlt⟩) <;> dsimp only at hj hjlt
    · have hcnt := ho.leaf_front_le (Nat.le_of_succ_le hj) hjlt
      unfold nodeBefore
      omega
    · have hfront := hle (by omega)
      have hcnt := ho.merged_front_le hj hjlt
      unfold nodeBefore
      omega
  · simp only [Builder.weight, Finset.sum_eq_sum_Ico_succ_bot hlt, Nat.add_assoc]

/-- The merge queue's front, where it counts less than the leaf queue's (R66). -/
theorem popped_merged {b : Builder} (ho : b.ordered) (hlt : b.mh < b.mt)
    (hless : b.lh < b.nleaf → (nodeAt b.node b.mh).cnt.toNat < (nodeAt b.node b.lh).cnt.toNat) :
    Popped b b.mh { b with mh := b.mh + 1 } := by
  obtain ⟨hlh, hmh, hmt, hleaves, hmerged⟩ := id ho
  refine ⟨rfl, rfl, rfl, ⟨hlh, Nat.le_succ_of_le hmh, hlt, hleaves, fun i j hi => hmerged i j (Nat.le_of_succ_le hi)⟩,
    rfl, .inr ⟨le_rfl, hlt⟩, fun j => Or.imp_right (And.imp_left Nat.le_of_succ_le), ?_, ?_⟩
  · rintro j (⟨hj, hjlt⟩ | ⟨hj, hjlt⟩) <;> dsimp only at hj hjlt
    · have hfront := hless (by omega)
      have hcnt := ho.leaf_front_le hj hjlt
      unfold nodeBefore
      omega
    · have hcnt := ho.merged_front_le (Nat.le_of_succ_le hj) hjlt
      unfold nodeBefore
      omega
  · simp only [Builder.weight, Finset.sum_eq_sum_Ico_succ_bot hlt]
    omega

theorem takesLeaf_iff (b : Builder) : b.takesLeaf = true ↔
    b.lh < b.nleaf ∧ (b.mh < b.mt → (nodeAt b.node b.lh).cnt.toNat ≤ (nodeAt b.node b.mh).cnt.toNat) := by
  simp only [Builder.takesLeaf, Bool.and_eq_true, Bool.or_eq_true, decide_eq_true_eq, Bool.not_eq_true',
    decide_eq_false_iff_not, imp_iff_not_or]

theorem popped_popMin {b : Builder} (ho : b.ordered) (hw : 0 < b.waiting) : Popped b b.popMin.1 b.popMin.2 := by
  have hwait := ho.waiting_eq
  obtain ⟨hlh, -, hmh, -⟩ := id ho
  obtain ⟨ht, hpop⟩ | ⟨ht, hpop⟩ := popMin_cases b <;> rw [hpop]
  · obtain ⟨hlt, hle⟩ := (takesLeaf_iff b).mp ht
    exact popped_leaf ho hlt hle
  · rw [← Bool.not_eq_true, takesLeaf_iff, not_and, not_forall] at ht
    by_cases hlt : b.lh < b.nleaf
    · obtain ⟨hmerge, hless⟩ := ht hlt
      exact popped_merged ho hmerge fun _ => not_le.mp hless
    · exact popped_merged ho (by omega) fun h => absurd h hlt

/-! ### MergeStep -/

/-- What the two pops of a merge take: `x` and then `y`, before all that wait after them (R67, R73). -/
structure PoppedPair (b : Builder) (x y : Nat) (b' : Builder) : Prop where
  node : b'.node = b.node
  nleaf : b'.nleaf = b.nleaf
  mt : b'.mt = b.mt
  ordered : b'.ordered
  fronts : b'.lh + b'.mh = b.lh + b.mh + 2
  waits_left : b.waits x
  waits_right : b.waits y
  pair : nodeBefore b.node x y
  rest : ∀ j, b'.waits j → b.waits j
  first_left : ∀ j, b'.waits j → nodeBefore b.node x j
  first_right : ∀ j, b'.waits j → nodeBefore b.node y j
  weight : b.weight = (nodeAt b.node x).cnt.toNat + (nodeAt b.node y).cnt.toNat + b'.weight

theorem Popped.pair {b b₁ b₂ : Builder} {x y : Nat} (h₁ : Popped b x b₁) (h₂ : Popped b₁ y b₂) : PoppedPair b x y b₂ where
  node := h₂.node.trans h₁.node
  nleaf := h₂.nleaf.trans h₁.nleaf
  mt := h₂.mt.trans h₁.mt
  ordered := h₂.ordered
  fronts := by rw [h₂.fronts, h₁.fronts]
  waits_left := h₁.waits
  waits_right := h₁.rest _ h₂.waits
  pair := h₁.first _ h₂.waits
  rest j hj := h₁.rest j (h₂.rest j hj)
  first_left j hj := h₁.first j (h₂.rest j hj)
  first_right j hj := h₁.node ▸ h₂.first j hj
  weight := by rw [h₁.weight, h₂.weight, h₁.node, Nat.add_assoc]

/-- Two pops from ordered queues in which at least two nodes wait. -/
theorem poppedPair_popMin {b : Builder} (ho : b.ordered) (hw : 1 < b.waiting) :
    PoppedPair b b.popMin.1 b.popMin.2.popMin.1 b.popMin.2.popMin.2 := by
  have h₁ := popped_popMin ho (by omega)
  have hwait := h₁.ordered.waiting_eq
  have hwait' := ho.waiting_eq
  rw [h₁.nleaf, h₁.mt] at hwait
  have hfronts := h₁.fronts
  exact h₁.pair (popped_popMin h₁.ordered (by omega))

theorem agreeBelow_pushMerged (b : Builder) (n : Node) : AgreeBelow b.mt (b.pushMerged n).node b.node :=
  agreeBelow_setIfInBounds _ _ _

theorem nodeAt_pushMerged {b : Builder} (n : Node) (h : b.mt < 511) : nodeAt (b.pushMerged n).node b.mt = n :=
  nodeAt_setIfInBounds_self _ _ _ h

/-- A node pushed to the merge queue waits besides those before. -/
theorem waits_pushMerged {b : Builder} {n : Node} {j : Nat} (h : (b.pushMerged n).waits j) : b.waits j ∨ j = b.mt := by
  simp only [Builder.waits, Builder.pushMerged] at h ⊢
  omega

theorem weight_pushMerged {b : Builder} (ho : b.ordered) (n : Node) (h : b.mt < 511) :
    (b.pushMerged n).weight = b.weight + n.cnt.toNat := by
  obtain ⟨-, hmh, hmt, -⟩ := ho
  have hagree := agreeBelow_pushMerged b n
  have hleaf : ∑ i ∈ Finset.Ico b.lh b.nleaf, (nodeAt (b.pushMerged n).node i).cnt.toNat =
      ∑ i ∈ Finset.Ico b.lh b.nleaf, (nodeAt b.node i).cnt.toNat :=
    Finset.sum_congr rfl fun i hi => by rw [hagree i (by rw [Finset.mem_Ico] at hi; omega)]
  have hmerge : ∑ i ∈ Finset.Ico b.mh b.mt, (nodeAt (b.pushMerged n).node i).cnt.toNat =
      ∑ i ∈ Finset.Ico b.mh b.mt, (nodeAt b.node i).cnt.toNat :=
    Finset.sum_congr rfl fun i hi => by rw [hagree i (Finset.mem_Ico.mp hi).2]
  change ∑ i ∈ Finset.Ico b.lh b.nleaf, (nodeAt (b.pushMerged n).node i).cnt.toNat +
    ∑ i ∈ Finset.Ico b.mh (b.mt + 1), (nodeAt (b.pushMerged n).node i).cnt.toNat = _
  rw [Finset.sum_Ico_succ_top hmt, hleaf, hmerge, nodeAt_pushMerged n h, ← Nat.add_assoc, Builder.weight]

end Sys2Proof.Machine
end
section
/-! SUPPORT. The merge loop (spec/41_tree_builder.md R67 to R70): its invariant, how it ends, and what `TBUILD` leaves (O26). -/

namespace Sys2Proof.Machine

/-! ### The invariant of the merge loop -/

/-- Node `i` is an internal node over two nodes below it, with symbol 0 and the sum of their counts (R67). -/
structure MergedNode (m : Vector Node 511) (i : Nat) : Prop where
  leaf : (nodeAt m i).leaf = false
  sym : (nodeAt m i).sym = 0#8
  left_lt : (nodeAt m i).left.toNat < i
  right_lt : (nodeAt m i).right.toNat < i
  cnt : (nodeAt m i).cnt.toNat =
    (nodeAt m (nodeAt m i).left.toNat).cnt.toNat + (nodeAt m (nodeAt m i).right.toNat).cnt.toNat

theorem MergedNode.congr {n i : Nat} {m m' : Vector Node 511} (h : MergedNode m' i) (ha : AgreeBelow n m m') (hi : i < n) :
    MergedNode m i := by
  have heq := ha i hi
  have hl := ha _ (h.left_lt.trans hi)
  have hr := ha _ (h.right_lt.trans hi)
  exact ⟨heq ▸ h.leaf, heq ▸ h.sym, heq ▸ h.left_lt, heq ▸ h.right_lt, by rw [heq, hl, hr]; exact h.cnt⟩

/-- The children of the nodes from `l` to `n` are popped one after another in strictly ascending order (R73). -/
def ChildrenAscend (m : Vector Node 511) (l n : Nat) : Prop :=
  ∀ j k, j < k → k < 2 * (n - l) → nodeBefore m (childAt m l j) (childAt m l k)

/-- What the merge loop keeps: the leaves of R64, `mt` - `nleaf` nodes merged from twice as many popped ones, these popped in
ascending order and before all that wait, and the nodes that wait count the whole table. -/
structure Merging (f : Vector Count 256) (b : Builder) : Prop where
  nleaf : b.nleaf = leafCount f
  lh_le : b.lh ≤ b.nleaf
  nleaf_le : b.nleaf ≤ b.mh
  mh_le : b.mh ≤ b.mt
  fronts : b.lh + b.mh + b.nleaf = 2 * b.mt
  mt_le : b.mt ≤ 2 * b.nleaf - 1
  leaves : ∀ i y, (sortedSymbols f)[i]? = some y → nodeAt b.node i = leafNode f y
  merged : ∀ i, b.nleaf ≤ i → i < b.mt → MergedNode b.node i
  ascend : ChildrenAscend b.node b.nleaf b.mt
  popped : ∀ j w, j < 2 * (b.mt - b.nleaf) → b.waits w → nodeBefore b.node (childAt b.node b.nleaf j) w
  weight : b.weight = freqTotal f

theorem leafNode_ascend {f : Vector Count 256} {m : Vector Node 511}
    (hleaves : ∀ i y, (sortedSymbols f)[i]? = some y → nodeAt m i = leafNode f y) {i j : Nat} (hij : i < j)
    (hj : j < leafCount f) : (nodeAt m i).cnt.toNat ≤ (nodeAt m j).cnt.toNat := by
  have hi : i < leafCount f := hij.trans hj
  have hsorted := List.pairwise_iff_getElem.mp (pairwise_sortedSymbols f) i j hi hj hij
  rw [hleaves i _ (List.getElem?_eq_getElem hi), hleaves j _ (List.getElem?_eq_getElem hj)]
  change (freqAt f _).toNat ≤ (freqAt f _).toNat
  omega

/-- The counts of the merged nodes do not descend: each is the sum of the next two popped (R72). -/
theorem merged_ascend {m : Vector Node 511} {l n : Nat} (hmerged : ∀ i, l ≤ i → i < n → MergedNode m i)
    (hasc : ChildrenAscend m l n) {i j : Nat} (hi : l ≤ i) (hij : i < j) (hj : j < n) :
    (nodeAt m i).cnt.toNat ≤ (nodeAt m j).cnt.toNat := by
  obtain ⟨p, rfl⟩ := Nat.exists_eq_add_of_le hi
  obtain ⟨q, rfl⟩ := Nat.exists_eq_add_of_le (hi.trans hij.le)
  have hleft := (hasc (2 * p) (2 * q) (by omega) (by omega)).cnt_le
  have hright := (hasc (2 * p + 1) (2 * q + 1) (by omega) (by omega)).cnt_le
  rw [childAt_even, childAt_even] at hleft
  rw [childAt_odd, childAt_odd] at hright
  rw [(hmerged _ hi (by omega)).cnt, (hmerged _ (by omega) hj).cnt]
  exact Nat.add_le_add hleft hright

theorem Merging.ordered {f : Vector Count 256} {b : Builder} (h : Merging f b) : b.ordered :=
  ⟨h.lh_le, h.nleaf_le, h.mh_le, fun _ _ _ hij hj => leafNode_ascend h.leaves hij (h.nleaf ▸ hj),
    fun _ _ hi hij hj => merged_ascend h.merged h.ascend (h.nleaf_le.trans hi) hij hj⟩

theorem Merging.waiting_eq {f : Vector Count 256} {b : Builder} (h : Merging f b) : b.waiting = 2 * b.nleaf - b.mt := by
  have hwait := h.ordered.waiting_eq
  have hfronts := h.fronts
  omega

theorem Merging.mt_lt {f : Vector Count 256} {b : Builder} (h : Merging f b) (hw : 1 < b.waiting) : b.mt < 511 := by
  have hle := leafCount_le f
  rw [h.waiting_eq, h.nleaf] at hw
  omega

theorem merging_startBuilder (f : Vector Count 256) (m : Vector Node 511) : Merging f (startBuilder f m) where
  nleaf := rfl
  lh_le := Nat.zero_le _
  nleaf_le := le_rfl
  mh_le := le_rfl
  fronts := by simp only [startBuilder]; omega
  mt_le := by simp only [startBuilder]; omega
  leaves _ _ := nodeAt_startBuilder m
  merged i hi hlt := absurd hlt (not_lt.mpr hi)
  ascend j k _ hk := by simp [startBuilder] at hk
  popped j _ hj := by simp [startBuilder] at hj
  weight := by
    have hleaf : ∀ i : Fin (sortedSymbols f).length,
        (nodeAt (startBuilder f m).node i).cnt.toNat = (freqAt f (sortedSymbols f)[i]).toNat := fun i => by
      rw [nodeAt_startBuilder m (List.getElem?_eq_getElem i.isLt)]
      rfl
    change ∑ i ∈ Finset.Ico 0 (sortedSymbols f).length, (nodeAt (startBuilder f m).node i).cnt.toNat +
      ∑ i ∈ Finset.Ico (sortedSymbols f).length (sortedSymbols f).length, _ = _
    rw [Finset.Ico_self, Finset.sum_empty, Nat.add_zero, ← Finset.range_eq_Ico, Finset.sum_range,
      Finset.sum_congr rfl fun i _ => hleaf i]
    exact (Fin.sum_univ_fun_getElem (sortedSymbols f) fun y => (freqAt f y).toNat).trans (sum_sortedSymbols f)

/-! ### One merge keeps the invariant -/

section Push

variable {f : Vector Count 256} {b b' : Builder} {x y c : Nat}

theorem PoppedPair.left_lt (p : PoppedPair b x y b') (h : Merging f b) : x < b.mt := by
  have hwaits := p.waits_left
  have hle := h.nleaf_le.trans h.mh_le
  unfold Builder.waits at hwaits
  omega

theorem PoppedPair.right_lt (p : PoppedPair b x y b') (h : Merging f b) : y < b.mt := by
  have hwaits := p.waits_right
  have hle := h.nleaf_le.trans h.mh_le
  unfold Builder.waits at hwaits
  omega

/-- The memory after a merge: below `mt` as before. -/
theorem PoppedPair.agree (p : PoppedPair b x y b') (n : Node) : AgreeBelow b.mt (b'.pushMerged n).node b.node := by
  have hagree := agreeBelow_pushMerged b' n
  rwa [p.mt, p.node] at hagree

/-- The memory after a merge: the new node at `mt`. -/
theorem PoppedPair.nodeAt_mt (p : PoppedPair b x y b') (h : Merging f b) (hw : 1 < b.waiting) (n : Node) :
    nodeAt (b'.pushMerged n).node b.mt = n := by
  have hmt := h.mt_lt hw
  rw [← p.mt] at hmt ⊢
  exact nodeAt_pushMerged n hmt

theorem toNat_left_internalNode (hx : x < 512) : (internalNode x y c).left.toNat = x := Nat.mod_eq_of_lt hx

theorem toNat_right_internalNode (hy : y < 512) : (internalNode x y c).right.toNat = y := Nat.mod_eq_of_lt hy

theorem toNat_cnt_internalNode (hc : c ≤ Config.cntMax) : (internalNode x y c).cnt.toNat = c :=
  Nat.mod_eq_of_lt (Nat.lt_succ_of_le hc)

/-- The children of the nodes merged before are as they were. -/
theorem PoppedPair.childAt_old (p : PoppedPair b x y b') (n : Node) {j : Nat} (hj : j < 2 * (b.mt - b.nleaf)) :
    childAt (b'.pushMerged n).node b.nleaf j = childAt b.node b.nleaf j :=
  (p.agree n).childAt_eq (by omega)

theorem PoppedPair.childAt_left (p : PoppedPair b x y b') (h : Merging f b) (hw : 1 < b.waiting) :
    childAt (b'.pushMerged (internalNode x y c)).node b.nleaf (2 * (b.mt - b.nleaf)) = x := by
  have hmt := h.mt_lt hw
  have hx := p.left_lt h
  rw [childAt_even, Nat.add_sub_cancel' (h.nleaf_le.trans h.mh_le), p.nodeAt_mt h hw, toNat_left_internalNode (by omega)]

theorem PoppedPair.childAt_right (p : PoppedPair b x y b') (h : Merging f b) (hw : 1 < b.waiting) :
    childAt (b'.pushMerged (internalNode x y c)).node b.nleaf (2 * (b.mt - b.nleaf) + 1) = y := by
  have hmt := h.mt_lt hw
  have hy := p.right_lt h
  rw [childAt_odd, Nat.add_sub_cancel' (h.nleaf_le.trans h.mh_le), p.nodeAt_mt h hw, toNat_right_internalNode (by omega)]

/-- Every child popped so far is below `mt`. -/
theorem Merging.childAt_lt (h : Merging f b) {j : Nat} (hj : j < 2 * (b.mt - b.nleaf)) : childAt b.node b.nleaf j < b.mt := by
  have hnode := h.merged (b.nleaf + j / 2) (by omega) (by omega)
  have hl := hnode.left_lt
  have hr := hnode.right_lt
  simp only [childAt]
  split <;> omega

/-- The new node is an internal node over the pair. -/
theorem PoppedPair.mergedNode (p : PoppedPair b x y b') (h : Merging f b) (hw : 1 < b.waiting)
    (hc : c = (nodeAt b.node x).cnt.toNat + (nodeAt b.node y).cnt.toNat) (hfit : c ≤ Config.cntMax) :
    MergedNode (b'.pushMerged (internalNode x y c)).node b.mt := by
  have hmt := h.mt_lt hw
  have hx := p.left_lt h
  have hy := p.right_lt h
  have hnode := p.nodeAt_mt h hw (internalNode x y c)
  have hleft : (nodeAt (b'.pushMerged (internalNode x y c)).node b.mt).left.toNat = x := by
    rw [hnode, toNat_left_internalNode (by omega)]
  have hright : (nodeAt (b'.pushMerged (internalNode x y c)).node b.mt).right.toNat = y := by
    rw [hnode, toNat_right_internalNode (by omega)]
  refine ⟨by rw [hnode]; rfl, by rw [hnode]; rfl, by rw [hleft]; exact hx, by rw [hright]; exact hy, ?_⟩
  rw [hleft, hright, p.agree _ x hx, p.agree _ y hy, hnode, toNat_cnt_internalNode hfit, hc]

/-- The pair comes after all popped before it, and in order. -/
theorem PoppedPair.ascend (p : PoppedPair b x y b') (h : Merging f b) (hw : 1 < b.waiting) :
    ChildrenAscend (b'.pushMerged (internalNode x y c)).node b.nleaf (b.mt + 1) := by
  intro j k hjk hk
  have hx := p.left_lt h
  have hy := p.right_lt h
  have hagree := p.agree (internalNode x y c)
  have hbound : b.nleaf ≤ b.mt := h.nleaf_le.trans h.mh_le
  by_cases hj : j < 2 * (b.mt - b.nleaf)
  · have hjlt := h.childAt_lt hj
    rw [p.childAt_old _ hj]
    obtain hk | rfl | rfl : k < 2 * (b.mt - b.nleaf) ∨ k = 2 * (b.mt - b.nleaf) ∨ k = 2 * (b.mt - b.nleaf) + 1 := by omega
    · rw [p.childAt_old _ hk]
      exact (hagree.nodeBefore_iff hjlt (h.childAt_lt hk)).mpr (h.ascend j k hjk hk)
    · rw [p.childAt_left h hw]
      exact (hagree.nodeBefore_iff hjlt hx).mpr (h.popped j x hj p.waits_left)
    · rw [p.childAt_right h hw]
      exact (hagree.nodeBefore_iff hjlt hy).mpr (h.popped j y hj p.waits_right)
  · obtain ⟨rfl, rfl⟩ : j = 2 * (b.mt - b.nleaf) ∧ k = 2 * (b.mt - b.nleaf) + 1 := by omega
    rw [p.childAt_left h hw, p.childAt_right h hw]
    exact (hagree.nodeBefore_iff hx hy).mpr p.pair

/-- A node that counts no more than the new one comes before it. -/
theorem PoppedPair.nodeBefore_mt (p : PoppedPair b x y b') (h : Merging f b) (hw : 1 < b.waiting)
    (hfit : c ≤ Config.cntMax) {i : Nat} (hi : i < b.mt) (hle : (nodeAt b.node i).cnt.toNat ≤ c) :
    nodeBefore (b'.pushMerged (internalNode x y c)).node i b.mt := by
  unfold nodeBefore
  rw [p.agree _ i hi, p.nodeAt_mt h hw, toNat_cnt_internalNode hfit]
  omega

/-- All popped so far, the pair among them, come before all that wait. -/
theorem PoppedPair.popped (p : PoppedPair b x y b') (h : Merging f b) (hw : 1 < b.waiting)
    (hc : c = (nodeAt b.node x).cnt.toNat + (nodeAt b.node y).cnt.toNat) (hfit : c ≤ Config.cntMax) {j w : Nat}
    (hj : j < 2 * (b.mt + 1 - b.nleaf)) (hwaits : (b'.pushMerged (internalNode x y c)).waits w) :
    nodeBefore (b'.pushMerged (internalNode x y c)).node
      (childAt (b'.pushMerged (internalNode x y c)).node b.nleaf j) w := by
  have hx := p.left_lt h
  have hy := p.right_lt h
  have hagree := p.agree (internalNode x y c)
  have hbound : b.nleaf ≤ b.mt := h.nleaf_le.trans h.mh_le
  have hcases : w < b.mt ∧ b'.waits w ∨ w = b.mt := by
    obtain hold | hnew := waits_pushMerged hwaits
    · have hw' := p.rest w hold
      unfold Builder.waits at hw'
      exact .inl ⟨by omega, hold⟩
    · exact .inr (p.mt ▸ hnew)
  obtain hj | rfl | rfl : j < 2 * (b.mt - b.nleaf) ∨ j = 2 * (b.mt - b.nleaf) ∨ j = 2 * (b.mt - b.nleaf) + 1 := by omega
  · have hjlt := h.childAt_lt hj
    rw [p.childAt_old _ hj]
    obtain ⟨hlt, hold⟩ | rfl := hcases
    · exact (hagree.nodeBefore_iff hjlt hlt).mpr (h.popped j w hj (p.rest w hold))
    · have hle := (h.popped j x hj p.waits_left).cnt_le
      exact p.nodeBefore_mt h hw hfit hjlt (by omega)
  · rw [p.childAt_left h hw]
    obtain ⟨hlt, hold⟩ | rfl := hcases
    · exact (hagree.nodeBefore_iff hx hlt).mpr (p.first_left w hold)
    · exact p.nodeBefore_mt h hw hfit hx (by omega)
  · rw [p.childAt_right h hw]
    obtain ⟨hlt, hold⟩ | rfl := hcases
    · exact (hagree.nodeBefore_iff hy hlt).mpr (p.first_right w hold)
    · exact p.nodeBefore_mt h hw hfit hy (by omega)

theorem Merging.push (h : Merging f b) (hw : 1 < b.waiting) (p : PoppedPair b x y b')
    (hc : c = (nodeAt b.node x).cnt.toNat + (nodeAt b.node y).cnt.toNat) (hfit : c ≤ Config.cntMax) :
    Merging f (b'.pushMerged (internalNode x y c)) := by
  obtain ⟨hlh, hmh, hmt, -⟩ := id p.ordered
  rw [p.nleaf] at hlh hmh
  rw [p.mt] at hmt
  have hfronts := p.fronts
  have hfronts' := h.fronts
  have hwait := h.waiting_eq
  have hmtlt := h.mt_lt hw
  have hle : b.nleaf ≤ b.mt := h.nleaf_le.trans h.mh_le
  have hagree := p.agree (internalNode x y c)
  have hnleaf : (b'.pushMerged (internalNode x y c)).nleaf = b.nleaf := p.nleaf
  have hmt' : (b'.pushMerged (internalNode x y c)).mt = b.mt + 1 := congrArg (· + 1) p.mt
  have hlh' : (b'.pushMerged (internalNode x y c)).lh = b'.lh := rfl
  have hmh' : (b'.pushMerged (internalNode x y c)).mh = b'.mh := rfl
  refine ⟨hnleaf.trans h.nleaf, by omega, by omega, by omega, by omega, by omega, fun i z hz => ?_, fun i hi hlt => ?_,
    ?_, fun j w hj hwaits => ?_, ?_⟩
  · have hi : i < leafCount f := (List.getElem?_eq_some_iff.mp hz).1
    have hn := h.nleaf
    rw [hagree i (by omega), h.leaves i z hz]
  · obtain hlt | rfl : i < b.mt ∨ i = b.mt := by omega
    · exact (h.merged i (by omega) hlt).congr hagree hlt
    · exact p.mergedNode h hw hc hfit
  · rw [hnleaf, hmt']
    exact p.ascend h hw
  · rw [hnleaf, hmt'] at hj
    rw [hnleaf]
    exact p.popped h hw hc hfit hj hwaits
  · rw [weight_pushMerged p.ordered _ (p.mt.symm ▸ hmtlt), toNat_cnt_internalNode hfit, hc, Nat.add_comm, ← p.weight,
      h.weight]

end Push

/-! ### The whole loop -/

/-- A merge keeps the invariant, leaves one node less to wait, and happens unless the exact sum of the pair overflows. -/
theorem Merging.mergeStep {f : Vector Count 256} {b : Builder} (h : Merging f b) (hw : 1 < b.waiting) :
    (b.mergeStep = none ∧ Config.cntMax < freqTotal f) ∨
      ∃ b', b.mergeStep = some b' ∧ Merging f b' ∧ b'.waiting + 1 = b.waiting := by
  have p := poppedPair_popMin h.ordered hw
  rw [mergeStep_eq]
  dsimp only
  split
  · next hover =>
    have hweight := p.weight
    rw [h.weight] at hweight
    exact .inl ⟨rfl, by omega⟩
  · next hfit =>
    have hpush := h.push hw p rfl (not_lt.mp hfit)
    refine .inr ⟨_, rfl, hpush, ?_⟩
    have hmt (n : Node) : (b.popMin.2.popMin.2.pushMerged n).mt = b.mt + 1 := congrArg (· + 1) p.mt
    rw [hpush.waiting_eq, h.waiting_eq, hpush.nleaf, h.nleaf, hmt]
    rw [h.waiting_eq, h.nleaf] at hw
    omega

/-- The loop ends with one node waiting at most, or overflows at a merge: then two nodes waited, and the counts exceed
`CNTMAX` together (R68, R71). -/
theorem Merging.mergeLoop {f : Vector Count 256} (turns : Nat) {b : Builder} (h : Merging f b)
    (hturns : b.waiting ≤ turns + 1) :
    (∃ b', mergeLoop turns b = .built b' ∧ Merging f b' ∧ b'.waiting ≤ 1) ∨
      (1 < b.waiting ∧ Config.cntMax < freqTotal f ∧ ∃ b', mergeLoop turns b = .overflow b') := by
  induction turns generalizing b with
  | zero => exact .inl ⟨b, rfl, h, hturns⟩
  | succ n ih =>
    unfold Machine.mergeLoop
    by_cases hw : b.waiting ≤ 1
    · exact .inl ⟨b, if_pos hw, h, hw⟩
    · rw [if_neg hw]
      rw [not_le] at hw
      obtain ⟨hstep, hover⟩ | ⟨b', hstep, h', hwait⟩ := h.mergeStep hw <;> rw [hstep]
      · exact .inr ⟨hw, hover, b, rfl⟩
      · obtain hbuilt | ⟨-, hover, hoverflow⟩ := ih h' (by omega)
        · exact .inl hbuilt
        · exact .inr ⟨hw, hover, hoverflow⟩

/-! ### What TBUILD makes -/

/-- What holds of the live part of a tree state that `TBUILD` makes of a table (R19, R64, R67 to R69, R73). -/
structure BuiltTree (f : Vector Count 256) (t : TreeMem) : Prop where
  nleaf : t.nleaf.toNat = leafCount f
  nnode : t.nnode.toNat = 2 * leafCount f - 1
  root : t.root = if leafCount f = 0 then Config.nil else BitVec.ofNat 9 (2 * leafCount f - 2)
  leaves : ∀ i y, (sortedSymbols f)[i]? = some y → nodeAt t.node i = leafNode f y
  merged : ∀ i, leafCount f ≤ i → i < 2 * leafCount f - 1 → MergedNode t.node i
  ascend : ChildrenAscend t.node (leafCount f) (2 * leafCount f - 1)

theorem Merging.builtTree {f : Vector Count 256} {b : Builder} (h : Merging f b) (hw : b.waiting ≤ 1) :
    BuiltTree f b.finish := by
  have hle := leafCount_le f
  have hmt := h.mt_le
  rw [h.waiting_eq] at hw
  have hend : b.mt = 2 * leafCount f - 1 := by rw [← h.nleaf]; omega
  have hmerged := h.merged
  have hasc := h.ascend
  rw [h.nleaf, hend] at hmerged hasc
  refine ⟨?_, ?_, ?_, h.leaves, hmerged, hasc⟩
  · change (BitVec.ofNat 9 b.nleaf).toNat = _
    rw [h.nleaf]
    bv_omega
  · change (BitVec.ofNat 9 b.mt).toNat = _
    rw [hend]
    bv_omega
  · change (if b.nleaf = 0 then Config.nil else if b.nleaf = 1 then 0#9 else BitVec.ofNat 9 (b.mt - 1)) = _
    rw [h.nleaf, hend]
    by_cases hone : leafCount f = 1
    · rw [hone]
      rfl
    · rw [if_neg hone, show 2 * leafCount f - 1 - 1 = 2 * leafCount f - 2 by omega]

/-- `TBUILD`'s loop on a table: a tree, or an overflow where there are two leaves at least and their counts exceed `CNTMAX`
together (R70, R71). -/
theorem mergeLoop_startBuilder (f : Vector Count 256) (m : Vector Node 511) :
    (∃ b, mergeLoop (leafCount f) (startBuilder f m) = .built b ∧ BuiltTree f b.finish) ∨
      (2 ≤ leafCount f ∧ Config.cntMax < freqTotal f ∧
        ∃ b, mergeLoop (leafCount f) (startBuilder f m) = .overflow b) := by
  have hstart := merging_startBuilder f m
  have hwait : (startBuilder f m).waiting = leafCount f := by simp [Builder.waiting, startBuilder, leafCount]
  obtain ⟨b, hb, h, hw⟩ | ⟨htwo, hover, hb⟩ := hstart.mergeLoop (leafCount f) (by omega)
  · exact .inl ⟨b, hb, h.builtTree hw⟩
  · exact .inr ⟨hwait ▸ htwo, hover, hb⟩

theorem tbuildBody_of_built {s : State} {b : Builder}
    (h : mergeLoop (leafCount s.freq) (startBuilder s.freq s.tree.node) = .built b) :
    tbuildBody s = .done (s.clearValid.setTree b.finish).markTree := by
  have hloop : mergeLoop (startBuilder s.clearValid.freq s.clearValid.tree.node).nleaf
      (startBuilder s.clearValid.freq s.clearValid.tree.node) = .built b := h
  simp only [tbuildBody, hloop]

theorem tbuildBody_of_overflow {s : State} {b : Builder}
    (h : mergeLoop (leafCount s.freq) (startBuilder s.freq s.tree.node) = .overflow b) :
    ∃ t, tbuildBody s = .raised .cntOvf (s.clearValid.setTree t) := by
  have hloop : mergeLoop (startBuilder s.clearValid.freq s.clearValid.tree.node).nleaf
      (startBuilder s.clearValid.freq s.clearValid.tree.node) = .overflow b := h
  simp only [tbuildBody, hloop]
  exact ⟨_, rfl⟩

end Sys2Proof.Machine

namespace Sys2Proof.Proofs

open Sys2Proof.Machine

/-- Settles O26: where the merges fit the loop does not overflow, and what it makes is a `BuiltTree`. -/
theorem tbuildSortsLeavesAndSetsRoot : Obligations.TbuildSortsLeavesAndSetsRoot := by
  intro s he hfit
  refine ⟨mem_sortedSymbols s.freq, pairwise_sortedSymbols s.freq, ?_⟩
  obtain ⟨b, hb, h⟩ | ⟨htwo, hover, -⟩ := mergeLoop_startBuilder s.freq s.tree.node
  · exact ⟨b.finish, (exec_tbuild s).trans (issue_done he rfl rfl (tbuildBody_of_built hb)), h.nleaf, h.nnode, h.root,
      h.leaves⟩
  · unfold mergesFit at hfit
    omega

end Sys2Proof.Proofs
end
section
/-! SUPPORT. What `TBUILD` makes is a tree (spec/10_state.md R20, spec/41_tree_builder.md R76): O28. -/

namespace Sys2Proof.Machine

/-! ### Trees in a node memory -/

theorem treeAt_of_leaf {t : TreeMem} {i : Nat} (d : Nat) (hi : i < t.nnode.toNat) (hleaf : (nodeAt t.node i).leaf = true) :
    treeAt (d + 1) t i = some (.leaf (nodeAt t.node i).sym (nodeAt t.node i).cnt.toNat) := by
  simp [treeAt, not_le.mpr hi, hleaf]

theorem treeAt_of_node {t : TreeMem} {i d : Nat} {l r : Tree} (hi : i < t.nnode.toNat)
    (hleaf : (nodeAt t.node i).leaf = false) (hsym : (nodeAt t.node i).sym = 0#8)
    (hl : treeAt d t (nodeAt t.node i).left.toNat = some l) (hr : treeAt d t (nodeAt t.node i).right.toNat = some r) :
    treeAt (d + 1) t i = some (.node (nodeAt t.node i).cnt.toNat l r) := by
  simp [treeAt, not_le.mpr hi, hleaf, hsym, hl, hr]

/-- Where there is a tree, the node is live, and it is a leaf or stands over two trees (R20). -/
theorem treeAt_cases {d : Nat} {t : TreeMem} {i : Nat} {tr : Tree} (h : treeAt (d + 1) t i = some tr) :
    i < t.nnode.toNat ∧
      (((nodeAt t.node i).leaf = true ∧ tr = .leaf (nodeAt t.node i).sym (nodeAt t.node i).cnt.toNat) ∨
        ((nodeAt t.node i).leaf = false ∧ ∃ l r, treeAt d t (nodeAt t.node i).left.toNat = some l ∧
          treeAt d t (nodeAt t.node i).right.toNat = some r ∧ tr = .node (nodeAt t.node i).cnt.toNat l r)) := by
  unfold treeAt at h
  dsimp only at h
  split at h
  · cases h
  · next hi =>
    refine ⟨not_le.mp hi, ?_⟩
    split at h
    · next hleaf => cases h; exact .inl ⟨hleaf, rfl⟩
    · next hleaf =>
      split at h
      · next l r hl hr =>
        split at h
        · cases h; exact .inr ⟨Bool.not_eq_true _ ▸ hleaf, l, r, hl, hr, rfl⟩
        · cases h
      · cases h

theorem lt_nnode_of_treeAt {d : Nat} {t : TreeMem} {i : Nat} {tr : Tree} (h : treeAt d t i = some tr) :
    i < t.nnode.toNat := by
  cases d with
  | zero => cases h
  | succ d => exact (treeAt_cases h).1

/-- A tree has at least one leaf more than its height. -/
theorem Tree.height_lt_length_symbols (tr : Tree) : tr.height < tr.symbols.length := by
  induction tr with
  | leaf s c => exact Nat.one_pos
  | node c l r hl hr =>
    rw [Tree.height, Tree.symbols, List.length_append]
    omega

/-! ### The children of the internal nodes are all nodes but the root -/

section Built

variable {f : Vector Count 256} {t : TreeMem}

theorem BuiltTree.childAt_lt (h : BuiltTree f t) {j : Nat} (hj : j < 2 * leafCount f - 2) :
    childAt t.node (leafCount f) j < 2 * leafCount f - 2 := by
  have hnode := h.merged (leafCount f + j / 2) (by omega) (by omega)
  have hl := hnode.left_lt
  have hr := hnode.right_lt
  simp only [childAt]
  split <;> omega

theorem BuiltTree.nodeBefore_childAt (h : BuiltTree f t) {j k : Nat} (hjk : j < k) (hk : k < 2 * leafCount f - 2) :
    nodeBefore t.node (childAt t.node (leafCount f) j) (childAt t.node (leafCount f) k) :=
  h.ascend j k hjk (by omega)

/-- No node is two times a child: the children are popped in strictly ascending order. -/
theorem BuiltTree.childAt_injective (h : BuiltTree f t) {j k : Nat} (hj : j < 2 * leafCount f - 2)
    (hk : k < 2 * leafCount f - 2) (heq : childAt t.node (leafCount f) j = childAt t.node (leafCount f) k) : j = k := by
  rcases Nat.lt_trichotomy j k with hlt | rfl | hlt
  · exact absurd heq (h.nodeBefore_childAt hlt hk).ne
  · rfl
  · exact absurd heq.symm (h.nodeBefore_childAt hlt hj).ne

/-- As many children as nodes but the root, all different: every such node is a child. -/
theorem BuiltTree.image_childAt (h : BuiltTree f t) :
    (Finset.range (2 * leafCount f - 2)).image (childAt t.node (leafCount f)) = Finset.range (2 * leafCount f - 2) := by
  refine Finset.eq_of_subset_of_card_le (fun i hi => ?_) ?_
  · obtain ⟨j, hj, rfl⟩ := Finset.mem_image.mp hi
    exact Finset.mem_range.mpr (h.childAt_lt (Finset.mem_range.mp hj))
  · rw [Finset.card_image_of_injOn fun j hj k hk => h.childAt_injective (Finset.mem_range.mp hj) (Finset.mem_range.mp hk)]

/-- What every internal node sums up over its children, the root sums up over all leaves. -/
theorem BuiltTree.sum_leaves {M : Type} [AddCancelCommMonoid M] (h : BuiltTree f t) (hl : 1 ≤ leafCount f) (g : Nat → M)
    (hg : ∀ i, leafCount f ≤ i → i < 2 * leafCount f - 1 →
      g i = g (nodeAt t.node i).left.toNat + g (nodeAt t.node i).right.toNat) :
    g (2 * leafCount f - 2) = ∑ i ∈ Finset.range (leafCount f), g i := by
  have hfirst : ∀ k, k ≤ leafCount f - 1 → ∑ i ∈ Finset.range (leafCount f + k), g i =
      ∑ i ∈ Finset.range (leafCount f), g i + ∑ j ∈ Finset.range (2 * k), g (childAt t.node (leafCount f) j) := by
    intro k hk
    induction k with
    | zero => simp
    | succ k ih =>
      rw [← Nat.add_assoc, Finset.sum_range_succ, ih (by omega), hg _ (by omega) (by omega), ← childAt_even, ← childAt_odd,
        show 2 * (k + 1) = 2 * k + 1 + 1 by omega, Finset.sum_range_succ, Finset.sum_range_succ]
      simp only [add_assoc]
  have hchildren : ∑ j ∈ Finset.range (2 * leafCount f - 2), g (childAt t.node (leafCount f) j) =
      ∑ i ∈ Finset.range (2 * leafCount f - 2), g i := by
    conv_rhs => rw [← h.image_childAt]
    exact (Finset.sum_image fun j hj k hk =>
      h.childAt_injective (Finset.mem_range.mp hj) (Finset.mem_range.mp hk)).symm
  have hall := hfirst (leafCount f - 1) le_rfl
  rw [show leafCount f + (leafCount f - 1) = 2 * leafCount f - 2 + 1 by omega, Finset.sum_range_succ,
    show 2 * (leafCount f - 1) = 2 * leafCount f - 2 by omega, hchildren, add_comm] at hall
  exact add_right_cancel hall

/-- Summing over the leaves is summing over the sorted byte values. -/
theorem sum_range_leafCount {M : Type} [AddCommMonoid M] (g : Nat → M) (φ : Byte → M)
    (hg : ∀ i y, (sortedSymbols f)[i]? = some y → g i = φ y) :
    ∑ i ∈ Finset.range (leafCount f), g i = ((sortedSymbols f).map φ).sum := by
  rw [leafCount, Finset.sum_range, ← Fin.sum_univ_fun_getElem]
  exact Finset.sum_congr rfl fun i _ => hg i _ (List.getElem?_eq_getElem i.isLt)

/-! ### The trees below the nodes -/

/-- The tree of a node whose children lie below it. -/
def subtree (t : TreeMem) (i : Nat) : Tree := (treeAt (i + 1) t i).getD (.leaf 0#8 0)

theorem BuiltTree.getElem?_of_lt {i : Nat} (hi : i < leafCount f) :
    ∃ y, (sortedSymbols f)[i]? = some y := ⟨_, List.getElem?_eq_getElem hi⟩

theorem BuiltTree.exists_treeAt (h : BuiltTree f t) {i : Nat} (hi : i < 2 * leafCount f - 1) :
    ∃ tr, ∀ d, i < d → treeAt d t i = some tr := by
  induction i using Nat.strong_induction_on with
  | _ i ih =>
    have hlive : i < t.nnode.toNat := h.nnode ▸ hi
    by_cases hleaf : i < leafCount f
    · obtain ⟨y, hy⟩ := BuiltTree.getElem?_of_lt hleaf
      refine ⟨.leaf (nodeAt t.node i).sym (nodeAt t.node i).cnt.toNat, fun d hd => ?_⟩
      obtain ⟨d, rfl⟩ := Nat.exists_eq_succ_of_ne_zero (Nat.ne_zero_of_lt hd)
      exact treeAt_of_leaf d hlive (by rw [h.leaves i y hy]; rfl)
    · have hnode := h.merged i (not_lt.mp hleaf) hi
      obtain ⟨l, hl⟩ := ih _ hnode.left_lt (hnode.left_lt.trans hi)
      obtain ⟨r, hr⟩ := ih _ hnode.right_lt (hnode.right_lt.trans hi)
      refine ⟨.node (nodeAt t.node i).cnt.toNat l r, fun d hd => ?_⟩
      obtain ⟨d, rfl⟩ := Nat.exists_eq_succ_of_ne_zero (Nat.ne_zero_of_lt hd)
      have hd' : i ≤ d := Nat.lt_succ_iff.mp hd
      exact treeAt_of_node hlive hnode.leaf hnode.sym (hl d (hnode.left_lt.trans_le hd')) (hr d (hnode.right_lt.trans_le hd'))

theorem BuiltTree.treeAt_eq (h : BuiltTree f t) {i d : Nat} (hi : i < 2 * leafCount f - 1) (hd : i < d) :
    treeAt d t i = some (subtree t i) := by
  obtain ⟨tr, htr⟩ := h.exists_treeAt hi
  rw [subtree, htr _ i.lt_succ_self, htr d hd, Option.getD_some]

theorem BuiltTree.subtree_leaf (h : BuiltTree f t) {i : Nat} {y : Byte} (hy : (sortedSymbols f)[i]? = some y) :
    subtree t i = .leaf y (freqAt f y).toNat := by
  have hi : i < leafCount f := (List.getElem?_eq_some_iff.mp hy).1
  rw [subtree, treeAt_of_leaf i (by rw [h.nnode]; omega) (by rw [h.leaves i y hy]; rfl), h.leaves i y hy]
  rfl

theorem BuiltTree.subtree_node (h : BuiltTree f t) {i : Nat} (hl : leafCount f ≤ i) (hi : i < 2 * leafCount f - 1) :
    subtree t i = .node (nodeAt t.node i).cnt.toNat (subtree t (nodeAt t.node i).left.toNat)
      (subtree t (nodeAt t.node i).right.toNat) := by
  have hnode := h.merged i hl hi
  rw [subtree, treeAt_of_node (h.nnode ▸ hi) hnode.leaf hnode.sym (h.treeAt_eq (hnode.left_lt.trans hi) hnode.left_lt)
    (h.treeAt_eq (hnode.right_lt.trans hi) hnode.right_lt), Option.getD_some]

theorem BuiltTree.count_subtree (h : BuiltTree f t) {i : Nat} (hi : i < 2 * leafCount f - 1) :
    (subtree t i).count = (nodeAt t.node i).cnt.toNat := by
  by_cases hleaf : i < leafCount f
  · obtain ⟨y, hy⟩ := BuiltTree.getElem?_of_lt hleaf
    rw [h.subtree_leaf hy, h.leaves i y hy]
    rfl
  · rw [h.subtree_node (not_lt.mp hleaf) hi]
    rfl

theorem BuiltTree.wellCounted_subtree (h : BuiltTree f t) {i : Nat} (hi : i < 2 * leafCount f - 1) :
    (subtree t i).wellCounted = true := by
  induction i using Nat.strong_induction_on with
  | _ i ih =>
    by_cases hleaf : i < leafCount f
    · obtain ⟨y, hy⟩ := BuiltTree.getElem?_of_lt hleaf
      rw [h.subtree_leaf hy]
      rfl
    · have hnode := h.merged i (not_lt.mp hleaf) hi
      have hl := hnode.left_lt.trans hi
      have hr := hnode.right_lt.trans hi
      rw [h.subtree_node (not_lt.mp hleaf) hi, Tree.wellCounted, h.count_subtree hl, h.count_subtree hr,
        ih _ hnode.left_lt hl, ih _ hnode.right_lt hr, ← hnode.cnt]
      simp

/-- Every node counts at least 1: a leaf by R64, an internal node by its children. -/
theorem BuiltTree.one_le_cnt (h : BuiltTree f t) {i : Nat} (hi : i < 2 * leafCount f - 1) :
    1 ≤ (nodeAt t.node i).cnt.toNat := by
  induction i using Nat.strong_induction_on with
  | _ i ih =>
    by_cases hleaf : i < leafCount f
    · obtain ⟨y, hy⟩ := BuiltTree.getElem?_of_lt hleaf
      have hne : freqAt f y ≠ 0#55 := (mem_sortedSymbols f y).mp (List.mem_of_getElem? hy)
      rw [h.leaves i y hy]
      change 1 ≤ (freqAt f y).toNat
      bv_omega
    · have hnode := h.merged i (not_lt.mp hleaf) hi
      have hl := ih _ hnode.left_lt (hnode.left_lt.trans hi)
      rw [hnode.cnt]
      omega

/-- The root of the whole tree. -/
theorem BuiltTree.root_toNat (h : BuiltTree f t) (hl : 1 ≤ leafCount f) : t.root.toNat = 2 * leafCount f - 2 := by
  have hle := leafCount_le f
  rw [h.root, if_neg (by omega)]
  bv_omega

theorem BuiltTree.tree?_eq (h : BuiltTree f t) (hl : 1 ≤ leafCount f) :
    t.tree? = some (subtree t (2 * leafCount f - 2)) := by
  have hle := leafCount_le f
  have hdepth : 2 * leafCount f - 2 < 511 := by omega
  rw [TreeMem.tree?, h.root_toNat hl, h.treeAt_eq (by omega) hdepth]

/-- The leaves of the whole tree carry every byte value with a non-zero count once. -/
theorem BuiltTree.symbols_perm (h : BuiltTree f t) (hl : 1 ≤ leafCount f) :
    (subtree t (2 * leafCount f - 2)).symbols.Perm (sortedSymbols f) := by
  have hroot := h.sum_leaves hl (fun i => ((subtree t i).symbols : Multiset Byte)) fun i hi hlt => by
    rw [h.subtree_node hi hlt, Tree.symbols, Multiset.coe_add]
  rw [sum_range_leafCount _ (fun y => {y}) fun i y hy => by rw [h.subtree_leaf hy]; rfl] at hroot
  have hsum := Multiset.sum_map_singleton (sortedSymbols f : Multiset Byte)
  rw [Multiset.map_coe, Multiset.sum_coe] at hsum
  exact Multiset.coe_eq_coe.mp (hroot.trans hsum)

/-- The root counts the whole table. -/
theorem BuiltTree.count_root (h : BuiltTree f t) (hl : 1 ≤ leafCount f) :
    (subtree t (2 * leafCount f - 2)).count = freqTotal f := by
  have hroot := h.sum_leaves hl (fun i => (nodeAt t.node i).cnt.toNat) fun i hi hlt => (h.merged i hi hlt).cnt
  rw [sum_range_leafCount _ (fun y => (freqAt f y).toNat) fun i y hy => by rw [h.leaves i y hy]; rfl,
    sum_sortedSymbols] at hroot
  rw [h.count_subtree (by omega), hroot]

theorem BuiltTree.height_le (h : BuiltTree f t) (hl : 1 ≤ leafCount f) :
    (subtree t (2 * leafCount f - 2)).height ≤ leafCount f - 1 := by
  have hlt := (subtree t (2 * leafCount f - 2)).height_lt_length_symbols
  rw [(h.symbols_perm hl).length_eq] at hlt
  exact Nat.le_sub_one_of_lt hlt

theorem BuiltTree.nodup_symbols (h : BuiltTree f t) (hl : 1 ≤ leafCount f) :
    (subtree t (2 * leafCount f - 2)).symbols.Nodup :=
  (h.symbols_perm hl).nodup_iff.mpr (nodup_sortedSymbols f)

/-- The pair of an internal node: the left child before the right one. -/
theorem BuiltTree.nodeBefore_children (h : BuiltTree f t) {i : Nat} (hl : leafCount f ≤ i)
    (hi : i < 2 * leafCount f - 1) :
    nodeBefore t.node (nodeAt t.node i).left.toNat (nodeAt t.node i).right.toNat := by
  obtain ⟨p, rfl⟩ := Nat.exists_eq_add_of_le hl
  have hpair := h.nodeBefore_childAt (j := 2 * p) (k := 2 * p + 1) (by omega) (by omega)
  rwa [childAt_even, childAt_odd] at hpair

/-- Node `j` is a child of node `i` exactly when it is popped in one of the two places that belong to `i`. -/
theorem child_iff (m : Vector Node 511) (l p j : Nat) :
    (nodeAt m (l + p)).left.toNat = j ∨ (nodeAt m (l + p)).right.toNat = j ↔
      ∃ k, k / 2 = p ∧ childAt m l k = j := by
  rw [← childAt_even, ← childAt_odd]
  refine ⟨fun hj => hj.elim (fun hj => ⟨_, by omega, hj⟩) fun hj => ⟨_, by omega, hj⟩, ?_⟩
  rintro ⟨k, rfl, hj⟩
  obtain hk | hk : k = 2 * (k / 2) ∨ k = 2 * (k / 2) + 1 := by omega
  · exact .inl (hk ▸ hj)
  · exact .inr (hk ▸ hj)

/-- Every node but the root is the child of exactly one internal node. -/
theorem BuiltTree.existsUnique_parent (h : BuiltTree f t) {j : Nat} (hj : j < 2 * leafCount f - 2) :
    ∃ i, (leafCount f ≤ i ∧ i < 2 * leafCount f - 1 ∧
        ((nodeAt t.node i).left.toNat = j ∨ (nodeAt t.node i).right.toNat = j)) ∧
      ∀ i', leafCount f ≤ i' → i' < 2 * leafCount f - 1 →
        ((nodeAt t.node i').left.toNat = j ∨ (nodeAt t.node i').right.toNat = j) → i' = i := by
  have hmem := Finset.mem_range.mpr hj
  rw [← h.image_childAt, Finset.mem_image] at hmem
  obtain ⟨k, hk, hchild⟩ := hmem
  rw [Finset.mem_range] at hk
  refine ⟨leafCount f + k / 2, ⟨by omega, by omega, (child_iff _ _ _ _).mpr ⟨k, rfl, hchild⟩⟩, fun i' hl' hi' hj' => ?_⟩
  obtain ⟨p, rfl⟩ := Nat.exists_eq_add_of_le hl'
  obtain ⟨k', rfl, hchild'⟩ := (child_iff _ _ _ _).mp hj'
  rw [h.childAt_injective (by omega) hk (hchild'.trans hchild.symm)]

end Built

/-- Where `TBUILD` ends without a fault, what it made is a `BuiltTree`. -/
theorem builtTree_of_exec {s t : State} (hs : s.err = .none) (hexec : exec .tbuild s = .next t) (ht : t.err = .none) :
    BuiltTree s.freq t.tree := by
  rw [exec_tbuild] at hexec
  obtain ⟨b, hb, hbuilt⟩ | ⟨-, -, b, hb⟩ := mergeLoop_startBuilder s.freq s.tree.node
  · rw [issue_done hs rfl rfl (tbuildBody_of_built hb)] at hexec
    cases hexec
    exact hbuilt
  · obtain ⟨m, hm⟩ := tbuildBody_of_overflow hb
    rw [issue_raised hs rfl rfl hm] at hexec
    cases hexec
    cases ht

end Sys2Proof.Machine

namespace Sys2Proof.Proofs

open Sys2Proof.Machine

/-- Settles O28: the children are popped in strictly ascending order, so each node but the root is popped once, and what the
internal nodes sum up reaches the root. -/
theorem tbuildMakesATree : Obligations.TbuildMakesATree := by
  intro s t hs hexec ht hl
  have h := builtTree_of_exec hs hexec ht
  refine ⟨⟨_, h.tree?_eq hl, h.height_le hl, h.symbols_perm hl, h.nodup_symbols hl, h.wellCounted_subtree (by omega),
    h.count_root hl⟩, fun i hi hlt => ?_, fun j => h.existsUnique_parent, fun j k => h.nodeBefore_childAt⟩
  have hnode := h.merged i hi hlt
  have hpair := h.nodeBefore_children hi hlt
  have hone := h.one_le_cnt (hnode.left_lt.trans hlt)
  have hone' := h.one_le_cnt (hnode.right_lt.trans hlt)
  have hcnt := hnode.cnt
  exact ⟨hnode.leaf, hnode.sym, hnode.left_lt, hnode.right_lt, fun heq => hpair.ne (congrArg BitVec.toNat heq), hpair,
    by omega, hcnt⟩

end Sys2Proof.Proofs
end
section
/-! SUPPORT. `TBUILD` depends on `FREQ` alone (R74), `CGEN` makes the codes of the tree (R77 to R82), and so every step keeps
the flags truthful (O51). -/

namespace Sys2Proof.Machine

/-! ### TBUILD depends on FREQ alone -/

/-- Two builders that differ in the node memory from `mt` on only. -/
structure SameQueues (b b' : Builder) : Prop where
  nleaf : b.nleaf = b'.nleaf
  lh : b.lh = b'.lh
  mh : b.mh = b'.mh
  mt : b.mt = b'.mt
  agree : AgreeBelow b.mt b.node b'.node

/-- The front of a queue that is not empty is below `mt`. -/
theorem SameQueues.takesLeaf_eq {b b' : Builder} (h : SameQueues b b') (hle : b.nleaf ≤ b.mt) :
    b.takesLeaf = b'.takesLeaf := by
  have hleaf (hlt : b.lh < b.nleaf) : nodeAt b.node b.lh = nodeAt b'.node b'.lh := by
    rw [← h.lh]
    exact h.agree _ (by omega)
  have hmerge (hlt : b.mh < b.mt) : nodeAt b.node b.mh = nodeAt b'.node b'.mh := by
    rw [← h.mh]
    exact h.agree _ hlt
  rw [Bool.eq_iff_iff, takesLeaf_iff, takesLeaf_iff, ← h.nleaf, ← h.lh, ← h.mh, ← h.mt]
  refine and_congr_right fun hlt => imp_congr_right fun hlt' => ?_
  rw [hleaf hlt, hmerge hlt', h.lh, h.mh]

theorem SameQueues.popMin {b b' : Builder} (h : SameQueues b b') (hle : b.nleaf ≤ b.mt) :
    b.popMin.1 = b'.popMin.1 ∧ SameQueues b.popMin.2 b'.popMin.2 := by
  simp only [Builder.popMin, ← h.takesLeaf_eq hle]
  split
  · exact ⟨h.lh, ⟨h.nleaf, congrArg (· + 1) h.lh, h.mh, h.mt, h.agree⟩⟩
  · exact ⟨h.mh, ⟨h.nleaf, h.lh, congrArg (· + 1) h.mh, h.mt, h.agree⟩⟩

theorem SameQueues.pushMerged {b b' : Builder} (h : SameQueues b b') (n : Node) (hmt : b.mt < 511) :
    SameQueues (b.pushMerged n) (b'.pushMerged n) := by
  refine ⟨h.nleaf, h.lh, h.mh, congrArg (· + 1) h.mt, fun i hi => ?_⟩
  obtain hlt | rfl : i < b.mt ∨ i = b.mt := Nat.lt_succ_iff_lt_or_eq.mp hi
  · rw [agreeBelow_pushMerged b n i hlt, agreeBelow_pushMerged b' n i (h.mt ▸ hlt), h.agree i hlt]
  · rw [nodeAt_pushMerged n hmt, h.mt, nodeAt_pushMerged n (h.mt ▸ hmt)]

/-- A merge of the one is a merge of the other, with the same outcome. -/
theorem SameQueues.mergeStep {f : Vector Count 256} {b b' : Builder} (h : SameQueues b b') (hb : Merging f b)
    (hw : 1 < b.waiting) :
    (b.mergeStep = none ∧ b'.mergeStep = none) ∨
      ∃ m m', b.mergeStep = some m ∧ b'.mergeStep = some m' ∧ SameQueues m m' := by
  have p := poppedPair_popMin hb.ordered hw
  have hle : b.nleaf ≤ b.mt := hb.nleaf_le.trans hb.mh_le
  obtain ⟨hx, h₁⟩ := h.popMin hle
  obtain ⟨hy, h₂⟩ := h₁.popMin (by rwa [popMin_nleaf, popMin_mt])
  rw [mergeStep_eq, mergeStep_eq, ← hx, ← hy]
  dsimp only
  rw [← h.agree _ (p.left_lt hb), ← h.agree _ (p.right_lt hb)]
  split
  · exact .inl ⟨rfl, rfl⟩
  · exact .inr ⟨_, _, rfl, rfl, h₂.pushMerged _ (p.mt.symm ▸ hb.mt_lt hw)⟩

/-- The loops on both end in the same way. -/
theorem SameQueues.mergeLoop {f : Vector Count 256} (turns : Nat) {b b' : Builder} (h : SameQueues b b')
    (hb : Merging f b) :
    (∃ m m', mergeLoop turns b = .built m ∧ mergeLoop turns b' = .built m' ∧ SameQueues m m') ∨
      ∃ m m', mergeLoop turns b = .overflow m ∧ mergeLoop turns b' = .overflow m' := by
  induction turns generalizing b b' with
  | zero => exact .inl ⟨b, b', rfl, rfl, h⟩
  | succ n ih =>
    have hwait : b.waiting = b'.waiting := by simp only [Builder.waiting, h.nleaf, h.lh, h.mh, h.mt]
    unfold Machine.mergeLoop
    rw [← hwait]
    by_cases hw : b.waiting ≤ 1
    · rw [if_pos hw, if_pos hw]
      exact .inl ⟨b, b', rfl, rfl, h⟩
    · rw [if_neg hw, if_neg hw]
      rw [not_le] at hw
      obtain ⟨e, e'⟩ | ⟨m, m', e, e', hm⟩ := h.mergeStep hb hw
      · rw [e, e']
        exact .inr ⟨b, b', rfl, rfl⟩
      · obtain ⟨hnone, -⟩ | ⟨k, hk, hmerging, -⟩ := hb.mergeStep hw
        · simp [hnone] at e
        · rw [hk] at e
          cases e
          rw [hk, e']
          exact ih hm hmerging

theorem sameQueues_startBuilder (f : Vector Count 256) (m m' : Vector Node 511) :
    SameQueues (startBuilder f m) (startBuilder f m') := by
  refine ⟨rfl, rfl, rfl, rfl, fun i hi => ?_⟩
  have hy := List.getElem?_eq_getElem (l := sortedSymbols f) hi
  rw [nodeAt_startBuilder m hy, nodeAt_startBuilder m' hy]

theorem SameQueues.sameTree {b b' : Builder} (h : SameQueues b b') : sameTree b.finish b'.finish := by
  refine ⟨congrArg (BitVec.ofNat 9) h.nleaf, congrArg (BitVec.ofNat 9) h.mt, ?_, fun i hi => h.agree i ?_⟩
  · simp only [Builder.finish, h.nleaf, h.mt]
  · exact hi.trans_le (Nat.mod_le _ _)

/-- What `TBUILD` makes of a table is, in its live part, what it makes in an empty node memory (R74). -/
theorem builtTree_of_mergeLoop {f : Vector Count 256} {m : Vector Node 511} {b : Builder}
    (hb : mergeLoop (leafCount f) (startBuilder f m) = .built b) : ∃ u, builtTree f = some u ∧ sameTree b.finish u := by
  obtain ⟨k, k', hk, hk', hsame⟩ | ⟨k, k', hk, -⟩ := (sameQueues_startBuilder f m (Vector.replicate 511 Node.dead)).mergeLoop
    (leafCount f) (merging_startBuilder f m)
  · rw [hk] at hb
    cases hb
    refine ⟨k'.finish, ?_, hsame.sameTree⟩
    simp only [builtTree, hk']
  · rw [hk] at hb
    cases hb

theorem builtTree_spec {f : Vector Count 256} {u : TreeMem} (h : builtTree f = some u) : BuiltTree f u := by
  obtain ⟨b, hb, hbuilt⟩ | ⟨-, -, b, hb⟩ := mergeLoop_startBuilder f (Vector.replicate 511 Node.dead)
  · simp only [builtTree, hb, Option.some_inj] at h
    exact h ▸ hbuilt
  · simp only [builtTree, hb, reduceCtorEq] at h

/-! ### The live part decides -/

theorem sameTree.treeAt_eq {t u : TreeMem} (h : sameTree t u) (d i : Nat) : treeAt d t i = treeAt d u i := by
  obtain ⟨-, hnnode, -, hnode⟩ := h
  induction d generalizing i with
  | zero => rfl
  | succ d ih =>
    unfold treeAt
    dsimp only
    rw [← hnnode]
    split
    · rfl
    · next hi => rw [hnode i (not_le.mp hi), ih, ih]

theorem sameTree.tree?_eq {t u : TreeMem} (h : sameTree t u) : t.tree? = u.tree? := by
  rw [TreeMem.tree?, TreeMem.tree?, h.treeAt_eq, h.2.2.1]

theorem sameTree.sound_eq {t u : TreeMem} (h : sameTree t u) : t.sound = u.sound := by
  simp only [TreeMem.sound, h.tree?_eq, h.2.2.1]

/-- The tree of `TBUILD` is sound: its height is at most L - 1, which is at most 255, and no byte value has two leaves. -/
theorem BuiltTree.sound {f : Vector Count 256} {t : TreeMem} (h : BuiltTree f t) : t.sound = true := by
  by_cases hl : leafCount f = 0
  · have hroot := h.root
    rw [if_pos hl] at hroot
    simp [TreeMem.sound, hroot]
  · have hone : 1 ≤ leafCount f := Nat.one_le_iff_ne_zero.mpr hl
    have hle := leafCount_le f
    have hheight := h.height_le hone
    simp only [TreeMem.sound, h.tree?_eq hone, Bool.or_eq_true, Bool.and_eq_true, decide_eq_true_eq]
    exact .inr ⟨by omega, h.nodup_symbols hone⟩

end Sys2Proof.Machine
end
section
/-! SUPPORT. `CGEN` on a sound tree makes the codes of the tree (spec/42_code_table.md R77 to R82), and so every step keeps the
flags truthful (O51). -/

namespace Sys2Proof.Machine

/-! ### Codes as numbers -/

theorem bitsValue_append (as bs : List Bool) : bitsValue (as ++ bs) = bitsValue as + 2 ^ as.length * bitsValue bs := by
  induction as with
  | nil => simp [bitsValue]
  | cons a as ih =>
    rw [List.cons_append, bitsValue, bitsValue, ih, List.length_cons, Nat.pow_succ]
    ring

theorem bitsValue_lt (bs : List Bool) : bitsValue bs < 2 ^ bs.length := by
  induction bs with
  | nil => exact Nat.one_pos
  | cons b bs ih =>
    have hb := Bool.toNat_le b
    rw [bitsValue, List.length_cons, Nat.pow_succ]
    omega

/-- A left edge adds a 0, which changes no value (R77). -/
theorem entryOf_append_false (pre : List Bool) :
    entryOf (pre ++ [false]) = { valid := true, len := (entryOf pre).len + 1#9, pat := (entryOf pre).pat } := by
  simp [entryOf, bitsValue_append, bitsValue, BitVec.ofNat_add]

/-- A right edge adds a 1 at position `len` (R77). -/
theorem entryOf_append_true {pre : List Bool} (h : pre.length < 256) :
    entryOf (pre ++ [true]) =
      { valid := true, len := (entryOf pre).len + 1#9, pat := rightPattern (entryOf pre).pat (entryOf pre).len } := by
  have hlt := bitsValue_lt pre
  have hpow : 2 ^ pre.length < 2 ^ 256 := Nat.pow_lt_pow_right (by decide) h
  have hlen : (BitVec.ofNat 9 pre.length).toNat = pre.length := by bv_omega
  have hsum : 2 ^ pre.length * 1 + bitsValue pre < 2 ^ 256 :=
    calc 2 ^ pre.length * 1 + bitsValue pre < 2 ^ (pre.length + 1) := by rw [Nat.pow_succ]; omega
      _ ≤ 2 ^ 256 := Nat.pow_le_pow_right (by decide) h
  have hone : (1#256 <<< pre.length).toNat = 2 ^ pre.length * 1 := by
    rw [BitVec.toNat_shiftLeft, Nat.shiftLeft_eq, Nat.mul_comm]
    exact Nat.mod_eq_of_lt (by simpa using hpow)
  have hpat : BitVec.ofNat 256 (bitsValue (pre ++ [true])) =
      rightPattern (BitVec.ofNat 256 (bitsValue pre)) (BitVec.ofNat 9 pre.length) := by
    refine BitVec.eq_of_toNat_eq ?_
    rw [rightPattern, hlen, BitVec.toNat_or, hone, BitVec.toNat_ofNat, BitVec.toNat_ofNat, bitsValue_append,
      Nat.mod_eq_of_lt (hlt.trans hpow), Nat.lor_comm, ← Nat.two_pow_add_eq_or_of_lt hlt, Nat.add_comm]
    exact Nat.mod_eq_of_lt hsum
  simp [entryOf, hpat, BitVec.ofNat_add]

/-! ### The walk of CGEN -/

/-- The entry of a symbol below a node that `pre` leads to; none where the symbol is not below it (R78). -/
def entryBelow (pre : List Bool) (tr : Tree) (y : Byte) : Option CodeEntry := (tr.paths.lookup y).map fun p => entryOf (pre ++ p)

theorem entryBelow_leaf (pre : List Bool) (s : Byte) (c : Nat) (y : Byte) :
    entryBelow pre (.leaf s c) y = if y = s then some (entryOf pre) else none := by
  by_cases h : y = s
  · simp [entryBelow, Tree.paths, h]
  · simp [entryBelow, Tree.paths, List.lookup, beq_eq_false_iff_ne.mpr h, h]

theorem lookup_map_snd {α : Type} (g : List Bool → α) (y : Byte) (ps : List (Byte × List Bool)) :
    (ps.map fun p => (p.1, g p.2)).lookup y = (ps.lookup y).map g := by
  induction ps with
  | nil => rfl
  | cons p ps ih =>
    obtain ⟨s, bits⟩ := p
    cases h : y == s <;> simp [List.lookup, h, ih]

theorem entryBelow_node (pre : List Bool) (c : Nat) (l r : Tree) (y : Byte) :
    entryBelow pre (.node c l r) y = (entryBelow (pre ++ [false]) l y).or (entryBelow (pre ++ [true]) r y) := by
  simp only [entryBelow, Tree.paths, List.lookup_append, lookup_map_snd, Option.map_or, Option.map_map]
  simp [Function.comp_def]

/-- The symbols with a path are those of the leaves. -/
theorem entryBelow_eq_none {pre : List Bool} {tr : Tree} {y : Byte} (h : y ∉ tr.symbols) : entryBelow pre tr y = none := by
  induction tr generalizing pre with
  | leaf s c => rw [entryBelow_leaf, if_neg (by simpa [Tree.symbols] using h)]
  | node c l r hl hr =>
    rw [Tree.symbols, List.mem_append, not_or] at h
    rw [entryBelow_node, hl h.1, hr h.2]
    rfl

/-- The table where the entries below a node replace those of `table`. -/
def CodesInto (pre : List Bool) (tr : Tree) (table table' : Vector CodeEntry 256) : Prop :=
  ∀ y, codeAt table' y = (entryBelow pre tr y).getD (codeAt table y)

theorem codesInto_leaf (pre : List Bool) (s : Byte) (c : Nat) (t : State) :
    CodesInto pre (.leaf s c) t.code (t.setCode s (entryOf pre)).code := by
  intro y
  rw [entryBelow_leaf]
  split
  · next h => rw [h, codeAt_setCode_self, Option.getD_some]
  · next h => rw [codeAt_setCode_ne t s y _ (Ne.symm h), Option.getD_none]

/-- The left subtree's entries and then the right one's are the entries of the node: no symbol is in both. -/
theorem CodesInto.node {pre : List Bool} {c : Nat} {l r : Tree} {table table₁ table₂ : Vector CodeEntry 256}
    (hl : CodesInto (pre ++ [false]) l table table₁) (hr : CodesInto (pre ++ [true]) r table₁ table₂)
    (hnodup : (Tree.node c l r).symbols.Nodup) : CodesInto pre (.node c l r) table table₂ := by
  intro y
  rw [hr y, hl y, entryBelow_node]
  by_cases hy : y ∈ l.symbols
  · have hnot : y ∉ r.symbols := fun h => (List.nodup_append.mp hnodup).2.2 y hy y h rfl
    rw [entryBelow_eq_none hnot, Option.or_none, Option.getD_none]
  · rw [entryBelow_eq_none hy, Option.none_or, Option.getD_none]

/-- The walk of `CGEN` over a tree records the entry of every leaf below the node, and raises nothing (R78, R81). -/
theorem genCodes_of_treeAt {d i : Nat} {tr : Tree} {pre : List Bool} {s : State} (htree : treeAt d s.tree i = some tr)
    (hheight : pre.length + tr.height ≤ 255) (hnodup : tr.symbols.Nodup) :
    ∃ table, genCodes d i (entryOf pre).pat (entryOf pre).len s = .done { s with code := table } ∧
      CodesInto pre tr s.code table := by
  induction d generalizing i tr pre s with
  | zero => cases htree
  | succ d ih =>
    unfold genCodes
    dsimp only
    obtain ⟨-, ⟨hleaf, rfl⟩ | ⟨hleaf, l, r, hl, hr, rfl⟩⟩ := treeAt_cases htree
    · rw [if_pos hleaf]
      exact ⟨_, rfl, codesInto_leaf _ _ _ s⟩
    · have hlive : childrenLive s.tree (nodeAt s.tree.node i) = true := by
        simp [childrenLive, lt_nnode_of_treeAt hl, lt_nnode_of_treeAt hr]
      obtain ⟨hnodupl, hnodupr, -⟩ := List.nodup_append.mp hnodup
      rw [Tree.height] at hheight
      have hfalse := entryOf_append_false pre
      have htrue := entryOf_append_true (pre := pre) (by omega)
      obtain ⟨table₁, h₁, hinto₁⟩ := ih (pre := pre ++ [false]) (s := s) hl (by rw [List.length_append, List.length_singleton]; omega) hnodupl
      obtain ⟨table₂, h₂, hinto₂⟩ := ih (pre := pre ++ [true]) (s := { s with code := table₁ }) hr
        (by rw [List.length_append, List.length_singleton]; omega) hnodupr
      rw [hfalse] at h₁
      rw [htrue] at h₂
      rw [if_neg (by simp [hleaf]), if_pos hlive, h₁]
      exact ⟨table₂, h₂, hinto₁.node hinto₂ hnodup⟩

theorem sound_cases {t : TreeMem} (h : t.sound = true) :
    t.root = Config.nil ∨
      (t.root ≠ Config.nil ∧ ∃ tr, t.tree? = some tr ∧ tr.height ≤ 255 ∧ tr.symbols.Nodup) := by
  by_cases hroot : t.root = Config.nil
  · exact .inl hroot
  · cases htree : t.tree? with
    | none => simp [TreeMem.sound, hroot, htree] at h
    | some tr =>
      simp only [TreeMem.sound, hroot, htree, decide_false, Bool.false_or, Bool.and_eq_true, decide_eq_true_eq] at h
      exact .inr ⟨hroot, tr, rfl, h⟩

theorem tableEntry_of_tree {t : TreeMem} {tr : Tree} (hroot : t.root ≠ Config.nil) (htree : t.tree? = some tr) (y : Byte) :
    tableEntry t y = ((tr.codes.lookup y).map entryOf).getD CodeEntry.absent := by
  simp only [tableEntry, if_neg hroot, htree]

/-- The 1-bit code "0" of a lone leaf (R80). -/
theorem codes_leaf_lookup (s : Byte) (c : Nat) (y : Byte) :
    ((Tree.leaf s c).codes.lookup y).map entryOf = entryBelow [false] (.leaf s c) y := by
  rw [entryBelow_leaf]
  by_cases h : y = s
  · simp [Tree.codes, h]
  · simp [Tree.codes, List.lookup, beq_eq_false_iff_ne.mpr h, h]

theorem codes_node_lookup (c : Nat) (l r : Tree) (y : Byte) :
    ((Tree.node c l r).codes.lookup y).map entryOf = entryBelow [] (.node c l r) y := rfl

/-- From the root of a sound tree, into an empty table: the entries of the tree's codes (R80, R81). -/
theorem genFromRoot_of_sound {s : State} (h : s.tree.sound = true)
    (habsent : ∀ y, codeAt s.code y = CodeEntry.absent) :
    ∃ table, genFromRoot s = .done { s with code := table } ∧ ∀ y, codeAt table y = tableEntry s.tree y := by
  unfold genFromRoot
  dsimp only
  obtain hroot | ⟨hroot, tr, htree, hheight, hnodup⟩ := sound_cases h
  · rw [if_pos hroot]
    exact ⟨s.code, rfl, fun y => by rw [habsent, tableEntry, if_pos hroot]⟩
  · rw [if_neg hroot]
    obtain ⟨-, ⟨hleaf, rfl⟩ | ⟨hleaf, l, r, -, -, rfl⟩⟩ := treeAt_cases htree
    · rw [if_pos hleaf]
      refine ⟨_, rfl, fun y => ?_⟩
      rw [tableEntry_of_tree hroot htree, codes_leaf_lookup, ← habsent y]
      exact codesInto_leaf [false] _ _ s y
    · obtain ⟨table, hgen, hinto⟩ := genCodes_of_treeAt (pre := []) htree (by simpa using hheight) hnodup
      rw [if_neg (by simp [hleaf])]
      refine ⟨table, hgen, fun y => ?_⟩
      rw [tableEntry_of_tree hroot htree, codes_node_lookup, hinto y, habsent]

/-- `CGEN` on a sound tree: no fault, and every entry is that of the symbol's code (R80 to R82). -/
theorem cgenBody_of_sound {s : State} (h : s.tree.sound = true) :
    ∃ table, cgenBody s = .done { s with code := table, cvalid := true } ∧ ∀ y, codeAt table y = tableEntry s.tree y := by
  obtain ⟨table, hgen, htable⟩ := genFromRoot_of_sound (s := (s.setCvalid false).clearCode) h (codeAt_clearCode _)
  exact ⟨table, by rw [cgenBody, hgen]; rfl, htable⟩

/-! ### Truthful flags -/

theorem flagsTruthful_of_clear {s : State} (ht : s.tvalid = false) (hc : s.cvalid = false) : s.flagsTruthful := by
  simp [State.flagsTruthful, ht, hc]

/-- The truth of the flags depends on the two tables, the tree state and the flags only. -/
theorem flagsTruthful_congr {s t : State} (h : s.flagsTruthful) (hfreq : t.freq = s.freq) (htree : t.tree = s.tree)
    (htvalid : t.tvalid = s.tvalid) (hcode : t.code = s.code) (hcvalid : t.cvalid = s.cvalid) : t.flagsTruthful := by
  simpa only [State.flagsTruthful, hfreq, htree, htvalid, hcode, hcvalid] using h

theorem StreamsOnly.flagsTruthful {s t : State} (h : StreamsOnly s t) (hs : s.flagsTruthful) : t.flagsTruthful :=
  flagsTruthful_congr hs h.freq h.tree h.tvalid h.code h.cvalid

theorem flagsTruthful_countBody (s : State) : (countBody s).final.flagsTruthful :=
  flagsTruthful_of_clear (countsOnly_countBody s).tvalid (countsOnly_countBody s).cvalid

/-- `TBUILD` ends with the truthful tree of the table, or with both flags cleared. -/
theorem tbuildBody_flagsTruthful (s : State) :
    (tbuildBody s).Ends (fun t => t.flagsTruthful ∧ t.tvalid = true) fun _ => State.flagsTruthful := by
  obtain ⟨b, hb, -⟩ | ⟨-, -, b, hb⟩ := mergeLoop_startBuilder s.freq s.tree.node
  · rw [tbuildBody_of_built hb]
    exact ⟨⟨fun _ => builtTree_of_mergeLoop hb, fun hc => by simp at hc⟩, rfl⟩
  · obtain ⟨t, ht⟩ := tbuildBody_of_overflow hb
    rw [ht]
    exact flagsTruthful_of_clear rfl rfl

/-- The tree of a truthful `TVALID` is sound. -/
theorem State.flagsTruthful.sound {s : State} (h : s.flagsTruthful) (ht : s.tvalid = true) : s.tree.sound = true := by
  obtain ⟨u, hu, hsame⟩ := h.1 ht
  rw [hsame.sound_eq]
  exact (builtTree_spec hu).sound

/-- `CGEN` with a valid tree ends with the codes of the tree. -/
theorem cgenBody_flagsTruthful {s : State} (h : s.flagsTruthful) (ht : s.tvalid = true) :
    (cgenBody s).Ends State.flagsTruthful fun _ => State.flagsTruthful := by
  obtain ⟨table, hdone, htable⟩ := cgenBody_of_sound (h.sound ht)
  rw [hdone]
  exact ⟨h.1, fun _ => ⟨ht, htable⟩⟩

/-- A body that only talks to the streams and the writer keeps the flags truthful. -/
theorem ends_flagsTruthful_of_streamsOnly {body : State → Body} (hbody : ∀ s, StreamsOnly s (body s).final) {s : State}
    (h : s.flagsTruthful) : (body s).Ends State.flagsTruthful fun _ => State.flagsTruthful :=
  Body.ends_of_final ((hbody s).flagsTruthful h)

theorem streamsOnly_rewindBody (s : State) : StreamsOnly s (rewindBody s).final := .rewindInput s

theorem encodeBody_flagsTruthful {s : State} (h : s.flagsTruthful) :
    (encodeBody s).Ends State.flagsTruthful fun _ => State.flagsTruthful := by
  have counted := (ends_flagsTruthful_of_streamsOnly streamsOnly_rewindBody h).andThen
    fun m _ => Body.ends_of_final (flagsTruthful_countBody m)
  have coded := (counted.andThen fun m _ => tbuildBody_flagsTruthful m).andThen fun _ hm => cgenBody_flagsTruthful hm.1 hm.2
  have written := (coded.andThen fun _ => ends_flagsTruthful_of_streamsOnly streamsOnly_hdrBody).andThen
    fun _ => ends_flagsTruthful_of_streamsOnly streamsOnly_tserBody
  exact ((written.andThen fun _ => ends_flagsTruthful_of_streamsOnly streamsOnly_rewindBody).andThen
    fun _ => ends_flagsTruthful_of_streamsOnly streamsOnly_payloadBody).andThen
      fun _ => ends_flagsTruthful_of_streamsOnly streamsOnly_bitFlush

theorem bodyOf_flagsTruthful (i : Instr) {s : State} (h : s.flagsTruthful) (hg : guardOf i s = none) :
    (bodyOf i s).Ends State.flagsTruthful fun _ => State.flagsTruthful := by
  cases i with
  | count => exact Body.ends_of_final (flagsTruthful_countBody s)
  | rewind => exact ends_flagsTruthful_of_streamsOnly streamsOnly_rewindBody h
  | tbuild => exact (tbuildBody_flagsTruthful s).mono fun _ => And.left
  | cgen => exact cgenBody_flagsTruthful h (needTree_eq_none hg)
  | bwrite pat n => exact ends_flagsTruthful_of_streamsOnly (streamsOnly_bitAppend _ _) h
  | bclose => exact ends_flagsTruthful_of_streamsOnly streamsOnly_bitFlush h
  | hdr => exact ends_flagsTruthful_of_streamsOnly streamsOnly_hdrBody h
  | tser => exact ends_flagsTruthful_of_streamsOnly streamsOnly_tserBody h
  | emit y => exact ends_flagsTruthful_of_streamsOnly (streamsOnly_sendCode y) h
  | payload => exact ends_flagsTruthful_of_streamsOnly streamsOnly_payloadBody h
  | encode => exact encodeBody_flagsTruthful h

theorem exec_keeps_flagsTruthful {i : Instr} {s t : State} (hs : s.flagsTruthful) (h : exec i s = .next t) :
    t.flagsTruthful := by
  obtain ⟨-, rfl⟩ | ⟨-, e, rfl⟩ | ⟨-, hg, hb⟩ | ⟨-, hg, e, m, hb, rfl⟩ := exec_cases h
  · exact hs
  · exact hs
  · have hends := bodyOf_flagsTruthful i hs hg
    rw [hb] at hends
    exact hends
  · have hends := bodyOf_flagsTruthful i hs hg
    rw [hb] at hends
    exact hends

end Sys2Proof.Machine

namespace Sys2Proof.Proofs

open Sys2Proof.Machine

/-- Settles O51: what changes `FREQ` clears both flags, `TBUILD` makes the tree of `FREQ`, and `CGEN` the codes of that tree,
which is sound. -/
theorem stepKeepsFlagsTruthful : Obligations.StepKeepsFlagsTruthful := by
  intro s t hs h
  refine step_keeps hs h ?_ ?_ ?_ ?_ ?_ ?_
  · exact fun _ _ _ => hs
  · exact fun _ _ hm => hm
  · exact fun _ _ _ hm => hm
  · exact fun _ _ _ _ => flagsTruthful_of_clear rfl rfl
  · exact fun _ _ hm => exec_keeps_flagsTruthful hm
  · exact fun _ _ _ => flagsTruthful_of_clear rfl rfl

end Sys2Proof.Proofs
end
section
/-! SUPPORT. The draws of the environment (spec/20_memory.md R39), and the loop over the input as a walk over the bytes
from the cursor on (spec/40_frequency_counter.md R58, spec/44_encoder.md R99). With them `COUNT` at a read error (O24). -/

namespace Sys2Proof.Machine

/-! ### Draws -/

/-- None of the next `n` accesses draws an error (R39). -/
def State.DrawsSucceed (s : State) (n : Nat) : Prop := ∀ e ∈ s.ioErrs.take n, e = false

theorem drawsSucceed_of_noIoErrors {s : State} (h : s.noIoErrors) (n : Nat) : s.DrawsSucceed n := by
  intro e he
  simpa using List.all_eq_true.mp h e (List.mem_of_mem_take he)

/-- The accesses before the first error succeed. -/
theorem drawsSucceed_of_first_error {s : State} {k n : Nat} {rest : List Bool}
    (h : s.ioErrs = List.replicate k false ++ true :: rest) (hn : n ≤ k) : s.DrawsSucceed n := by
  intro e he
  rw [h, List.take_append_of_le_length (by simpa using hn)] at he
  exact List.eq_of_mem_replicate (List.mem_of_mem_take he)

/-- The first error of the answers after the first `n`. -/
theorem drop_first_error {k n : Nat} {rest : List Bool} (hn : n ≤ k) :
    (List.replicate k false ++ true :: rest).drop n = List.replicate (k - n) false ++ true :: rest := by
  rw [List.drop_append_of_le_length (by simpa using hn), List.drop_replicate]

theorem State.DrawsSucceed.mono {s : State} {m n : Nat} (h : s.DrawsSucceed n) (hm : m ≤ n) : s.DrawsSucceed m :=
  fun e he => h e (List.take_subset_take_left _ hm he)

/-- The next `m + n` accesses succeed, so after `m` of them the next `n` do. -/
theorem State.DrawsSucceed.drop {s t : State} {m n : Nat} (h : s.DrawsSucceed (m + n)) (ht : t.ioErrs = s.ioErrs.drop m) :
    t.DrawsSucceed n := by
  intro e he
  rw [ht, List.take_drop] at he
  exact h e (List.mem_of_mem_drop he)

theorem State.DrawsSucceed.nextDraw {s : State} {n : Nat} (h : s.DrawsSucceed n) (hn : 0 < n) : s.nextDraw = false := by
  cases hs : s.ioErrs with
  | nil => simp [State.nextDraw, hs]
  | cons e es => simpa [State.nextDraw, hs] using h e (by simp [hs, List.take_cons hn])

/-! ### The loop over the input -/

/-- The reads of a list of bytes, each followed by the loop's body on the byte read. -/
def overBytes (body : Byte → State → Body) : List Byte → State → Body
  | [], s => .done s
  | b :: bs, s => (inRead s).andThen fun s => (body b s).andThen (overBytes body bs)

theorem overBytes_append (body : Byte → State → Body) (as bs : List Byte) (s : State) :
    overBytes body (as ++ bs) s = (overBytes body as s).andThen (overBytes body bs) := by
  induction as generalizing s with
  | nil => rfl
  | cons a as ih =>
    have h : overBytes body (as ++ bs) = fun s => (overBytes body as s).andThen (overBytes body bs) := funext ih
    simp only [List.cons_append, overBytes, Body.andThen_assoc, h]

/-- `n` reads without an error (R37, R39). -/
def State.readAll (s : State) (n : Nat) : State :=
  { s with icur := s.icur + BitVec.ofNat 64 n, ioErrs := s.ioErrs.drop n }

@[simp] theorem State.readAll_ioErrs (s : State) (n : Nat) : (s.readAll n).ioErrs = s.ioErrs.drop n := rfl

theorem readAll_zero (s : State) : s.readAll 0 = s := by simp [State.readAll]

theorem readAll_readAll (s : State) (m n : Nat) : (s.readAll m).readAll n = s.readAll (m + n) := by
  simp only [State.readAll, List.drop_drop, BitVec.ofNat_add, BitVec.add_assoc]

theorem dropDraw_advanceInput (s : State) : s.dropDraw.advanceInput = s.readAll 1 := by
  simp [State.dropDraw, State.advanceInput, State.readAll]

/-- The cursor after reads of bytes that are there (R37). -/
theorem toNat_icur_readAll {s : State} {n : Nat} (hlen : s.input.length < 2 ^ 64) (hn : n ≤ s.remaining.length) :
    (s.readAll n).icur.toNat = s.icur.toNat + n := by
  rw [State.remaining, List.length_drop] at hn
  rw [State.readAll]
  bv_omega

theorem inRead_of_success {s : State} (h : s.nextDraw = false) : inRead s = .done (s.readAll 1) := by
  rw [← dropDraw_advanceInput]
  simp [inRead, h]

theorem inRead_of_error {s : State} (h : s.nextDraw = true) : inRead s = .raised .io s.dropDraw := by
  simp [inRead, h]

/-- The loop stops at a byte whose read draws an error. -/
theorem overBytes_of_read_error {body : Byte → State → Body} {pre post : List Byte} {b : Byte} {s m : State}
    (hpre : overBytes body pre s = .done m) (hdraw : m.nextDraw = true) :
    overBytes body (pre ++ b :: post) s = .raised .io m.dropDraw := by
  rw [overBytes_append, hpre, Body.andThen_done, overBytes, inRead_of_error hdraw, Body.andThen_raised]

/-- The loop stops at a byte at which its body raises a fault. -/
theorem overBytes_of_body_raised {body : Byte → State → Body} {pre post : List Byte} {b : Byte} {s m t : State}
    {e : ErrCode} (hpre : overBytes body pre s = .done m) (hdraw : m.nextDraw = false)
    (hbody : body b (m.readAll 1) = .raised e t) : overBytes body (pre ++ b :: post) s = .raised e t := by
  rw [overBytes_append, hpre, Body.andThen_done, overBytes, inRead_of_success hdraw, Body.andThen_done, hbody,
    Body.andThen_raised]

/-- A piece of pseudocode leaves `IN` and its cursor where it ends without a fault. -/
def KeepsCursor (body : State → Body) : Prop := ∀ s t, body s = .done t → t.icur = s.icur ∧ t.input = s.input

theorem remaining_eq_nil {s : State} (h : s.inByte? = none) : s.remaining = [] :=
  List.drop_eq_nil_of_le (List.getElem?_eq_none_iff.mp h)

theorem remaining_eq_cons {s t : State} {b : Byte} (h : s.inByte? = some b) (hlen : s.input.length < 2 ^ 64)
    (hicur : t.icur = s.icur + 1#64) (hinput : t.input = s.input) : s.remaining = b :: t.remaining := by
  obtain ⟨hlt, hb⟩ := List.getElem?_eq_some_iff.mp h
  have hnext : (s.icur + 1#64).toNat = s.icur.toNat + 1 := by bv_omega
  rw [State.remaining, State.remaining, hicur, hinput, hnext, List.drop_eq_getElem_cons hlt, hb]

/-- The loop over the input reads the bytes from the cursor to the end. -/
theorem forInput_eq_overBytes {body : Byte → State → Body} (hbody : ∀ b, KeepsCursor (body b)) {turns : Nat}
    {s : State} (hlen : s.input.length < 2 ^ 64) (hturns : s.remaining.length ≤ turns) :
    forInput body turns s = overBytes body s.remaining s := by
  induction turns generalizing s with
  | zero => rw [List.eq_nil_of_length_eq_zero (Nat.le_zero.mp hturns)]; rfl
  | succ n ih =>
    unfold forInput
    split
    · next hnone => rw [remaining_eq_nil hnone]; rfl
    · next b hb =>
      have hrest := remaining_eq_cons (t := s.dropDraw.advanceInput) hb hlen rfl rfl
      rw [hrest, overBytes]
      rw [hrest, List.length_cons] at hturns
      obtain ⟨-, hread⟩ | ⟨-, hread⟩ := inRead_cases s <;> rw [hread]
      · rfl
      · rw [Body.andThen_done, Body.andThen_done]
        cases hend : body b s.dropDraw.advanceInput with
        | raised e t => rfl
        | done t =>
          obtain ⟨hicur, hinput⟩ := hbody b _ _ hend
          have hrem : t.remaining = s.dropDraw.advanceInput.remaining := by
            rw [State.remaining, State.remaining, hicur, hinput]
          rw [Body.andThen_done, Body.andThen_done, ← hrem]
          exact ih (hinput ▸ hlen) (by rw [hrem]; omega)

theorem forInput_bytesLeft {body : Byte → State → Body} (hbody : ∀ b, KeepsCursor (body b)) {s : State}
    (hlen : s.input.length < 2 ^ 64) : forInput body s.bytesLeft s = overBytes body s.remaining s :=
  forInput_eq_overBytes hbody hlen (by rw [State.remaining, State.bytesLeft, List.length_drop])

/-! ### Counting -/

theorem keepsCursor_countByte (b : Byte) : KeepsCursor (countByte b) := by
  intro s t h
  unfold countByte at h
  split at h <;> cases h
  exact ⟨rfl, rfl⟩

theorem freqAt_countTable (bs : List Byte) (y : Byte) : freqAt (countTable bs) y = BitVec.ofNat 55 (bs.count y) := by
  simp [freqAt, countTable]

theorem getElem_countTable (bs : List Byte) {i : Nat} (hi : i < 256) :
    (countTable bs)[i] = BitVec.ofNat 55 (bs.count (BitVec.ofNat 8 i)) := Vector.getElem_ofFn hi

theorem countTable_nil : countTable [] = Vector.replicate 256 0#55 := by
  ext1 i hi
  rw [getElem_countTable, Vector.getElem_replicate, List.count_nil]

/-- One more occurrence of `b` adds one to its entry and leaves the others (R58). -/
theorem countTable_concat (bs : List Byte) (b : Byte) :
    countTable (bs ++ [b]) = (countTable bs).set b.toNat (freqAt (countTable bs) b + 1#55) b.isLt := by
  ext1 i hi
  rw [Vector.getElem_set, freqAt_countTable, getElem_countTable, getElem_countTable, List.count_append]
  split
  · next h => rw [← h, BitVec.ofNat_toNat, BitVec.setWidth_eq, List.count_singleton_self, BitVec.ofNat_add]
  · next h =>
    have hne : BitVec.ofNat 8 i ≠ b := fun e => h (by rw [← e]; exact Nat.mod_eq_of_lt hi)
    rw [List.count_eq_zero_of_not_mem (mt List.mem_singleton.mp hne), Nat.add_zero]

/-- The whole table of counts is replaced. -/
def State.withFreq (s : State) (f : Vector Count 256) : State := { s with freq := f }

@[simp] theorem State.withFreq_freq (s : State) (f : Vector Count 256) : (s.withFreq f).freq = f := rfl
@[simp] theorem State.withFreq_icur (s : State) (f : Vector Count 256) : (s.withFreq f).icur = s.icur := rfl
@[simp] theorem State.withFreq_ioErrs (s : State) (f : Vector Count 256) : (s.withFreq f).ioErrs = s.ioErrs := rfl
@[simp] theorem State.withFreq_nextDraw (s : State) (f : Vector Count 256) : (s.withFreq f).nextDraw = s.nextDraw := rfl

theorem readAll_withFreq (s : State) (f : Vector Count 256) (n : Nat) :
    (s.withFreq f).readAll n = (s.readAll n).withFreq f := rfl

theorem clearFreq_eq_withFreq (s : State) : s.clearFreq = s.withFreq (countTable []) := by
  rw [countTable_nil]; rfl

/-- Counting a byte whose count is below `CNTMAX` (R58). -/
theorem countByte_of_fits {bs : List Byte} {b : Byte} (s : State) (hfit : (bs ++ [b]).count b ≤ Config.cntMax) :
    countByte b (s.withFreq (countTable bs)) = .done (s.withFreq (countTable (bs ++ [b]))) := by
  rw [List.count_append, List.count_singleton_self, Config.cntMax] at hfit
  have hlt : (freqAt (s.withFreq (countTable bs)).freq b).toNat ≠ Config.cntMax := by
    rw [State.withFreq_freq, freqAt_countTable, BitVec.toNat_ofNat, Config.cntMax]
    omega
  rw [countByte, if_neg hlt, countTable_concat, State.setFreq, State.withFreq_freq, State.withFreq, State.withFreq]

/-- Reading and counting bytes on top of those counted before, without an error or an overflow (R58). -/
theorem overBytes_countByte {pre bs : List Byte} {s : State} (hfit : countsFit (pre ++ bs))
    (hdraws : s.DrawsSucceed bs.length) :
    overBytes countByte bs (s.withFreq (countTable pre)) =
      .done ((s.readAll bs.length).withFreq (countTable (pre ++ bs))) := by
  induction bs generalizing pre s with
  | nil => rw [List.append_nil, List.length_nil, readAll_zero, overBytes]
  | cons b bs ih =>
    have hmove : pre ++ b :: bs = pre ++ [b] ++ bs := by simp
    rw [hmove] at hfit ⊢
    have hall : (pre ++ [b] ++ bs).count b ≤ Config.cntMax := hfit b
    have hb : (pre ++ [b]).count b ≤ Config.cntMax :=
      Nat.le_trans ((List.sublist_append_left _ bs).count_le b) hall
    rw [List.length_cons, Nat.add_comm] at hdraws ⊢
    have hfirst : s.nextDraw = false := hdraws.nextDraw (by omega)
    rw [overBytes, inRead_of_success (by simpa using hfirst), Body.andThen_done, readAll_withFreq, countByte_of_fits _ hb,
      Body.andThen_done, ih hfit (hdraws.drop rfl), readAll_readAll]

/-- `COUNT`'s body reads and counts the bytes from the cursor on, from an empty table (R58). -/
theorem countBody_eq_overBytes {s : State} (hlen : s.input.length < 2 ^ 64) :
    countBody s = overBytes countByte s.remaining (s.clearValid.withFreq (countTable [])) := by
  rw [← clearFreq_eq_withFreq]
  exact forInput_bytesLeft (s := s.clearValid.clearFreq) keepsCursor_countByte hlen

end Sys2Proof.Machine

namespace Sys2Proof.Proofs

open Sys2Proof.Machine

/-- Settles O24: the bytes before the read that errs are read and counted, and the loop stops there. -/
theorem countReadErrorFault : Obligations.CountReadErrorFault := by
  intro s k rest herr hlen hcur hio hk hfit
  have htake : (s.remaining.take k).length = k := List.length_take_of_le hk.le
  have hsplit : s.remaining = s.remaining.take k ++ s.remaining[k] :: s.remaining.drop (k + 1) := by
    rw [← List.drop_eq_getElem_cons hk, List.take_append_drop]
  have hdraws : s.clearValid.DrawsSucceed (s.remaining.take k).length :=
    drawsSucceed_of_first_error hio htake.le
  have hcounted := overBytes_countByte (pre := []) hfit hdraws
  have hbody := countBody_eq_overBytes hlen
  rw [hsplit, overBytes_of_read_error hcounted (by simp [State.nextDraw, htake, hio])] at hbody
  rw [exec_count]
  refine ⟨_, issue_raised herr rfl rfl hbody, rfl, rfl, ?_, rfl, rfl, rfl, rfl, rfl, ?_⟩
  · have hread := toNat_icur_readAll (s := s.clearValid) hlen hk.le
    simpa [htake] using hread
  · simp [htake, hio]

end Sys2Proof.Proofs
end
section
/-! SUPPORT. `TSER` on a sound tree is one `OutByte` of a list: the records in preorder and the footer
(spec/44_encoder.md R93, R94, R96), and so O40. -/

namespace Sys2Proof.Machine

theorem outBytes_append (as bs : List Byte) (s : State) :
    outBytes (as ++ bs) s = (outBytes as s).andThen (outBytes bs) := by
  induction as generalizing s with
  | nil => rfl
  | cons a as ih =>
    have h : outBytes (as ++ bs) = fun s => (outBytes as s).andThen (outBytes bs) := funext ih
    simp only [List.cons_append, outBytes, Body.andThen_assoc, h]

/-- After some bytes are pushed, pseudocode that pushes further bytes pushes all of them in a row, if it does so in every
state with the same tree. -/
theorem outBytes_andThen {as bs : List Byte} {k : State → Body} {s : State}
    (hk : ∀ m, m.tree = s.tree → k m = outBytes bs m) : (outBytes as s).andThen k = outBytes (as ++ bs) s := by
  rw [outBytes_append]
  obtain h | ⟨n, -, h⟩ := outBytes_cases as s <;> rw [h]
  · exact hk _ rfl
  · rfl

theorem sym_of_treeAt {d : Nat} {t : TreeMem} {i : Nat} {tr : Tree} (h : treeAt (d + 1) t i = some tr)
    (hleaf : (nodeAt t.node i).leaf = false) : (nodeAt t.node i).sym = 0#8 := by
  by_contra hsym
  obtain ⟨hi, ⟨hleaf', -⟩ | ⟨-, l, r, hl, hr, -⟩⟩ := treeAt_cases h
  · simp [hleaf] at hleaf'
  · simp [treeAt, not_le.mpr hi, hleaf, hl, hr, hsym] at h

/-- The record of a leaf, as the tree has it (R93). -/
theorem outRecord_leaf {n : Node} (h : n.leaf = true) :
    outRecord (recordWord n) = outBytes (littleEndian (n.sym ++ BitVec.ofNat 55 n.cnt.toNat ++ 1#1)) := by
  funext s
  rw [outRecord, wordBytes_eq_littleEndian, recordWord, h, BitVec.ofNat_toNat, BitVec.setWidth_eq]
  rfl

/-- The record of an internal node, whose symbol is 0, as the tree has it (R93). -/
theorem outRecord_internal {n : Node} (h : n.leaf = false) (hsym : n.sym = 0#8) :
    outRecord (recordWord n) = outBytes (littleEndian (0#8 ++ BitVec.ofNat 55 n.cnt.toNat ++ 0#1)) := by
  funext s
  rw [outRecord, wordBytes_eq_littleEndian, recordWord, h, hsym, BitVec.ofNat_toNat, BitVec.setWidth_eq]
  rfl

/-- The walk of `TSER` over a tree pushes the records in preorder (R96). -/
theorem serNodes_of_treeAt {d i : Nat} {t : TreeMem} {tr : Tree} {s : State} (h : treeAt d t i = some tr)
    (hs : s.tree = t) : serNodes d i s = outBytes (tr.records.flatMap littleEndian) s := by
  induction d generalizing i tr s with
  | zero => cases h
  | succ d ih =>
    subst hs
    unfold serNodes
    dsimp only
    obtain ⟨-, ⟨hleaf, rfl⟩ | ⟨hleaf, l, r, hl, hr, rfl⟩⟩ := treeAt_cases h
    · rw [if_pos hleaf, outRecord_leaf hleaf, Tree.records, List.flatMap_singleton]
    · have hlive : childrenLive s.tree (nodeAt s.tree.node i) = true := by
        simp [childrenLive, lt_nnode_of_treeAt hl, lt_nnode_of_treeAt hr]
      rw [if_neg (by simp [hleaf]), if_pos hlive, outRecord_internal hleaf (sym_of_treeAt h hleaf),
        outBytes_andThen fun m hm => ih hl hm, outBytes_andThen fun m hm => ih hr hm, Tree.records,
        List.flatMap_cons, List.flatMap_append, List.append_assoc]

/-- `TSER`'s body on a sound tree (R94, R96). -/
theorem tserBody_of_sound {s : State} (h : s.tree.sound = true) : tserBody s = outBytes (treeBytes s.tree) s := by
  have hfooter : outRecord 0#64 = outBytes (List.replicate 8 0#8) := by
    funext m
    rw [outRecord, show wordBytes 0#64 = List.replicate 8 0#8 by decide]
  rw [tserBody, hfooter, treeBytes, serTree]
  obtain hroot | ⟨hroot, tr, htree, -⟩ := sound_cases h
  · rw [if_pos hroot, if_pos hroot]
    rfl
  · rw [if_neg hroot, if_neg hroot, serNodes_of_treeAt htree rfl, outBytes_append, htree]
    rfl

/-- `TSER` runs its body where there is a tree and the writer is empty (R96). -/
theorem tser_guard {s : State} (ht : s.tvalid = true) (hw : s.bw.cur = 0#3) :
    bothGuards needTree needEmptyWriter s = none := by
  simp [bothGuards, needTree, needEmptyWriter, ht, hw]

end Sys2Proof.Machine

namespace Sys2Proof.Proofs

open Sys2Proof.Machine

/-- Settles O40: `TSER` is one `OutByte` of the tree's bytes, with the bytes before the first error in `OUT`. -/
theorem tserWritesRecordsInPreorder : Obligations.TserWritesRecordsInPreorder := by
  intro s herr ht hw hsound
  have hguard := tser_guard ht hw
  have hbody := tserBody_of_sound hsound
  rw [exec_tser]
  constructor
  · intro hio
    rw [outBytes_of_no_error _ _ (drawsSucceed_of_noIoErrors hio _)] at hbody
    exact issue_done herr rfl hguard hbody
  · intro k rest hio hk
    rw [outBytes_of_error _ _ k rest hio hk] at hbody
    have hlen : ((treeBytes s.tree).take k).length = k := List.length_take_of_le hk.le
    exact ⟨_, issue_raised herr rfl hguard hbody, rfl, rfl, rfl, by simp [hlen]⟩

end Sys2Proof.Proofs
end
section
/-! SUPPORT. The bit writer in closed form (spec/43_bit_writer.md R85, R86): bits accepted one part after the other are
accepted as a whole, and what `BitAppend` pushes up to the first error. -/

namespace Sys2Proof.Machine

/-! ### The writer and the bits it is given, as a number -/

/-- Bits `BWCUR` to 7 of `BWBUF` are 0 (R24). -/
abbrev BitWriter.Clean (w : BitWriter) : Prop := w.buf.toNat < 2 ^ w.cur.toNat

/-- V of R86: the pending bits and after them `bits`, as a number. -/
def BitWriter.value (w : BitWriter) (bits : List Bool) : Nat := w.buf.toNat + bitsValue bits * 2 ^ w.cur.toNat

/-- T of R86: the number of pending bits and of `bits`. -/
def BitWriter.filled (w : BitWriter) (bits : List Bool) : Nat := w.cur.toNat + bits.length

/-- The bytes that `bits` complete (R86). -/
def BitWriter.fullBytes (w : BitWriter) (bits : List Bool) : List Byte :=
  (List.range (w.filled bits / 8)).map fun j => BitVec.ofNat 8 (w.value bits / 2 ^ (8 * j))

/-- What is left in the writer after `bits` (R86). -/
def BitWriter.append (w : BitWriter) (bits : List Bool) : BitWriter :=
  { buf := BitVec.ofNat 8 (w.value bits / 2 ^ (8 * (w.filled bits / 8))), cur := BitVec.ofNat 3 (w.filled bits % 8) }

section Writer

variable {w : BitWriter} (as bs : List Bool)

@[simp] theorem BitWriter.length_fullBytes : (w.fullBytes as).length = w.filled as / 8 := by simp [fullBytes]

theorem BitWriter.Clean.value_lt (h : w.Clean) : w.value as < 2 ^ w.filled as := by
  have hone : 2 ^ w.cur.toNat * (bitsValue as + 1) ≤ 2 ^ w.cur.toNat * 2 ^ as.length :=
    Nat.mul_le_mul_left _ (bitsValue_lt as)
  rw [← Nat.pow_add, Nat.mul_add, Nat.mul_one] at hone
  rw [value, filled, Nat.mul_comm]
  omega

theorem BitWriter.value_append : w.value (as ++ bs) = w.value as + 2 ^ w.filled as * bitsValue bs := by
  rw [value, value, filled, bitsValue_append, Nat.pow_add]
  ring

theorem BitWriter.toNat_cur_append : (w.append as).cur.toNat = w.filled as % 8 := by
  rw [append, BitVec.toNat_ofNat]
  omega

theorem two_pow_eq_whole_bytes (t : Nat) : 2 ^ t = 2 ^ (8 * (t / 8)) * 2 ^ (t % 8) := by
  rw [← Nat.pow_add, Nat.div_add_mod]

theorem BitWriter.Clean.value_div_lt (h : w.Clean) : w.value as / 2 ^ (8 * (w.filled as / 8)) < 2 ^ (w.filled as % 8) := by
  rw [Nat.div_lt_iff_lt_mul (by positivity), Nat.mul_comm, ← two_pow_eq_whole_bytes]
  exact h.value_lt as

theorem BitWriter.Clean.toNat_buf_append (h : w.Clean) :
    (w.append as).buf.toNat = w.value as / 2 ^ (8 * (w.filled as / 8)) := by
  have hbyte : 2 ^ (w.filled as % 8) ≤ 2 ^ 8 := Nat.pow_le_pow_right (by decide) (by omega)
  rw [append, BitVec.toNat_ofNat]
  exact Nat.mod_eq_of_lt ((h.value_div_lt as).trans_le hbyte)

/-- The writer stays clean (R24). -/
theorem BitWriter.Clean.append (h : w.Clean) : (w.append as).Clean := by
  rw [Clean, h.toNat_buf_append, toNat_cur_append]
  exact h.value_div_lt as

theorem BitWriter.Clean.value_append_writer (h : w.Clean) :
    (w.append as).value bs = w.value (as ++ bs) / 2 ^ (8 * (w.filled as / 8)) := by
  rw [value, h.toNat_buf_append, toNat_cur_append, value_append, two_pow_eq_whole_bytes (w.filled as), Nat.mul_assoc,
    Nat.add_mul_div_left _ _ (by positivity), Nat.mul_comm (bitsValue bs)]

theorem BitWriter.filled_append_writer : (w.append as).filled bs + 8 * (w.filled as / 8) = w.filled (as ++ bs) := by
  rw [filled, toNat_cur_append, filled, filled, List.length_append]
  omega

/-- The bytes completed by two lists of bits are those of the first and then those of the second. -/
theorem BitWriter.filled_div_append : w.filled (as ++ bs) / 8 = w.filled as / 8 + (w.append as).filled bs / 8 := by
  rw [← filled_append_writer]
  omega

/-- A byte completed by the first bits is the same whatever bits follow. -/
theorem BitWriter.byte_append {j : Nat} (hj : j < w.filled as / 8) :
    BitVec.ofNat 8 (w.value (as ++ bs) / 2 ^ (8 * j)) = BitVec.ofNat 8 (w.value as / 2 ^ (8 * j)) := by
  have hpow : 2 ^ w.filled as = 2 ^ (8 * j) * (2 ^ 8 * 2 ^ (w.filled as - 8 * j - 8)) := by
    rw [← Nat.pow_add, ← Nat.pow_add]
    congr 1
    omega
  refine BitVec.eq_of_toNat_eq ?_
  rw [BitVec.toNat_ofNat, BitVec.toNat_ofNat, value_append, hpow, Nat.mul_assoc, Nat.add_mul_div_left _ _ (by positivity),
    Nat.mul_assoc, Nat.add_mul_mod_self_left]

/-- A byte completed by further bits is one of the writer left by the first. -/
theorem BitWriter.Clean.byte_append_writer (h : w.Clean) (j : Nat) :
    w.value (as ++ bs) / 2 ^ (8 * (w.filled as / 8 + j)) = (w.append as).value bs / 2 ^ (8 * j) := by
  rw [h.value_append_writer, Nat.div_div_eq_div_mul, ← Nat.pow_add, ← Nat.mul_add]

theorem BitWriter.Clean.fullBytes_append (h : w.Clean) :
    w.fullBytes (as ++ bs) = w.fullBytes as ++ (w.append as).fullBytes bs := by
  rw [fullBytes, filled_div_append, List.range_add, List.map_append, List.map_map]
  congr 1
  · exact List.map_congr_left fun j hj => byte_append as bs (List.mem_range.mp hj)
  · exact List.map_congr_left fun j _ => congrArg _ (h.byte_append_writer as bs j)

theorem BitWriter.Clean.append_append (h : w.Clean) : (w.append as).append bs = w.append (as ++ bs) := by
  have hcur : (w.append as).filled bs % 8 = w.filled (as ++ bs) % 8 := by
    rw [← filled_append_writer]
    omega
  conv_rhs => rw [BitWriter.append, filled_div_append, h.byte_append_writer, ← hcur]
  rfl

/-- The bits before the one that completes byte `k` leave seven bits after `k` bytes. -/
theorem BitWriter.filled_take {k : Nat} (hk : k < w.filled as / 8) :
    w.filled (as.take (8 * k + 7 - w.cur.toNat)) = 8 * k + 7 := by
  have hcur := w.cur.isLt
  rw [filled] at hk ⊢
  rw [List.length_take]
  omega

theorem BitWriter.filled_take_div {k : Nat} (hk : k < w.filled as / 8) :
    w.filled (as.take (8 * k + 7 - w.cur.toNat)) / 8 = k := by
  rw [filled_take as hk]
  omega

/-- The bits before the one that completes byte `k` complete the bytes before it. -/
theorem BitWriter.Clean.fullBytes_take (h : w.Clean) {k : Nat} (hk : k < w.filled as / 8) :
    w.fullBytes (as.take (8 * k + 7 - w.cur.toNat)) = (w.fullBytes as).take k := by
  conv_rhs => rw [← List.take_append_drop (8 * k + 7 - w.cur.toNat) as, h.fullBytes_append]
  rw [List.take_left' (by rw [length_fullBytes, filled_take_div as hk])]

/-- The bits before the one that completes byte `j` after the bytes of `as`: all of `as`, and those of `bs` before the one
that completes byte `j` in the writer that `as` leaves. -/
theorem BitWriter.take_append_before (j : Nat) :
    (as ++ bs).take (8 * (w.filled as / 8 + j) + 7 - w.cur.toNat) =
      as ++ bs.take (8 * j + 7 - (w.append as).cur.toNat) := by
  have hcur := w.cur.isLt
  have hdiv := Nat.div_add_mod (w.filled as) 8
  rw [toNat_cur_append, List.take_append]
  rw [filled] at hdiv ⊢
  rw [List.take_of_length_le (by omega)]
  congr 2
  omega

end Writer

/-! ### One bit -/

theorem BitWriter.fullBytes_single_of_cur_ne {w : BitWriter} (b : Bool) (hc : w.cur ≠ 7#3) : w.fullBytes [b] = [] := by
  have : w.filled [b] / 8 = 0 := by rw [filled, List.length_singleton]; bv_omega
  rw [fullBytes, this]
  rfl

theorem BitWriter.Clean.value_single {w : BitWriter} (h : w.Clean) (b : Bool) :
    w.value [b] = (putBit w.buf w.cur b).toNat := by
  rw [value, putBit_toNat _ _ _ h]
  simp [bitsValue]

theorem BitWriter.Clean.append_single_of_cur_ne {w : BitWriter} (h : w.Clean) (b : Bool) (hc : w.cur ≠ 7#3) :
    w.append [b] = { buf := putBit w.buf w.cur b, cur := w.cur + 1#3 } := by
  have hfilled : w.filled [b] = (w.cur + 1#3).toNat := by rw [filled, List.length_singleton]; bv_omega
  have hlt := (w.cur + 1#3).isLt
  rw [BitWriter.append, h.value_single, hfilled, Nat.div_eq_of_lt hlt, Nat.mod_eq_of_lt hlt, BitVec.ofNat_toNat,
    BitVec.setWidth_eq]
  simp

theorem BitWriter.filled_single_of_cur_eq {w : BitWriter} (b : Bool) (hc : w.cur = 7#3) : w.filled [b] = 8 := by
  rw [filled, hc]
  rfl

theorem BitWriter.Clean.fullBytes_single_of_cur_eq {w : BitWriter} (h : w.Clean) (b : Bool) (hc : w.cur = 7#3) :
    w.fullBytes [b] = [putBit w.buf 7#3 b] := by
  rw [fullBytes, filled_single_of_cur_eq b hc, h.value_single, hc]
  simp

theorem BitWriter.Clean.append_single_of_cur_eq {w : BitWriter} (h : w.Clean) (b : Bool) (hc : w.cur = 7#3) :
    w.append [b] = { buf := 0#8, cur := 0#3 } := by
  have hlt := (putBit w.buf w.cur b).isLt
  rw [BitWriter.append, filled_single_of_cur_eq b hc, h.value_single, Nat.div_eq_of_lt hlt]

/-! ### BitAppend -/

/-- The closed form: the completed bytes are pushed, and the rest stays in the writer (R86). -/
theorem acceptBits_eq (s : State) (bits : List Bool) :
    s.acceptBits bits = { s.pushAll (s.bw.fullBytes bits) with bw := s.bw.append bits } := by
  rw [State.pushAll, BitWriter.length_fullBytes]
  rfl

@[simp] theorem State.acceptBits_bw (s : State) (bits : List Bool) : (s.acceptBits bits).bw = s.bw.append bits := rfl
@[simp] theorem State.acceptBits_code (s : State) (bits : List Bool) : (s.acceptBits bits).code = s.code := rfl
@[simp] theorem State.acceptBits_out (s : State) (bits : List Bool) :
    (s.acceptBits bits).out = s.out ++ s.bw.fullBytes bits := rfl
@[simp] theorem State.acceptBits_ioErrs (s : State) (bits : List Bool) :
    (s.acceptBits bits).ioErrs = s.ioErrs.drop (s.bw.filled bits / 8) := rfl

theorem acceptBits_nil (s : State) : s.acceptBits [] = s := by
  have hcur := s.bw.cur.isLt
  have hfilled : s.bw.filled [] / 8 = 0 := Nat.div_eq_of_lt hcur
  have hbytes : s.bw.fullBytes [] = [] := by rw [BitWriter.fullBytes, hfilled]; rfl
  have hbw : s.bw.append [] = s.bw := by
    rw [BitWriter.append, hfilled, BitWriter.filled, List.length_nil, Nat.add_zero, Nat.mod_eq_of_lt hcur]
    simp [BitWriter.value, bitsValue]
  rw [acceptBits_eq, hbytes, hbw, State.pushAll_nil]

/-- Bits accepted in two parts are accepted as a whole (R86). -/
theorem acceptBits_acceptBits {s : State} (h : s.writerClean) (as bs : List Bool) :
    (s.acceptBits as).acceptBits bs = s.acceptBits (as ++ bs) := by
  have hclean : s.bw.Clean := h
  rw [acceptBits_eq s (as ++ bs), hclean.fullBytes_append, ← hclean.append_append, ← pushAll_pushAll, acceptBits_eq,
    acceptBits_eq]
  rfl

/-- A bit whose push, if it completes a byte, draws no error (R85). -/
theorem pushBit_of_success {s : State} (h : s.writerClean) (b : Bool) (hdraws : s.DrawsSucceed (s.bw.filled [b] / 8)) :
    pushBit b s = .done (s.acceptBits [b]) := by
  have hclean : s.bw.Clean := h
  rw [acceptBits_eq]
  by_cases hc : s.bw.cur = 7#3
  · rw [BitWriter.filled_single_of_cur_eq b hc] at hdraws
    have hpush := outBytes_of_no_error [putBit s.bw.buf 7#3 b] s hdraws
    rw [pushBit_of_cur_eq b s hc, outByte_eq_outBytes, hpush, hclean.fullBytes_single_of_cur_eq b hc,
      hclean.append_single_of_cur_eq b hc]
    rfl
  · rw [pushBit_of_cur_lt b s hc, BitWriter.fullBytes_single_of_cur_ne b hc, hclean.append_single_of_cur_ne b hc,
      State.pushAll_nil]
    rfl

/-- Bits of which no push draws an error (R85, R86). -/
theorem pushBits_of_success {s : State} (h : s.writerClean) {bits : List Bool}
    (hdraws : s.DrawsSucceed (s.bw.filled bits / 8)) : pushBits bits s = .done (s.acceptBits bits) := by
  induction bits generalizing s with
  | nil => rw [acceptBits_nil, pushBits]
  | cons b bits ih =>
    rw [← List.singleton_append, BitWriter.filled_div_append] at hdraws
    have hfirst := pushBit_of_success h b (hdraws.mono (Nat.le_add_right _ _))
    have hrest : (s.acceptBits [b]).DrawsSucceed ((s.bw.append [b]).filled bits / 8) := hdraws.drop rfl
    rw [pushBits, hfirst, Body.andThen_done, ih (BitWriter.Clean.append [b] h) hrest, acceptBits_acceptBits h,
      List.singleton_append]

theorem outByte_of_error (b : Byte) {s : State} (h : s.nextDraw = true) : outByte b s = .raised .io s.dropDraw := by
  simp [outByte, h]

/-- Bits of which push number `k` draws the first error: the bits before the one that completes byte `k` are
accepted, and the error's draw is used up (R85, R39). -/
theorem pushBits_of_error {s : State} (h : s.writerClean) {bits : List Bool} {k : Nat} {rest : List Bool}
    (hio : s.ioErrs = List.replicate k false ++ true :: rest) (hk : k < s.bw.filled bits / 8) :
    pushBits bits s = .raised .io (s.acceptBits (bits.take (8 * k + 7 - s.bw.cur.toNat))).dropDraw := by
  have hfilled := BitWriter.filled_take bits hk
  have hdiv := BitWriter.filled_take_div bits hk
  have hn : 8 * k + 7 - s.bw.cur.toNat < bits.length := by
    rw [BitWriter.filled] at hk
    omega
  generalize 8 * k + 7 - s.bw.cur.toNat = n at hfilled hdiv hn ⊢
  have hbefore := pushBits_of_success h (bits := bits.take n) (drawsSucceed_of_first_error hio hdiv.le)
  have hlast : (s.acceptBits (bits.take n)).bw.cur = 7#3 := by
    refine BitVec.eq_of_toNat_eq ?_
    rw [State.acceptBits_bw, BitWriter.toNat_cur_append, hfilled, BitVec.toNat_ofNat]
    omega
  have hdraw : (s.acceptBits (bits.take n)).nextDraw = true := by simp [State.nextDraw, hdiv, hio]
  have hpush : pushBit bits[n] (s.acceptBits (bits.take n)) = .raised .io (s.acceptBits (bits.take n)).dropDraw := by
    rw [pushBit_of_cur_eq _ _ hlast, outByte_of_error _ hdraw, Body.andThen_raised]
  conv_lhs => rw [← List.take_append_drop n bits, List.drop_eq_getElem_cons hn]
  rw [pushBits_append, hbefore, Body.andThen_done, pushBits, hpush, Body.andThen_raised]

end Sys2Proof.Machine
end
section
/-! SUPPORT. `PAYLOAD` byte by byte (spec/44_encoder.md R99): what it has read and pushed after a part of the input, and
so where it stops at the first error of a stream (O60). -/

namespace Sys2Proof.Machine

/-! ### The cursor -/

theorem icur_pushBit (b : Bool) (s : State) : (pushBit b s).final.icur = s.icur := by
  by_cases hc : s.bw.cur = 7#3
  · rw [pushBit_of_cur_eq b s hc]
    obtain ⟨-, e⟩ | ⟨-, e⟩ := outByte_cases (putBit s.bw.buf 7#3 b) s <;> rw [e] <;> rfl
  · rw [pushBit_of_cur_lt b s hc]
    rfl

theorem icur_pushBits (bits : List Bool) (s : State) : (pushBits bits s).final.icur = s.icur := by
  induction bits generalizing s with
  | nil => rfl
  | cons b bits ih =>
    exact Body.final_andThen (fun a c => c.icur = a.icur) (fun _ _ _ hab hbc => hbc.trans hab) (icur_pushBit b s) ih

theorem keepsCursor_payloadByte (b : Byte) : KeepsCursor (payloadByte b) := by
  intro s t h
  have hinput := (streamsOnly_payloadByte b s).input
  rw [h] at hinput
  refine ⟨?_, hinput⟩
  unfold payloadByte at h
  split at h
  · have hicur := icur_pushBits (entryBits (codeAt s.code b)) s
    rwa [show pushBits (entryBits (codeAt s.code b)) s = .done t from h] at hicur
  · cases h

theorem payloadBody_eq_overBytes {s : State} (hlen : s.input.length < 2 ^ 64) :
    payloadBody s = overBytes payloadByte s.remaining s := forInput_bytesLeft keepsCursor_payloadByte hlen

/-! ### The bytes read and pushed -/

/-- A byte with a code: its code goes to the bit writer (R99). -/
theorem payloadByte_of_coded {s : State} {b : Byte} (h : (codeAt s.code b).valid = true) :
    payloadByte b s = pushBits (codeString s.code [b]) s := by
  rw [payloadByte, if_pos h, codeString, List.flatMap_singleton]
  rfl

theorem codeString_append (c : Vector CodeEntry 256) (as bs : List Byte) :
    codeString c (as ++ bs) = codeString c as ++ codeString c bs := List.flatMap_append

theorem acceptBits_readAll (s : State) (n : Nat) (bits : List Bool) :
    (s.readAll n).acceptBits bits = (s.acceptBits bits).readAll n := by
  simp only [State.readAll, State.acceptBits, State.accept, List.drop_drop, Nat.add_comm]

@[simp] theorem State.readAll_code (s : State) (n : Nat) : (s.readAll n).code = s.code := rfl

/-- Reading bytes that all have a code, without an error: their codes, one after the other, go to the bit writer (R99). -/
theorem overBytes_payloadByte {bs : List Byte} {s : State} (hclean : s.writerClean) (hcoded : allCoded s.code bs)
    (hdraws : s.DrawsSucceed (bs.length + s.bw.filled (codeString s.code bs) / 8)) :
    overBytes payloadByte bs s = .done ((s.acceptBits (codeString s.code bs)).readAll bs.length) := by
  induction bs generalizing s with
  | nil => rw [codeString, List.flatMap_nil, acceptBits_nil, List.length_nil, readAll_zero, overBytes]
  | cons b bs ih =>
    obtain ⟨hb, hbs⟩ := List.forall_mem_cons.mp hcoded
    have hcode := payloadByte_of_coded (s := s.readAll 1) hb
    rw [State.readAll_code] at hcode
    rw [← List.singleton_append, codeString_append] at hdraws ⊢
    generalize codeString s.code [b] = bits at hcode hdraws ⊢
    rw [BitWriter.filled_div_append, List.length_append, List.length_singleton, Nat.add_add_add_comm] at hdraws
    have hread : s.nextDraw = false := hdraws.nextDraw (by omega)
    have hpush : (s.readAll 1).DrawsSucceed (s.bw.filled bits / 8) := (hdraws.mono (Nat.le_add_right _ _)).drop rfl
    have hrest := ih (s := (s.acceptBits bits).readAll 1) (BitWriter.Clean.append bits hclean) hbs
      (hdraws.drop (by simp [Nat.add_comm]))
    rw [State.readAll_code, State.acceptBits_code, acceptBits_readAll, acceptBits_acceptBits hclean,
      readAll_readAll] at hrest
    rw [List.singleton_append, overBytes, inRead_of_success hread, Body.andThen_done, hcode,
      pushBits_of_success (s := s.readAll 1) hclean hpush, Body.andThen_done, acceptBits_readAll, hrest,
      List.length_cons, Nat.add_comm]

/-! ### The first error -/

/-- The answers after the first error, in a state that has used up those before it and the error (R39). -/
theorem ioErrs_past_first_error {s m : State} {n : Nat} {rest : List Bool}
    (hio : s.ioErrs = List.replicate n false ++ true :: rest) (hm : m.ioErrs = s.ioErrs.drop n) :
    m.dropDraw.ioErrs = rest := by
  simp [hm, hio]

section FirstError

variable {s : State} {pre post : List Byte} {b : Byte} {rest : List Bool}

/-- The read of the byte after `pre` draws the first error (R39, R99). -/
theorem payloadBody_of_read_error (hlen : s.input.length < 2 ^ 64) (hclean : s.writerClean)
    (hrem : s.remaining = pre ++ b :: post) (hcoded : allCoded s.code pre)
    (hio : s.ioErrs = List.replicate (pre.length + s.bw.filled (codeString s.code pre) / 8) false ++ true :: rest) :
    payloadBody s = .raised .io ((s.acceptBits (codeString s.code pre)).readAll pre.length).dropDraw := by
  have hpre := overBytes_payloadByte hclean hcoded (drawsSucceed_of_first_error hio le_rfl)
  rw [payloadBody_eq_overBytes hlen, hrem]
  refine overBytes_of_read_error hpre ?_
  simp [State.nextDraw, hio, Nat.add_comm]

/-- The byte `b` after `pre` is read, and push number `j` of those that its code completes draws the first error (R39,
R99). -/
theorem payloadBody_of_push_error {j : Nat} (hlen : s.input.length < 2 ^ 64) (hclean : s.writerClean)
    (hrem : s.remaining = pre ++ b :: post) (hcoded : allCoded s.code pre) (hb : (codeAt s.code b).valid = true)
    (hj : s.bw.filled (codeString s.code pre) / 8 + j < s.bw.filled (codeString s.code (pre ++ [b])) / 8)
    (hio : s.ioErrs =
      List.replicate (pre.length + 1 + s.bw.filled (codeString s.code pre) / 8 + j) false ++ true :: rest) :
    payloadBody s = .raised .io
      ((s.acceptBits ((codeString s.code (pre ++ [b])).take
        (8 * (s.bw.filled (codeString s.code pre) / 8 + j) + 7 - s.bw.cur.toNat))).readAll (pre.length + 1)).dropDraw := by
  have hdraws := drawsSucceed_of_first_error (n := pre.length + s.bw.filled (codeString s.code pre) / 8 + 1) hio (by omega)
  have hpre := overBytes_payloadByte hclean hcoded (hdraws.mono (Nat.le_succ _))
  have hread : ((s.acceptBits (codeString s.code pre)).readAll pre.length).nextDraw = false :=
    (hdraws.drop (by simp [Nat.add_comm])).nextDraw Nat.one_pos
  have hcode := payloadByte_of_coded (s := (s.acceptBits (codeString s.code pre)).readAll (pre.length + 1)) hb
  have herrs : ((s.acceptBits (codeString s.code pre)).readAll (pre.length + 1)).ioErrs =
      List.replicate j false ++ true :: rest := by
    rw [State.readAll_ioErrs, State.acceptBits_ioErrs, List.drop_drop, hio, drop_first_error (by omega)]
    congr 2
    omega
  rw [codeString_append, BitWriter.filled_div_append] at hj
  rw [payloadBody_eq_overBytes hlen, hrem, codeString_append, BitWriter.take_append_before, ← acceptBits_acceptBits hclean,
    ← acceptBits_readAll]
  refine overBytes_of_body_raised hpre hread ?_
  rw [readAll_readAll, hcode]
  exact pushBits_of_error (BitWriter.Clean.append _ hclean) herrs (Nat.add_lt_add_iff_left.mp hj)

end FirstError

end Sys2Proof.Machine

namespace Sys2Proof.Proofs

open Sys2Proof.Machine

/-- Settles O60: the bytes of `pre` are read and their codes pushed; then the read of `b` errs, or `b` is read and
a push of its code errs. -/
theorem payloadStopsAtStreamError : Obligations.PayloadStopsAtStreamError := by
  intro s pre post b rest herr hcv hlen hcur hclean hrem hcoded before after
  have hguard : needCodes s = none := by simp [needCodes, hcv]
  have hcount : pre.length + 1 ≤ s.remaining.length := by rw [hrem]; simp
  rw [exec_payload]
  constructor
  · intro hio
    have hbody := payloadBody_of_read_error hlen hclean hrem hcoded hio
    refine ⟨_, issue_raised herr rfl hguard hbody, rfl, rfl, ?_, rfl, rfl, rfl, rfl, rfl, rfl, rfl, ?_⟩
    · exact toNat_icur_readAll hlen ((Nat.le_succ _).trans hcount)
    · refine ioErrs_past_first_error hio ((List.drop_drop ..).trans (congrArg (s.ioErrs.drop ·) ?_))
      exact Nat.add_comm _ _
  · intro j hb hj hio
    have hbody := payloadBody_of_push_error hlen hclean hrem hcoded hb hj hio
    have hfilled : s.bw.filled _ / 8 = before + j := BitWriter.filled_take_div _ hj
    have hbytes : s.bw.fullBytes _ = _ := BitWriter.Clean.fullBytes_take _ hclean hj
    refine ⟨_, issue_raised herr rfl hguard hbody, rfl, rfl, ?_, ?_, ?_, rfl, rfl, rfl, rfl, rfl, ?_⟩
    · exact toNat_icur_readAll hlen hcount
    · rw [Nat.add_assoc, State.acceptBits_out, List.take_length_add_append]
      exact congrArg (s.out ++ ·) hbytes
    · exact congrArg (fun n => s.olen + BitVec.ofNat 64 n) hfilled
    · refine ioErrs_past_first_error hio ((List.drop_drop ..).trans (congrArg (s.ioErrs.drop ·) ?_))
      exact (congrArg (· + (pre.length + 1)) hfilled).trans (by omega)

end Sys2Proof.Proofs
end
section
/-! SUPPORT. Command words (spec/30_encoding.md R49 to R56): a word is its four fields, `decode` and `encode` are inverse, the rows
of the opcode map select the words, and which words are illegal. -/

namespace Sys2Proof

/-! ### A word and its fields -/

/-- A word is put together from its fields (R49). -/
theorem fields_append (w : Word) : cmdOp w ++ cmdA w ++ cmdRsv w ++ cmdPat w = w := by
  rw [cmdOp, cmdA, cmdRsv, cmdPat, BitVec.extractLsb'_append_extractLsb'_eq_extractLsb' (show 56 = 48 + 8 from rfl),
    BitVec.extractLsb'_append_extractLsb'_eq_extractLsb' (show 48 = 32 + 16 from rfl),
    BitVec.extractLsb'_append_extractLsb'_eq_extractLsb' (show 32 = 0 + 32 from rfl)]
  exact BitVec.extractLsb'_eq_self

/-- A word whose reserved field is zero is the `cmdWord` of its other fields. -/
theorem cmdWord_fields {w : Word} (hrsv : cmdRsv w = 0#16) : cmdWord (cmdOp w) (cmdA w) (cmdPat w) = w := by
  rw [cmdWord, ← hrsv, fields_append]

/-- `w = (op << 56) | (a << 48) | pat` (R55). -/
theorem cmdWord_eq_or (op a : BitVec 8) (pat : BitVec 32) :
    cmdWord op a pat = op.setWidth 64 <<< 56 ||| a.setWidth 64 <<< 48 ||| pat.setWidth 64 := by
  have h := BitVec.setWidth_append_append_append_eq_shiftLeft_setWidth_or (b := op) (b' := a) (b'' := 0#16) (b''' := pat)
    (w'''' := 64)
  rwa [BitVec.setWidth_eq, BitVec.setWidth_zero, BitVec.zero_shiftLeft, BitVec.or_zero] at h

theorem append_eq_zero_iff {m n : Nat} (x : BitVec m) (y : BitVec n) : x ++ y = 0#(m + n) ↔ x = 0#m ∧ y = 0#n := by
  simp only [← BitVec.toNat_inj, Machine.toNat_append_eq_add, BitVec.toNat_ofNat, Nat.zero_mod, Nat.add_eq_zero_iff,
    Nat.mul_eq_zero, Nat.pow_eq_zero, OfNat.ofNat_ne_zero, false_and, false_or]

/-- The bits an `EMIT` fixes to zero are two of the fields (R49, R51). -/
theorem low48_eq_zero_iff (w : Word) : w.extractLsb' 0 48 = 0#48 ↔ cmdRsv w = 0#16 ∧ cmdPat w = 0#32 := by
  rw [← append_eq_zero_iff, cmdRsv, cmdPat,
    BitVec.extractLsb'_append_extractLsb'_eq_extractLsb' (show 32 = 0 + 32 from rfl)]

/-- The bits below the opcode are three of the fields (R49, R51). -/
theorem low56_eq_zero_iff (w : Word) :
    w.extractLsb' 0 56 = 0#56 ↔ cmdA w = 0#8 ∧ cmdRsv w = 0#16 ∧ cmdPat w = 0#32 := by
  rw [← low48_eq_zero_iff, ← append_eq_zero_iff, cmdA,
    BitVec.extractLsb'_append_extractLsb'_eq_extractLsb' (show 48 = 0 + 48 from rfl)]

theorem cmdOp_eq_ofNat {w : Word} {n : Nat} (h : (cmdOp w).toNat = n) : cmdOp w = BitVec.ofNat 8 n := by
  rw [← h, BitVec.ofNat_toNat, BitVec.setWidth_eq]

/-! ### What each row of the decoder accepts -/

theorem noOperands_eq_ok {w : Word} {i j : Instr} :
    noOperands w i = .ok j ↔ (cmdA w = 0#8 ∧ cmdRsv w = 0#16 ∧ cmdPat w = 0#32) ∧ i = j := by
  unfold noOperands
  split <;> simp [*]

theorem bwriteOperands_eq_ok {w : Word} {j : Instr} :
    bwriteOperands w = .ok j ↔ (cmdRsv w = 0#16 ∧ (cmdA w).toNat ≤ 32) ∧ .bwrite (cmdPat w) (cmdA w) = j := by
  unfold bwriteOperands
  split_ifs with hrsv hn
  · simp [hrsv]
  · simp [Nat.not_le.mpr hn]
  · simp [not_not.mp hrsv, Nat.not_lt.mp hn]

theorem emitOperands_eq_ok {w : Word} {j : Instr} :
    emitOperands w = .ok j ↔ (cmdRsv w = 0#16 ∧ cmdPat w = 0#32) ∧ .emit (cmdA w) = j := by
  unfold emitOperands
  split <;> simp [*]

/-! ### Decoder and encoder -/

/-- The decoder reads back the fields the encoder wrote. -/
theorem decode_encode {i : Instr} (h : i.wellFormed = true) : decode (encode i) = .ok i := by
  cases i with
  | bwrite pat n =>
    have hn : n.toNat ≤ 32 := of_decide_eq_true h
    simp [decode, encode, bwriteOperands_eq_ok, hn]
  | emit y => simp [decode, encode, emitOperands_eq_ok]
  | _ => rfl

/-- A word in a row without operands is the word of the row's command. -/
theorem encode_of_noOperands {w : Word} {i j : Instr} {n : Nat} (hop : (cmdOp w).toNat = n) (h : noOperands w i = .ok j)
    (henc : encode i = cmdWord (BitVec.ofNat 8 n) 0#8 0#32) (hwf : i.wellFormed = true) :
    encode j = w ∧ j.wellFormed = true := by
  obtain ⟨⟨ha, hrsv, hpat⟩, rfl⟩ := noOperands_eq_ok.mp h
  exact ⟨by rw [henc, ← cmdOp_eq_ofNat hop, ← ha, ← hpat, cmdWord_fields hrsv], hwf⟩

/-- Every legal word is the word of the one instruction it decodes to, row by row of the opcode map. -/
theorem encode_of_decode {w : Word} {i : Instr} (h : decode w = .ok i) : encode i = w ∧ i.wellFormed = true := by
  unfold decode at h
  split at h
  case h_5 hop =>
    obtain ⟨⟨hrsv, hn⟩, rfl⟩ := bwriteOperands_eq_ok.mp h
    exact ⟨by rw [encode, ← cmdOp_eq_ofNat hop, cmdWord_fields hrsv], decide_eq_true hn⟩
  case h_9 hop =>
    obtain ⟨⟨hrsv, hpat⟩, rfl⟩ := emitOperands_eq_ok.mp h
    exact ⟨by rw [encode, ← cmdOp_eq_ofNat hop, ← hpat, cmdWord_fields hrsv], rfl⟩
  case h_12 => cases h
  all_goals
    next hop => exact encode_of_noOperands hop h rfl rfl

theorem decode_eq_ok_iff {w : Word} {i : Instr} : decode w = .ok i ↔ i.wellFormed = true ∧ encode i = w := by
  constructor
  · exact fun h => (encode_of_decode h).symm
  · rintro ⟨hwf, rfl⟩
    exact decode_encode hwf

/-! ### The rows of the opcode map -/

theorem encode_matchesRow (i : Instr) : Laws.MatchesRow.Statement i := by
  cases i with
  | count => exact Laws.MatchesRow.count
  | rewind => exact Laws.MatchesRow.rewind
  | tbuild => exact Laws.MatchesRow.tbuild
  | cgen => exact Laws.MatchesRow.cgen
  | bwrite pat n => exact Laws.MatchesRow.bwrite pat n
  | bclose => exact Laws.MatchesRow.bclose
  | hdr => exact Laws.MatchesRow.hdr
  | tser => exact Laws.MatchesRow.tser
  | emit y => exact Laws.MatchesRow.emit y
  | payload => exact Laws.MatchesRow.payload
  | encode => exact Laws.MatchesRow.encode

/-- A field that the mask of a row covers is fixed by the row (R51). -/
theorem field_of_row {w mask row : Word} {k n : Nat} {x : BitVec n} (h : w &&& mask = row)
    (hmask : mask.extractLsb' k n = BitVec.allOnes n) (hrow : row.extractLsb' k n = x) : w.extractLsb' k n = x := by
  rw [← hrow, ← h, BitVec.extractLsb'_and, hmask, BitVec.and_allOnes]

/-- Where the mask covers the whole word, the row is one word (R51). -/
theorem encode_of_full_mask {w : Word} {i : Instr} (h : w &&& rowMask i = rowMatch i)
    (hmask : rowMask i = BitVec.allOnes 64) (henc : encode i = rowMatch i) : encode i = w := by
  rw [henc, ← h, hmask, BitVec.and_allOnes]

/-- The row of `i` with the operands of `i` holds the word of `i` and no other. -/
theorem encode_eq_iff_row {w : Word} {i : Instr} :
    encode i = w ↔ w &&& rowMask i = rowMatch i ∧ rowOperands i w = true := by
  constructor
  · rintro rfl
    exact encode_matchesRow i
  · rintro ⟨hrow, hoperands⟩
    cases i with
    | bwrite pat n =>
      rw [rowMask, rowMatch] at hrow
      have hop : cmdOp w = 5#8 := field_of_row hrow (by decide) (by decide)
      have hrsv : cmdRsv w = 0#16 := field_of_row hrow (by decide) (by decide)
      simp only [rowOperands, Bool.and_eq_true, decide_eq_true_eq] at hoperands
      obtain ⟨hpat, hn⟩ := hoperands
      rw [encode, ← hop, hn, hpat]
      exact cmdWord_fields hrsv
    | emit y =>
      rw [rowMask, rowMatch] at hrow
      have hop : cmdOp w = 9#8 := field_of_row hrow (by decide) (by decide)
      have hrsv : cmdRsv w = 0#16 := field_of_row hrow (by decide) (by decide)
      have hpat : cmdPat w = 0#32 := field_of_row hrow (by decide) (by decide)
      have hy : y = cmdA w := of_decide_eq_true hoperands
      rw [encode, ← hop, hy, ← hpat, cmdWord_fields hrsv]
    | _ => exact encode_of_full_mask hrow rfl rfl

/-! ### Illegal words -/

theorem exists_error_iff {α β : Type} {x : Except α β} : (∃ r, x = .error r) ↔ ¬ ∃ i, x = .ok i := by
  cases x <;> simp

theorem noOperands_illegal_iff {w : Word} {i : Instr} :
    (∃ r, noOperands w i = .error r) ↔ w.extractLsb' 0 56 ≠ 0#56 := by
  simp [exists_error_iff, noOperands_eq_ok, low56_eq_zero_iff]

theorem bwriteOperands_illegal_iff {w : Word} :
    (∃ r, bwriteOperands w = .error r) ↔ cmdRsv w ≠ 0#16 ∨ 32 < (cmdA w).toNat := by
  simp [exists_error_iff, bwriteOperands_eq_ok, imp_iff_not_or]

theorem emitOperands_illegal_iff {w : Word} : (∃ r, emitOperands w = .error r) ↔ w.extractLsb' 0 48 ≠ 0#48 := by
  simp [exists_error_iff, emitOperands_eq_ok, low48_eq_zero_iff]

/-- The three cases of R52, in its order. -/
def InIllegalCase (w : Word) : Prop :=
  (cmdOp w = 0#8 ∨ 0x0C ≤ (cmdOp w).toNat) ∨
    (1 ≤ (cmdOp w).toNat ∧ (cmdOp w).toNat ≤ 0x0B ∧
      (if cmdOp w = 5#8 then cmdRsv w ≠ 0#16
        else if cmdOp w = 9#8 then w.extractLsb' 0 48 ≠ 0#48
        else w.extractLsb' 0 56 ≠ 0#56)) ∨
    (cmdOp w = 5#8 ∧ 32 < (cmdA w).toNat)

/-- In a row without operands only case (b) can hold. -/
theorem inIllegalCase_of_noOperands {w : Word} {n : Nat} (hop : (cmdOp w).toNat = n)
    (hn : 1 ≤ n ∧ n ≤ 0x0B ∧ n ≠ 5 ∧ n ≠ 9) : InIllegalCase w ↔ w.extractLsb' 0 56 ≠ 0#56 := by
  have h0 : cmdOp w ≠ 0#8 := by bv_omega
  have h5 : cmdOp w ≠ 5#8 := by bv_omega
  have h9 : cmdOp w ≠ 9#8 := by bv_omega
  have hlt : ¬ 0x0C ≤ n := by omega
  simp [InIllegalCase, h0, h5, h9, hop, hlt, hn]

/-- A word is illegal exactly in the three cases of R52. -/
theorem illegal_iff (w : Word) : (∃ r, decode w = .error r) ↔ InIllegalCase w := by
  unfold decode
  split
  case h_5 hop => simp [bwriteOperands_illegal_iff, InIllegalCase, cmdOp_eq_ofNat hop]
  case h_9 hop => simp [emitOperands_illegal_iff, InIllegalCase, cmdOp_eq_ofNat hop]
  case h_12 =>
    have hop : (cmdOp w).toNat = 0 ∨ 0x0C ≤ (cmdOp w).toNat := by grind only
    exact iff_of_true ⟨_, rfl⟩ (.inl (hop.imp_left cmdOp_eq_ofNat))
  all_goals
    next hop => rw [noOperands_illegal_iff, inIllegalCase_of_noOperands hop (by decide)]

end Sys2Proof

namespace Sys2Proof.Proofs

open Sys2Proof.Machine

/-- Settles O5: the decoder reads back the fields the encoder wrote. -/
theorem decodeInvertsEncode : Obligations.DecodeInvertsEncode := fun _ => decode_encode

/-- Settles O6: each row of the decoder accepts only the words of its instructions. -/
theorem encodeInvertsDecode : Obligations.EncodeInvertsDecode := fun _ _ => encode_of_decode

/-- Settles O4: a word decodes to `i` when it is the word of `i`, and that is the one word of the row with the operands. -/
theorem rowsSelectWords : Obligations.RowsSelectWords := by
  intro w i
  rw [decode_eq_ok_iff, encode_eq_iff_row]

/-- Settles O7: the rows refuse exactly the three cases, and an illegal word takes the access and records `ILL`. -/
theorem illegalWordsRaiseIll : Obligations.IllegalWordsRaiseIll := by
  refine ⟨fun w => ?_, illegal_iff, fun s w rest r he hp hd => ?_⟩
  · cases decode w with
    | ok i => exact .inl ⟨i, rfl, fun j hj => (Except.ok.inj hj).symm⟩
    | error r => exact .inr ⟨r, rfl⟩
  · rw [step_of_pending hp]
    simp [access, regWrite, issueWord, he, hd, State.setPending, State.recordFault]

/-- Settles O8: each word has its fields. -/
theorem sampleWordsDecode : Obligations.SampleWordsDecode := by
  unfold Obligations.SampleWordsDecode
  decide

/-- Settles O9: the words of the commands are put together from their fields, and the number of an entry does not wrap. -/
theorem pseudoInstructionsExpand : Obligations.PseudoInstructionsExpand := by
  refine ⟨rfl, rfl, fun v => ?_, fun v => ?_, fun y c => ?_, rfl⟩
  · rw [ScriptLine.expand, commandAccess, encode, cmdWord_eq_or, BitVec.setWidth_setWidth (by decide)]
    rfl
  · rw [ScriptLine.expand, commandAccess, encode, cmdWord_eq_or]
    rfl
  · have hnum : 0x100#12 + y.setWidth 12 = BitVec.ofNat 12 (0x100 + y.toNat) := by bv_omega
    rw [ScriptLine.expand, hnum]

end Sys2Proof.Proofs
end
section
/-! SUPPORT. The faults of each command (spec/60_exceptions.md R106, R108): which codes its checks and its body can raise.
`ENCODE` cannot raise `NOCODE`, since its `COUNT` counts every byte it later sends (spec/44_encoder.md R100). -/

namespace Sys2Proof.Machine

/-! ### Two facts about how a body ends -/

theorem Body.Ends.weaken {P P' : State → Prop} {Q Q' : ErrCode → State → Prop} {b : Body} (h : b.Ends P Q)
    (hP : ∀ t, P t → P' t) (hQ : ∀ e t, Q e t → Q' e t) : b.Ends P' Q' := by
  cases b with
  | done t => exact hP t h
  | raised e t => exact hQ e t h

theorem Body.Ends.and {P P' : State → Prop} {Q Q' : ErrCode → State → Prop} {b : Body} (h : b.Ends P Q)
    (h' : b.Ends P' Q') : b.Ends (fun t => P t ∧ P' t) Q := by
  cases b with
  | done t => exact ⟨h, h'⟩
  | raised e t => exact h

/-- A property that every turn of the loop over the input keeps, the read and the loop's body together. -/
theorem forInput_ends {P : State → Prop} {Q : ErrCode → State → Prop} {body : Byte → State → Body}
    (hturn : ∀ s b, P s → s.inByte? = some b → ((inRead s).andThen (body b)).Ends P Q) (turns : Nat) {s : State}
    (hs : P s) : (forInput body turns s).Ends P Q := by
  induction turns generalizing s with
  | zero => exact hs
  | succ n ih =>
    unfold forInput
    split
    · exact hs
    · next b hb =>
      rw [← Body.andThen_assoc]
      exact (hturn s b hs hb).andThen fun _ => ih

/-! ### The faults of the shared operations -/

/-- Ends with `ERR` as it was, or at a `raise` of one of the faults `es` (R107). -/
def RaisesOnly (es : List ErrCode) (body : State → Body) : Prop :=
  ∀ s, (body s).Ends (fun t => t.err = s.err) fun e _ => e ∈ es

section Raises

variable {es : List ErrCode} {j k : State → Body}

theorem RaisesOnly.done : RaisesOnly es .done := fun _ => rfl

theorem RaisesOnly.andThen (hj : RaisesOnly es j) (hk : RaisesOnly es k) : RaisesOnly es fun s => (j s).andThen k :=
  fun s => (hj s).andThen fun m hm => (hk m).mono fun _ ht => ht.trans hm

theorem RaisesOnly.mono {es' : List ErrCode} (hj : RaisesOnly es j) (h : ∀ e ∈ es, e ∈ es') : RaisesOnly es' j :=
  fun s => (hj s).weaken (fun _ => id) fun e _ => h e

variable (hio : ErrCode.io ∈ es)
include hio

theorem raisesOnly_inRead : RaisesOnly es inRead := by
  intro s
  obtain ⟨-, e⟩ | ⟨-, e⟩ := inRead_cases s <;> rw [e]
  · exact hio
  · rfl

theorem raisesOnly_outBytes (bs : List Byte) : RaisesOnly es (outBytes bs) := by
  intro s
  obtain e | ⟨k, -, e⟩ := outBytes_cases bs s <;> rw [e]
  · rfl
  · exact hio

theorem raisesOnly_outByte_setEmptyWriter (b : Byte) :
    RaisesOnly es fun s => (outByte b s).andThen fun t => .done (t.setWriter 0#8 0#3) := by
  have hpush : RaisesOnly es (outByte b) := fun s => outByte_eq_outBytes b s ▸ raisesOnly_outBytes hio [b] s
  exact hpush.andThen fun _ => rfl

theorem raisesOnly_pushBit (b : Bool) : RaisesOnly es (pushBit b) := by
  intro s
  by_cases hc : s.bw.cur = 7#3
  · rw [pushBit_of_cur_eq b s hc]
    exact raisesOnly_outByte_setEmptyWriter hio _ s
  · rw [pushBit_of_cur_lt b s hc]
    rfl

theorem raisesOnly_pushBits (bits : List Bool) : RaisesOnly es (pushBits bits) := by
  induction bits with
  | nil => exact .done
  | cons b bits ih => exact (raisesOnly_pushBit hio b).andThen ih

theorem raisesOnly_bitFlush : RaisesOnly es bitFlush := by
  intro s
  unfold bitFlush
  split
  · rfl
  · exact raisesOnly_outByte_setEmptyWriter hio _ s

theorem raisesOnly_sendCode (y : Byte) : RaisesOnly es (sendCode y) := fun s =>
  raisesOnly_pushBits hio (entryBits (codeAt s.code y)) s

theorem raisesOnly_forInput {body : Byte → State → Body} (hbody : ∀ b, RaisesOnly es (body b)) (turns : Nat) :
    RaisesOnly es (forInput body turns) := by
  intro s
  refine forInput_ends (P := fun t => t.err = s.err) (fun m b hm _ => ?_) turns rfl
  exact ((raisesOnly_inRead hio).andThen (hbody b) m).mono fun _ ht => ht.trans hm

theorem raisesOnly_serNodes (hinv : ErrCode.invariant ∈ es) (depth i : Nat) : RaisesOnly es (serNodes depth i) := by
  induction depth generalizing i with
  | zero => exact fun _ => hinv
  | succ d ih =>
    intro s
    unfold serNodes
    dsimp only
    split
    · exact raisesOnly_outBytes hio _ s
    · split
      · exact ((raisesOnly_outBytes hio _).andThen (ih _)).andThen (ih _) s
      · exact hinv

end Raises

/-! ### The faults of the bodies -/

theorem raisesOnly_rewindBody {es : List ErrCode} : RaisesOnly es rewindBody := fun _ => rfl

theorem raisesOnly_countBody : RaisesOnly [.io, .cntOvf] countBody := by
  have hbyte (b : Byte) : RaisesOnly [.io, .cntOvf] (countByte b) := by
    intro s
    unfold countByte
    split
    · exact List.mem_cons_of_mem _ (List.mem_singleton_self _)
    · rfl
  exact fun s => raisesOnly_forInput (List.mem_cons_self ..) hbyte _ s.clearValid.clearFreq

theorem raisesOnly_tbuildBody : RaisesOnly [.cntOvf] tbuildBody := by
  intro s
  obtain ⟨t, e⟩ | ⟨t, e⟩ := tbuildBody_cases s <;> rw [e]
  · rfl
  · exact List.mem_singleton_self _

theorem raisesOnly_cgenBody : RaisesOnly [.invariant] cgenBody := by
  intro s
  obtain ⟨c, v, hfinal⟩ := cgenBody_final s
  cases hend : cgenBody s with
  | done t =>
    rw [hend, Body.final_done] at hfinal
    subst hfinal
    rfl
  | raised e t => exact List.mem_singleton.mpr (cgenBody_raises_invariant hend)

theorem raisesOnly_hdrBody : RaisesOnly [.io] hdrBody := raisesOnly_outBytes (List.mem_singleton_self _) _

theorem raisesOnly_tserBody : RaisesOnly [.io, .invariant] tserBody := by
  have htree : RaisesOnly [.io, .invariant] serTree := by
    intro s
    unfold serTree
    split
    · rfl
    · exact raisesOnly_serNodes (by decide) (by decide) _ _ s
  exact htree.andThen (raisesOnly_outBytes (by decide) _)

theorem raisesOnly_payloadBody : RaisesOnly [.io, .noCode] payloadBody := by
  have hbyte (b : Byte) : RaisesOnly [.io, .noCode] (payloadByte b) := by
    intro s
    unfold payloadByte
    split
    · exact raisesOnly_sendCode (by decide) b s
    · exact List.mem_cons_of_mem _ (List.mem_singleton_self _)
  exact fun s => raisesOnly_forInput (List.mem_cons_self ..) hbyte _ s

/-- The faults a body can raise where nothing is known of the state. -/
def bodyFaults : Instr → List ErrCode
  | .count => [.io, .cntOvf]
  | .rewind => []
  | .tbuild => [.cntOvf]
  | .cgen => [.invariant]
  | .bwrite _ _ | .bclose | .hdr | .emit _ => [.io]
  | .tser => [.io, .invariant]
  | .payload => [.io, .noCode]
  | .encode => [.io, .invariant, .cntOvf, .noCode]

theorem raisesOnly_encodeBody : RaisesOnly (bodyFaults .encode) encodeBody := by
  have built := (raisesOnly_rewindBody.andThen (raisesOnly_countBody.mono (es' := bodyFaults .encode) (by decide))).andThen
    (raisesOnly_tbuildBody.mono (by decide))
  have coded := built.andThen (raisesOnly_cgenBody.mono (by decide))
  have written := (coded.andThen (raisesOnly_hdrBody.mono (by decide))).andThen (raisesOnly_tserBody.mono (by decide))
  exact ((written.andThen raisesOnly_rewindBody).andThen (raisesOnly_payloadBody.mono (by decide))).andThen
    (raisesOnly_bitFlush (by decide))

theorem raisesOnly_bodyOf (i : Instr) : RaisesOnly (bodyFaults i) (bodyOf i) := by
  cases i with
  | count => exact raisesOnly_countBody
  | rewind => exact raisesOnly_rewindBody
  | tbuild => exact raisesOnly_tbuildBody
  | cgen => exact raisesOnly_cgenBody
  | bwrite pat n => exact raisesOnly_pushBits (List.mem_singleton_self _) _
  | bclose => exact raisesOnly_bitFlush (List.mem_singleton_self _)
  | hdr => exact raisesOnly_hdrBody
  | tser => exact raisesOnly_tserBody
  | emit y => exact raisesOnly_sendCode (List.mem_singleton_self _) y
  | payload => exact raisesOnly_payloadBody
  | encode => exact raisesOnly_encodeBody

theorem bodyOf_done_err {i : Instr} {s t : State} (h : bodyOf i s = .done t) : t.err = s.err := by
  have hends := raisesOnly_bodyOf i s
  rwa [h] at hends

theorem bodyOf_raised_mem {i : Instr} {s t : State} {e : ErrCode} (h : bodyOf i s = .raised e t) : e ∈ bodyFaults i := by
  have hends := raisesOnly_bodyOf i s
  rwa [h] at hends

/-! ### ENCODE sends only bytes it has counted -/

/-- A fault of the row of `ENCODE` (R106), in any state. -/
def EncodeFault (e : ErrCode) (_ : State) : Prop := e ∈ mayRaise .encode

/-- Every byte of `bs` has a count that is not zero. -/
def Counted (bs : List Byte) (s : State) : Prop := ∀ b ∈ bs, freqAt s.freq b ≠ 0#55

theorem counted_countByte {pre : List Byte} {s : State} (h : Counted pre s) (b : Byte) :
    (countByte b s).Ends (Counted (b :: pre)) EncodeFault := by
  unfold countByte
  split
  · exact (by decide : ErrCode.cntOvf ∈ mayRaise .encode)
  · next hmax =>
    intro y hy
    by_cases hby : b = y
    · subst hby
      rw [Config.cntMax] at hmax
      rw [freqAt_setFreq_self]
      bv_omega
    · rw [freqAt_setFreq_ne s b y _ hby]
      exact h y (List.mem_of_ne_of_mem (Ne.symm hby) hy)

theorem counted_overBytes (bs : List Byte) {pre : List Byte} {s : State} (h : Counted pre s) :
    (overBytes countByte bs s).Ends (Counted (bs.reverse ++ pre)) EncodeFault := by
  induction bs generalizing pre s with
  | nil => exact h
  | cons b bs ih =>
    have hread : (inRead s).Ends (Counted pre) EncodeFault := by
      obtain ⟨-, e⟩ | ⟨-, e⟩ := inRead_cases s <;> rw [e]
      · exact (by decide : ErrCode.io ∈ mayRaise .encode)
      · exact h
    rw [List.reverse_cons, List.append_assoc]
    exact hread.andThen fun m hm => (counted_countByte hm b).andThen fun t ht => ih ht

/-- A byte value with a leaf has a path to it (R78). -/
theorem exists_entryBelow {tr : Tree} {y : Byte} (h : y ∈ tr.symbols) (pre : List Bool) :
    ∃ bits, entryBelow pre tr y = some (entryOf bits) := by
  induction tr generalizing pre with
  | leaf s c =>
    rw [Tree.symbols, List.mem_singleton] at h
    exact ⟨pre, by rw [entryBelow_leaf, if_pos h]⟩
  | node c l r hl hr =>
    rw [entryBelow_node]
    cases hleft : entryBelow (pre ++ [false]) l y with
    | some entry =>
      obtain ⟨p, -, rfl⟩ := Option.map_eq_some_iff.mp hleft
      exact ⟨_, rfl⟩
    | none =>
      rw [Tree.symbols, List.mem_append] at h
      obtain h | h := h
      · obtain ⟨bits, hbits⟩ := hl h (pre ++ [false])
        rw [hbits] at hleft
        cases hleft
      · exact hr h (pre ++ [true])

theorem valid_tableEntry {t : TreeMem} {tr : Tree} (hroot : t.root ≠ Config.nil) (htree : t.tree? = some tr) {y : Byte}
    (hy : y ∈ tr.symbols) : (tableEntry t y).valid = true := by
  have hcode : ∃ bits, (tr.codes.lookup y).map entryOf = some (entryOf bits) := by
    cases tr with
    | leaf s c => exact codes_leaf_lookup s c y ▸ exists_entryBelow hy [false]
    | node c l r => exact codes_node_lookup c l r y ▸ exists_entryBelow hy []
  obtain ⟨bits, hbits⟩ := hcode
  rw [tableEntry_of_tree hroot htree, hbits]
  rfl

/-- With a truthful tree, every byte value with a count has a code (R64, R78). -/
theorem State.flagsTruthful.valid_tableEntry {s : State} (h : s.flagsTruthful) (ht : s.tvalid = true) {y : Byte}
    (hy : freqAt s.freq y ≠ 0#55) : (tableEntry s.tree y).valid = true := by
  obtain ⟨u, hu, hsame⟩ := h.1 ht
  have hbuilt := builtTree_spec hu
  have hmem := (mem_sortedSymbols s.freq y).mpr hy
  have hl : 1 ≤ leafCount s.freq := List.length_pos_of_mem hmem
  have hle := leafCount_le s.freq
  have ⟨_, _, hsameRoot, _⟩ := hsame
  have hroot : s.tree.root ≠ Config.nil := by
    rw [hsameRoot, hbuilt.root, if_neg (by omega)]
    change _ ≠ 511#9
    bv_omega
  have htree := hsame.tree?_eq.trans (hbuilt.tree?_eq hl)
  exact Machine.valid_tableEntry hroot htree ((hbuilt.symbols_perm hl).mem_iff.mpr hmem)

/-- The input is `inp`, and every byte of it is counted. -/
def InputCounted (inp : List Byte) (s : State) : Prop := s.input = inp ∧ Counted inp s

/-- The input is `inp`, and every byte of it has a code. -/
def InputCoded (inp : List Byte) (s : State) : Prop := s.input = inp ∧ allCoded s.code inp

/-- `COUNT` from the start of the input counts every byte of it (R58). -/
theorem inputCounted_countBody {s : State} (hlen : s.input.length < 2 ^ 64) (hicur : s.icur = 0#64) :
    (countBody s).Ends (InputCounted s.input) EncodeFault := by
  have hrem : s.remaining = s.input := by rw [State.remaining, hicur]; rfl
  have hcounted := counted_overBytes s.input (s := s.clearValid.withFreq (countTable [])) (List.forall_mem_nil _)
  rw [List.append_nil, ← hrem, ← countBody_eq_overBytes hlen, hrem] at hcounted
  have hkept := Body.ends_of_final (P := fun t => t.input = s.input) (countsOnly_countBody s).input
  exact (hcounted.and hkept).mono fun _ ⟨hc, hinput⟩ => ⟨hinput, fun b hb => hc b (List.mem_reverse.mpr hb)⟩

theorem InputCounted.tbuildBody {inp : List Byte} {s : State} (h : InputCounted inp s) :
    (tbuildBody s).Ends (fun t => InputCounted inp t ∧ t.flagsTruthful ∧ t.tvalid = true) EncodeFault := by
  have hkept : (Machine.tbuildBody s).Ends (InputCounted inp) EncodeFault := by
    obtain ⟨t, e⟩ | ⟨t, e⟩ := tbuildBody_cases s <;> rw [e]
    · exact h
    · exact (by decide : ErrCode.cntOvf ∈ mayRaise .encode)
  exact hkept.and (tbuildBody_flagsTruthful s)

theorem InputCounted.cgenBody {inp : List Byte} {s : State} (h : InputCounted inp s) (hflags : s.flagsTruthful)
    (ht : s.tvalid = true) : (cgenBody s).Ends (InputCoded inp) EncodeFault := by
  obtain ⟨table, hdone, htable⟩ := cgenBody_of_sound (hflags.sound ht)
  rw [hdone]
  exact ⟨h.1, fun b hb => (congrArg CodeEntry.valid (htable b)).trans (hflags.valid_tableEntry ht (h.2 b hb))⟩

/-- A body that only talks to the streams and the writer leaves the input and its codes. -/
theorem InputCoded.ends {inp : List Byte} {s : State} (h : InputCoded inp s) {body : State → Body} {es : List ErrCode}
    (hstreams : ∀ s, StreamsOnly s (body s).final) (hraises : RaisesOnly es body)
    (hes : ∀ e ∈ es, e ∈ mayRaise .encode) : (body s).Ends (InputCoded inp) EncodeFault := by
  have hkept : InputCoded inp (body s).final := by
    rw [InputCoded, (hstreams s).input, (hstreams s).code]
    exact h
  exact ((hraises.mono hes s).and (Body.ends_of_final hkept)).mono fun _ => And.right

/-- `PAYLOAD` on an input that is coded looks up no byte without a code (R99). -/
theorem InputCoded.payloadBody {inp : List Byte} {s : State} (h : InputCoded inp s) :
    (payloadBody s).Ends (InputCoded inp) EncodeFault := by
  refine forInput_ends (fun m b hm hb => ?_) _ h
  have hmem : b ∈ inp := hm.1 ▸ List.mem_of_getElem? hb
  refine (hm.ends streamsOnly_inRead (raisesOnly_inRead (List.mem_singleton_self _)) (by decide)).andThen fun k hk => ?_
  rw [payloadByte, if_pos (hk.2 b hmem)]
  exact hk.ends (streamsOnly_sendCode b) (raisesOnly_sendCode (List.mem_singleton_self _) b) (by decide)

/-- `ENCODE` raises no `NOCODE`: what it sends it has counted, and `CGEN` made a code for it (R100). -/
theorem encodeBody_mayRaise {s : State} (hlen : s.input.length < 2 ^ 64) :
    (encodeBody s).Ends (InputCoded s.input) EncodeFault := by
  have counted : (countBody s.rewindInput).Ends (InputCounted s.input) EncodeFault :=
    inputCounted_countBody (s := s.rewindInput) hlen rfl
  have coded := (counted.andThen fun _ h => h.tbuildBody).andThen fun _ ⟨h, hflags, ht⟩ => h.cgenBody hflags ht
  have written := (coded.andThen fun _ h => h.ends streamsOnly_hdrBody raisesOnly_hdrBody (by decide)).andThen
    fun _ h => h.ends streamsOnly_tserBody raisesOnly_tserBody (by decide)
  have rewound := written.andThen fun _ h => h.ends streamsOnly_rewindBody (raisesOnly_rewindBody (es := [])) (by decide)
  have sent := rewound.andThen fun _ h => h.payloadBody
  exact sent.andThen fun _ h => h.ends streamsOnly_bitFlush (raisesOnly_bitFlush (List.mem_singleton_self _)) (by decide)

theorem bodyFaults_subset_mayRaise {i : Instr} (h : i ≠ .encode) : bodyFaults i ⊆ mayRaise i := by
  cases i with
  | encode => exact absurd rfl h
  | _ => simp [bodyFaults, mayRaise]

/-- The body of a command raises only faults of its row (R106). -/
theorem bodyOf_mayRaise (i : Instr) {s : State} (hlen : s.input.length < 2 ^ 64) {e : ErrCode} {t : State}
    (h : bodyOf i s = .raised e t) : e ∈ mayRaise i := by
  by_cases hi : i = .encode
  · subst hi
    have hends := encodeBody_mayRaise hlen
    rwa [show encodeBody s = .raised e t from h] at hends
  · exact bodyFaults_subset_mayRaise hi (bodyOf_raised_mem h)

/-! ### The checks -/

theorem needTree_of_clear {s : State} (h : s.tvalid = false) : needTree s = some .seq := by simp [needTree, h]

theorem needCodes_of_clear {s : State} (h : s.cvalid = false) : needCodes s = some .seq := by simp [needCodes, h]

theorem needEmptyWriter_of_pending {s : State} (h : s.bw.cur ≠ 0#3) : needEmptyWriter s = some .order := by
  simp [needEmptyWriter, h]

theorem bothGuards_of_first {g k : State → Option ErrCode} {s : State} {e : ErrCode} (h : g s = some e) :
    bothGuards g k s = some e := by simp [bothGuards, h]

theorem needTree_eq_some {s : State} {e : ErrCode} (h : needTree s = some e) : e = .seq := by
  unfold needTree at h
  split at h <;> cases h
  rfl

theorem needCodes_eq_some {s : State} {e : ErrCode} (h : needCodes s = some e) : e = .seq := by
  unfold needCodes at h
  split at h <;> cases h
  rfl

theorem needCodeOf_eq_some {y : Byte} {s : State} {e : ErrCode} (h : needCodeOf y s = some e) : e = .noCode := by
  unfold needCodeOf at h
  split at h <;> cases h
  rfl

theorem needEmptyWriter_eq_some {s : State} {e : ErrCode} (h : needEmptyWriter s = some e) : e = .order := by
  unfold needEmptyWriter at h
  split at h <;> cases h
  rfl

theorem bothGuards_eq_some {g k : State → Option ErrCode} {s : State} {e : ErrCode} (h : bothGuards g k s = some e) :
    g s = some e ∨ k s = some e := by
  unfold bothGuards at h
  split at h
  · next hg => exact .inl (hg.trans h)
  · exact .inr h

/-- The checks of a command raise only faults of its row (R54, R106). -/
theorem guardOf_mayRaise {i : Instr} {s : State} {e : ErrCode} (h : guardOf i s = some e) : e ∈ mayRaise i := by
  cases i with
  | count | rewind | tbuild | bwrite pat n | bclose => cases h
  | cgen => rw [needTree_eq_some h]; decide
  | hdr | encode => rw [needEmptyWriter_eq_some h]; decide
  | tser =>
    obtain h | h := bothGuards_eq_some h
    · rw [needTree_eq_some h]; decide
    · rw [needEmptyWriter_eq_some h]; decide
  | emit y =>
    obtain h | h := bothGuards_eq_some h
    · rw [needCodes_eq_some h]; exact (by decide : ErrCode.seq ∈ [.io, .seq, .noCode])
    · rw [needCodeOf_eq_some h]; exact (by decide : ErrCode.noCode ∈ [.io, .seq, .noCode])
  | payload => rw [needCodes_eq_some h]; decide

/-- A command whose check fails records the fault and its own word, and changes nothing else. -/
theorem exec_guarded {i : Instr} {s : State} {e : ErrCode} (herr : s.err = .none) (hwf : i.wellFormed = true)
    (hg : guardOf i s = some e) : exec i s = .next (s.recordFault e (encode i)) := by
  rw [exec_eq_issue]
  exact issue_guarded herr hwf hg

/-- No body raises one of the precise faults: those of the checks, and `NOCODE` in `EMIT` (R108). -/
theorem bodyFaults_imprecise {i : Instr} {e : ErrCode} (h : e ∈ bodyFaults i) :
    ¬ (e = .ill ∨ e = .seq ∨ e = .order ∨ (e = .noCode ∧ ∃ y, i = .emit y)) := by
  rintro (rfl | rfl | rfl | ⟨rfl, y, rfl⟩)
  case inr.inr.inr => cases List.mem_singleton.mp h
  all_goals cases i <;> simp [bodyFaults] at h

end Sys2Proof.Machine

namespace Sys2Proof.Proofs

open Sys2Proof.Machine

/-- Settles O53: a check raises a fault of the row, and so does the body; a body that is done leaves `ERR` 0. -/
theorem faultsRecordTheCommandWord : Obligations.FaultsRecordTheCommandWord := by
  intro i s t herr hwf hlen h hfault
  rw [exec_eq_issue] at h
  obtain ⟨he, -⟩ | ⟨-, hill, -⟩ | ⟨-, -, e, hg, hnext⟩ | ⟨-, -, -, m, hdone, hnext⟩ | ⟨-, -, -, e, m, hraised, hnext⟩ :=
    issue_cases i (guardOf i) (bodyOf i) s
  · exact absurd herr he
  · rw [hwf] at hill
    cases hill
  · rw [hnext] at h
    cases h
    exact ⟨guardOf_mayRaise hg, rfl⟩
  · rw [hnext] at h
    cases h
    exact absurd ((bodyOf_done_err hdone).trans herr) hfault
  · rw [hnext] at h
    cases h
    exact ⟨bodyOf_mayRaise i hlen hraised, rfl⟩

/-- Settles O54: a fault raised before the body runs changes only `ERR` and `ERRINFO`, and no body raises a precise one. -/
theorem preciseFaultsChangeNothing : Obligations.PreciseFaultsChangeNothing := by
  intro i s t herr h hprecise
  obtain ⟨he, -⟩ | ⟨-, e, rfl⟩ | ⟨-, -, hdone⟩ | ⟨-, -, e, m, hraised, rfl⟩ := exec_cases h
  · exact absurd herr he
  · rfl
  · rw [(bodyOf_done_err hdone).trans herr] at hprecise
    simp at hprecise
  · exact absurd hprecise (bodyFaults_imprecise (bodyOf_raised_mem hraised))

/-- Settles O11: the check of the tree or the table comes first and fails. -/
theorem sequenceFaultIsPrecise : Obligations.SequenceFaultIsPrecise := by
  intro s y herr
  refine ⟨fun ht => ?_, fun hc => ?_⟩
  · have htree := needTree_of_clear ht
    exact ⟨exec_guarded herr rfl htree, exec_guarded herr rfl (bothGuards_of_first htree)⟩
  · have hcodes := needCodes_of_clear hc
    refine ⟨?_, exec_guarded herr rfl hcodes⟩
    rw [exec_guarded (i := .emit y) herr rfl (bothGuards_of_first hcodes), encode, cmdWord_eq_or]
    simp [State.recordFault]

/-- Settles O12: the check of the writer fails, after that of the tree has passed. -/
theorem orderFaultIsPrecise : Obligations.OrderFaultIsPrecise := by
  intro s herr hcur
  have hwriter := needEmptyWriter_of_pending hcur
  refine ⟨exec_guarded herr rfl hwriter, exec_guarded herr rfl hwriter, fun ht => exec_guarded herr rfl ?_⟩
  simp [guardOf, bothGuards, needTree, ht, hwriter]

end Sys2Proof.Proofs
end
section
/-! SUPPORT. `COUNT` without a read error, its table and its overflow (spec/40_frequency_counter.md R58), `REWIND` (R59), and
the frame of both (O22, O23, O25, O55). -/

namespace Sys2Proof.Machine

/-! ### Counting to the end, and to a full entry -/

/-- The entry of a byte that occurs at most `CNTMAX` times is exact (R17). -/
theorem toNat_freqAt_countTable {bs : List Byte} {y : Byte} (h : bs.count y ≤ Config.cntMax) :
    (freqAt (countTable bs) y).toNat = bs.count y := by
  rw [freqAt_countTable, BitVec.toNat_ofNat]
  rw [Config.cntMax] at h
  omega

/-- Counting a byte that has occurred `CNTMAX` times (R58). -/
theorem countByte_of_full {bs : List Byte} {b : Byte} (s : State) (hfull : bs.count b = Config.cntMax) :
    countByte b (s.withFreq (countTable bs)) = .raised .cntOvf (s.withFreq (countTable bs)) :=
  if_pos ((toNat_freqAt_countTable hfull.le).trans hfull)

/-- Counting from an empty table stops after the read of a byte that has occurred `CNTMAX` times (R58). -/
theorem overBytes_countByte_of_full {pre post : List Byte} {b : Byte} {s : State} (hfit : countsFit pre)
    (hfull : pre.count b = Config.cntMax) (hdraws : s.DrawsSucceed (pre.length + 1)) :
    overBytes countByte (pre ++ b :: post) (s.withFreq (countTable [])) =
      .raised .cntOvf ((s.readAll (pre.length + 1)).withFreq (countTable pre)) := by
  have hcounted := overBytes_countByte (pre := []) hfit (hdraws.mono (Nat.le_succ _))
  rw [List.nil_append] at hcounted
  have hnext : (s.readAll pre.length).nextDraw = false := (hdraws.drop rfl).nextDraw one_pos
  refine overBytes_of_body_raised hcounted (by rwa [State.withFreq_nextDraw]) ?_
  rw [readAll_withFreq, readAll_readAll, countByte_of_full _ hfull]

/-- Reading every byte that is left takes the cursor to the end of the input (R37). -/
theorem icur_readAll_remaining {s : State} (hlen : s.input.length < 2 ^ 64) (hcur : s.icur.toNat ≤ s.input.length) :
    (s.readAll s.remaining.length).icur = BitVec.ofNat 64 s.input.length := by
  apply BitVec.eq_of_toNat_eq
  rw [toNat_icur_readAll hlen le_rfl, BitVec.toNat_ofNat, Nat.mod_eq_of_lt hlen, State.remaining, List.length_drop]
  omega

/-! ### What COUNT and REWIND leave unchanged -/

/-- A well-formed command whose checks pass is refused by a faulted core, or its body runs (R54). -/
theorem exec_cases_of_unguarded {i : Instr} {s t : State} (hwf : i.wellFormed = true) (hg : guardOf i s = none)
    (h : exec i s = .next t) :
    (s.err ≠ .none ∧ t = s) ∨ (s.err = .none ∧ bodyOf i s = .done t) ∨
      (s.err = .none ∧ ∃ e m, bodyOf i s = .raised e m ∧ t = m.recordInner e (encode i)) := by
  rw [exec_eq_issue] at h
  by_cases herr : s.err = .none
  · cases hbody : bodyOf i s with
    | done m =>
      rw [issue_done herr hwf hg hbody] at h
      cases h
      exact .inr (.inl ⟨herr, rfl⟩)
    | raised e m =>
      rw [issue_raised herr hwf hg hbody] at h
      cases h
      exact .inr (.inr ⟨herr, e, m, rfl, rfl⟩)
  · rw [issue_refused herr] at h
    cases h
    exact .inl ⟨herr, rfl⟩

theorem none_not_mem_bodyFaults (i : Instr) : ErrCode.none ∉ bodyFaults i := by
  cases i <;> simp [bodyFaults]

/-- The tree, the codes, `OUT`, `OLEN`, `IN` and the host's queues are as before, and without a fault the writer and the
fault registers too. -/
structure CounterKeeps (s t : State) : Prop where
  tree : t.tree = s.tree
  code : t.code = s.code
  olen : t.olen = s.olen
  input : t.input = s.input
  pending : t.pending = s.pending
  replies : t.replies = s.replies
  out : t.out = s.out
  noFault : t.err = .none → t.bw = s.bw ∧ t.errinfo = s.errinfo ∧ t.free = s.free

theorem CountsOnly.counterKeeps {s t : State} (h : CountsOnly s.clearValid.clearFreq t) : CounterKeeps s t where
  tree := h.tree
  code := h.code
  olen := h.olen
  input := h.input
  pending := h.pending
  replies := h.replies
  out := h.out
  noFault := fun _ => ⟨h.bw, h.errinfo, h.free⟩

theorem CounterKeeps.recordInner {s t : State} (h : CounterKeeps s t) {e : ErrCode} (he : e ≠ .none) (w : Word) :
    CounterKeeps s (t.recordInner e w) :=
  { h with noFault := fun hnone => absurd hnone he }

/-- Moving the cursor keeps all of it. -/
theorem counterKeeps_withCursor (s : State) (c : Word) : CounterKeeps s { s with icur := c } :=
  ⟨rfl, rfl, rfl, rfl, rfl, rfl, rfl, fun _ => ⟨rfl, rfl, rfl⟩⟩

/-- `COUNT` keeps it, faults included (R58, R108). -/
theorem counterKeeps_of_exec_count {s t : State} (h : exec .count s = .next t) : CounterKeeps s t := by
  have hbody : CounterKeeps s (countBody s).final := (countsOnly_countBody s).counterKeeps
  obtain ⟨-, rfl⟩ | ⟨-, hdone⟩ | ⟨-, e, m, hraised, rfl⟩ := exec_cases_of_unguarded rfl rfl h
  · exact counterKeeps_withCursor _ _
  · rwa [show countBody s = .done t from hdone] at hbody
  · rw [show countBody s = .raised e m from hraised] at hbody
    exact hbody.recordInner (fun he => none_not_mem_bodyFaults .count (he ▸ bodyOf_raised_mem hraised)) _

theorem exec_rewind_of_ready {s : State} (herr : s.err = .none) : exec .rewind s = .next s.rewindInput := by
  rw [exec_rewind]
  exact issue_done herr rfl rfl rfl

/-- `REWIND` moves the cursor at most (R59). -/
theorem exists_cursor_of_exec_rewind {s t : State} (h : exec .rewind s = .next t) : ∃ c, t = { s with icur := c } := by
  obtain ⟨-, rfl⟩ | ⟨-, hdone⟩ | ⟨-, _, _, hraised, -⟩ := exec_cases_of_unguarded rfl rfl h
  · exact ⟨t.icur, rfl⟩
  · cases hdone
    exact ⟨0#64, rfl⟩
  · cases hraised

end Sys2Proof.Machine

namespace Sys2Proof.Proofs

open Sys2Proof.Machine

/-- Settles O22: the loop reads and counts every byte from the cursor on, which takes the cursor to the end. -/
theorem countMakesTheTable : Obligations.CountMakesTheTable := by
  intro s herr hlen hcur hio hfit
  refine ⟨fun y => toNat_freqAt_countTable (hfit y), ?_⟩
  have hcounted := overBytes_countByte (pre := []) (bs := s.remaining) (s := s.clearValid) hfit
    (drawsSucceed_of_noIoErrors hio _)
  rw [← countBody_eq_overBytes hlen] at hcounted
  rw [exec_count, issue_done herr rfl rfl hcounted, ← icur_readAll_remaining hlen hcur]
  rfl

/-- Settles O23: the bytes before the one that is full are read and counted, and the loop stops after its read. -/
theorem countOverflowFault : Obligations.CountOverflowFault := by
  intro s pre post b herr hlen hcur hio hrem hfit hfull
  have hbody := countBody_eq_overBytes hlen
  rw [hrem, overBytes_countByte_of_full (s := s.clearValid) hfit hfull (drawsSucceed_of_noIoErrors hio _)] at hbody
  rw [exec_count]
  refine ⟨_, issue_raised herr rfl rfl hbody, rfl, rfl, ?_, rfl, rfl, rfl, rfl, rfl⟩
  have hread : pre.length + 1 ≤ s.remaining.length := by
    rw [hrem, List.length_append, List.length_cons]
    omega
  exact (toNat_icur_readAll (s := s.clearValid) hlen hread).trans (Nat.add_assoc _ _ _).symm

/-- Settles O25: `REWIND` has no check, and its body is one update of the cursor. -/
theorem rewindMovesOnlyTheCursor : Obligations.RewindMovesOnlyTheCursor :=
  ⟨by decide, fun _ => exec_rewind_of_ready⟩

/-- Settles O55: what `COUNT` keeps whichever way its body ends, and that `REWIND` moves the cursor at most. -/
theorem counterFrame : Obligations.CounterFrame := by
  intro s t h
  have hkeeps : CounterKeeps s t := by
    obtain hcount | hrewind := h
    · exact counterKeeps_of_exec_count hcount
    · obtain ⟨c, rfl⟩ := exists_cursor_of_exec_rewind hrewind
      exact counterKeeps_withCursor s c
  refine ⟨hkeeps.tree, hkeeps.code, hkeeps.olen, hkeeps.input, hkeeps.pending, hkeeps.replies, fun a => ?_,
    hkeeps.noFault, fun hrewind => ?_⟩
  · rw [outAt, outAt, hkeeps.out]
  · obtain ⟨c, rfl⟩ := exists_cursor_of_exec_rewind hrewind
    exact ⟨rfl, rfl, rfl, rfl, rfl, rfl, rfl⟩

end Sys2Proof.Proofs
end
section
/-! SUPPORT. What the merge loop keeps at every moment, when `TBUILD` overflows, that it depends on `FREQ` alone
(spec/41_tree_builder.md R66 to R74), and the frame of `TBUILD` and `CGEN` (O27, O29, O30, O31, O56). -/

namespace Sys2Proof.Machine

/-! ### The queues at every moment -/

/-- Every number of turns of the loop keeps its invariant (R67, R68). -/
theorem Merging.mergeSteps {f : Vector Count 256} {k : Nat} {b b' : Builder} (h : Merging f b)
    (hk : mergeSteps k b = some b') : Merging f b' := by
  induction k generalizing b with
  | zero => cases hk; exact h
  | succ k ih =>
    unfold Machine.mergeSteps at hk
    by_cases hw : b.waiting ≤ 1
    · rw [if_pos hw] at hk
      cases hk
    · rw [if_neg hw] at hk
      obtain ⟨hstep, -⟩ | ⟨m, hstep, hm, -⟩ := h.mergeStep (not_le.mp hw) <;> rw [hstep] at hk
      · cases hk
      · exact ih hm hk

/-- What waits after a pop is what waited before it but the node taken: a front is the lowest index of its queue, and the
queues share no index (R66). -/
theorem waits_popMin_iff {b : Builder} (ho : b.ordered) (hw : 0 < b.waiting) (j : Nat) :
    b.popMin.2.waits j ↔ b.waits j ∧ j ≠ b.popMin.1 := by
  have hwait := ho.waiting_eq
  obtain ⟨hlh, hmh, hmt, -⟩ := ho
  obtain ⟨ht, hpop⟩ | ⟨ht, hpop⟩ := popMin_cases b <;> rw [hpop] <;> simp only [Builder.waits]
  · have hlt := ((takesLeaf_iff b).mp ht).1
    omega
  · omega

theorem Popped.comesFirst {b b' : Builder} {x j : Nat} (p : Popped b x b') (hj : b'.waits j) : b.comesFirst x j := by
  have hfirst := p.first j hj
  unfold nodeBefore at hfirst
  omega

/-! ### When TBUILD overflows -/

theorem exec_tbuild_of_built {s : State} {b : Builder} (hs : s.err = .none)
    (hb : mergeLoop (leafCount s.freq) (startBuilder s.freq s.tree.node) = .built b) :
    exec .tbuild s = .next (s.clearValid.setTree b.finish).markTree := by
  rw [exec_tbuild]
  exact issue_done hs rfl rfl (tbuildBody_of_built hb)

theorem exec_tbuild_of_overflow {s : State} {b : Builder} (hs : s.err = .none)
    (hb : mergeLoop (leafCount s.freq) (startBuilder s.freq s.tree.node) = .overflow b) :
    ∃ t, exec .tbuild s = .next ((s.clearValid.setTree t).recordInner .cntOvf (encode .tbuild)) := by
  obtain ⟨t, ht⟩ := tbuildBody_of_overflow hb
  rw [exec_tbuild]
  exact ⟨t, issue_raised hs rfl rfl ht⟩

/-- A table with a tree fits: its root counts the whole table in the width of a count. -/
theorem BuiltTree.freqTotal_le {f : Vector Count 256} {t : TreeMem} (h : BuiltTree f t) (hl : 1 ≤ leafCount f) :
    freqTotal f ≤ Config.cntMax := by
  rw [← h.count_root hl, h.count_subtree (by omega)]
  exact Nat.le_of_lt_succ (nodeAt t.node _).cnt.isLt

/-- `TBUILD` ends with a tree where the table fits or has one leaf at most, and otherwise overflows (R71). -/
theorem exec_tbuild_cases {s : State} (hs : s.err = .none) :
    (∃ t, exec .tbuild s = .next (s.clearValid.setTree t).markTree ∧
        ¬ (2 ≤ leafCount s.freq ∧ Config.cntMax < freqTotal s.freq)) ∨
      (∃ t, exec .tbuild s = .next ((s.clearValid.setTree t).recordInner .cntOvf (encode .tbuild)) ∧
        (2 ≤ leafCount s.freq ∧ Config.cntMax < freqTotal s.freq)) := by
  obtain ⟨b, hb, hbuilt⟩ | ⟨htwo, hover, b, hb⟩ := mergeLoop_startBuilder s.freq s.tree.node
  · refine .inl ⟨_, exec_tbuild_of_built hs hb, fun ⟨htwo, hover⟩ => ?_⟩
    exact absurd (hbuilt.freqTotal_le (by omega)) (not_le.mpr hover)
  · obtain ⟨t, ht⟩ := exec_tbuild_of_overflow hs hb
    exact .inr ⟨t, ht, htwo, hover⟩

/-! ### What TBUILD and CGEN leave unchanged -/

theorem none_not_mem_mayRaise (i : Instr) : ErrCode.none ∉ mayRaise i := by
  cases i <;> simp [mayRaise]

/-- What holds of the state before a command, is kept by its body, and by recording a fault, holds after the command
(R54). -/
theorem exec_keeps {P : State → Prop} {i : Instr} {s t : State} (h : exec i s = .next t) (hs : P s)
    (hbody : P (bodyOf i s).final) (hfault : ∀ m e w, e ≠ .none → P m → P (m.recordFault e w))
    (hinner : ∀ m e w, e ≠ .none → P m → P (m.recordInner e w)) : P t := by
  rw [exec_eq_issue] at h
  obtain ⟨-, e⟩ | ⟨-, -, e⟩ | ⟨-, -, c, hc, e⟩ | ⟨-, -, -, m, hm, e⟩ | ⟨-, -, -, c, m, hm, e⟩ :=
    issue_cases i (guardOf i) (bodyOf i) s <;> rw [e] at h <;> cases h
  · exact hs
  · exact hfault _ _ _ nofun hs
  · exact hfault _ _ _ (fun hnone => none_not_mem_mayRaise i (hnone ▸ guardOf_mayRaise hc)) hs
  · rwa [hm] at hbody
  · rw [hm] at hbody
    exact hinner _ _ _ (fun hnone => none_not_mem_bodyFaults i (hnone ▸ bodyOf_raised_mem hm)) hbody

/-- The cursor, the table, `OUT`, `OLEN`, `IN`, the environment's answers and the host's queues are as before, and without
a fault the writer and the fault registers too. -/
structure BuilderKeeps (s t : State) : Prop where
  icur : t.icur = s.icur
  freq : t.freq = s.freq
  olen : t.olen = s.olen
  input : t.input = s.input
  ioErrs : t.ioErrs = s.ioErrs
  pending : t.pending = s.pending
  replies : t.replies = s.replies
  out : t.out = s.out
  noFault : t.err = .none → t.bw = s.bw ∧ t.errinfo = s.errinfo ∧ t.free = s.free

theorem BuilderKeeps.recordFault {s t : State} (h : BuilderKeeps s t) {e : ErrCode} (he : e ≠ .none) (w : Word) :
    BuilderKeeps s (t.recordFault e w) :=
  { h with noFault := fun hnone => absurd hnone he }

theorem BuilderKeeps.recordInner {s t : State} (h : BuilderKeeps s t) {e : ErrCode} (he : e ≠ .none) (w : Word) :
    BuilderKeeps s (t.recordInner e w) :=
  { h with noFault := fun hnone => absurd hnone he }

/-- Writing the tree state, the code table and the flags keeps all of it. -/
theorem builderKeeps_withTables (s : State) (tree : TreeMem) (code : Vector CodeEntry 256) (tvalid cvalid : Bool) :
    BuilderKeeps s { s with tree := tree, code := code, tvalid := tvalid, cvalid := cvalid } :=
  ⟨rfl, rfl, rfl, rfl, rfl, rfl, rfl, rfl, fun _ => ⟨rfl, rfl, rfl⟩⟩

/-- `TBUILD` keeps it and the entries of the code table, faults included (R70, R108). -/
theorem builderKeeps_of_exec_tbuild {s t : State} (h : exec .tbuild s = .next t) :
    BuilderKeeps s t ∧ t.code = s.code := by
  refine exec_keeps (P := fun t => BuilderKeeps s t ∧ t.code = s.code) h ⟨builderKeeps_withTables s _ _ _ _, rfl⟩ ?_
    (fun _ _ w he hm => ⟨hm.1.recordFault he w, hm.2⟩) (fun _ _ w he hm => ⟨hm.1.recordInner he w, hm.2⟩)
  change BuilderKeeps s (tbuildBody s).final ∧ (tbuildBody s).final.code = s.code
  obtain ⟨tree, hdone⟩ | ⟨tree, hraised⟩ := tbuildBody_cases s
  · rw [hdone]
    exact ⟨builderKeeps_withTables s tree _ true false, rfl⟩
  · rw [hraised]
    exact ⟨builderKeeps_withTables s tree _ false false, rfl⟩

/-- `CGEN` keeps it, the tree and `TVALID`, faults included (R81, R108). -/
theorem builderKeeps_of_exec_cgen {s t : State} (h : exec .cgen s = .next t) :
    BuilderKeeps s t ∧ t.tree = s.tree ∧ t.tvalid = s.tvalid := by
  refine exec_keeps (P := fun t => BuilderKeeps s t ∧ t.tree = s.tree ∧ t.tvalid = s.tvalid) h
    ⟨builderKeeps_withTables s _ _ _ _, rfl, rfl⟩ ?_
    (fun _ _ w he hm => ⟨hm.1.recordFault he w, hm.2⟩) (fun _ _ w he hm => ⟨hm.1.recordInner he w, hm.2⟩)
  obtain ⟨code, cvalid, hfinal⟩ := cgenBody_final s
  change BuilderKeeps s (cgenBody s).final ∧ (cgenBody s).final.tree = s.tree ∧ (cgenBody s).final.tvalid = s.tvalid
  rw [hfinal]
  exact ⟨builderKeeps_withTables s _ code _ cvalid, rfl, rfl⟩

end Sys2Proof.Machine

namespace Sys2Proof.Proofs

open Sys2Proof.Machine

/-- Settles O27: a merge that overflows shows a sum above `CNTMAX`, and a tree shows one that fits. -/
theorem tbuildOverflowExactly : Obligations.TbuildOverflowExactly := by
  intro s hs
  obtain ⟨tree, hexec, hfit⟩ | ⟨tree, hexec, hover⟩ := exec_tbuild_cases hs
  · have herr : (s.clearValid.setTree tree).markTree.err = .none := hs
    rw [hexec]
    refine ⟨iff_of_false (fun ⟨t, ht, hovf⟩ => ?_) hfit, fun t ht hne => ?_⟩ <;> cases ht
    · rw [herr] at hovf
      cases hovf
    · exact absurd herr hne
  · rw [hexec]
    refine ⟨iff_of_true ⟨_, rfl, rfl⟩ hover, fun t ht _ => ?_⟩
    cases ht
    exact ⟨rfl, rfl, rfl, rfl, rfl, rfl, rfl, rfl, rfl⟩

/-- Settles O29: the loop's invariant holds after every turn, and in it the merged nodes do not descend. -/
theorem mergeQueueNonDecreasing : Obligations.MergeQueueNonDecreasing := by
  intro f m k b hk
  have h := (merging_startBuilder f m).mergeSteps hk
  exact ⟨h.ordered, fun _ _ => merged_ascend h.merged h.ascend⟩

/-- Settles O30: the smaller front comes before all others that wait, and only the front leaves its queue. -/
theorem popMinTakesTheSmallest : Obligations.PopMinTakesTheSmallest := by
  intro b ho hw
  have p := popped_popMin ho hw
  refine ⟨p.waits, fun j hj => ?_, waits_popMin_iff ho hw, p.node, p.ordered⟩
  by_cases hjx : j = b.popMin.1
  · exact .inr ⟨by rw [hjx], hjx.ge⟩
  · exact p.comesFirst ((waits_popMin_iff ho hw j).mpr ⟨hj, hjx⟩)

/-- Settles O31: from equal tables the two loops start with queues that differ in dead entries only, and stay so. -/
theorem tbuildDependsOnFreqAlone : Obligations.TbuildDependsOnFreqAlone := by
  intro s u s' u' hs hu hfreq hexec hexec'
  have hstart := sameQueues_startBuilder s.freq s.tree.node u.tree.node
  obtain ⟨b, b', hb, hb', hsame⟩ | ⟨b, b', hb, hb'⟩ :=
    hstart.mergeLoop (leafCount s.freq) (merging_startBuilder s.freq s.tree.node) <;> rw [hfreq] at hb'
  · rw [exec_tbuild_of_built hs hb] at hexec
    rw [exec_tbuild_of_built hu hb'] at hexec'
    cases hexec
    cases hexec'
    exact ⟨hs.trans hu.symm, fun _ => hsame.sameTree⟩
  · obtain ⟨t, ht⟩ := exec_tbuild_of_overflow hs hb
    obtain ⟨t', ht'⟩ := exec_tbuild_of_overflow hu hb'
    rw [ht] at hexec
    rw [ht'] at hexec'
    cases hexec
    cases hexec'
    exact ⟨rfl, nofun⟩

/-- Settles O56: both bodies write the tree state, the code table and the flags only, and a fault besides these the writer
and the fault registers. -/
theorem builderFrame : Obligations.BuilderFrame := by
  intro s t h
  have hkeeps : BuilderKeeps s t := h.elim (fun h => (builderKeeps_of_exec_tbuild h).1)
    fun h => (builderKeeps_of_exec_cgen h).1
  exact ⟨hkeeps.icur, hkeeps.freq, hkeeps.olen, hkeeps.input, hkeeps.ioErrs, hkeeps.pending, hkeeps.replies,
    fun a => congrArg (·[a]?) hkeeps.out, hkeeps.noFault, fun h => (builderKeeps_of_exec_tbuild h).2,
    fun h => (builderKeeps_of_exec_cgen h).2⟩

end Sys2Proof.Proofs
end
section
/-! SUPPORT. Code lengths that satisfy Kraft's inequality: two lightest items can be given one length without a greater
cost, and then merged into one. This is one merge of R67, read for an arbitrary rival code (spec/41_tree_builder.md R75). -/

namespace Sys2Proof.Machine

/-- Kraft's inequality for the lengths of the items in `S`. -/
def Kraft (S : Finset Nat) (len : Nat → Nat) : Prop := ∑ i ∈ S, (1 / 2 : ℝ) ^ len i ≤ 1

/-- The sum over the items of weight times length. -/
def weightedLength (w : Nat → Nat) (S : Finset Nat) (len : Nat → Nat) : Nat := ∑ i ∈ S, w i * len i

variable {S : Finset Nat} {w len : Nat → Nat} {x y z : Nat}

/-! ### Two longest lengths -/

/-- Lengths of at most `m` whose Kraft sum is below 1 leave room for one more of length `m`. -/
theorem kraftSum_add_le {m : Nat} (hm : ∀ i ∈ S, len i ≤ m) (hlt : ∑ i ∈ S, (1 / 2 : ℝ) ^ len i < 1) :
    ∑ i ∈ S, (1 / 2 : ℝ) ^ len i + (1 / 2) ^ m ≤ 1 := by
  have hscale : ∑ i ∈ S, (1 / 2 : ℝ) ^ len i = (∑ i ∈ S, 2 ^ (m - len i) : ℕ) * (1 / 2) ^ m := by
    rw [Nat.cast_sum, Finset.sum_mul]
    refine Finset.sum_congr rfl fun i hi => ?_
    obtain ⟨d, hd⟩ := Nat.exists_eq_add_of_le (hm i hi)
    rw [hd, Nat.add_sub_cancel_left, pow_add, mul_left_comm, Nat.cast_pow, Nat.cast_ofNat, ← mul_pow]
    norm_num
  have hpow : (2 ^ m : ℝ) * (1 / 2) ^ m = 1 := by rw [← mul_pow]; norm_num
  have hpos : (0 : ℝ) < (1 / 2) ^ m := by positivity
  rw [hscale] at hlt ⊢
  have hnat : ∑ i ∈ S, 2 ^ (m - len i) < 2 ^ m := by
    exact_mod_cast lt_of_mul_lt_mul_right (hlt.trans_eq hpow.symm) hpos.le
  have hsucc : ((∑ i ∈ S, 2 ^ (m - len i) : ℕ) + 1 : ℝ) ≤ 2 ^ m := by exact_mod_cast hnat
  rw [← add_one_mul]
  exact (mul_le_mul_of_nonneg_right hsucc hpos.le).trans_eq hpow

/-- A longest length that occurs once can be shortened to the next one. -/
theorem Kraft.exists_two_longest (h : Kraft S len) (w : Nat → Nat) (hS : S.Nontrivial) :
    ∃ len', Kraft S len' ∧ weightedLength w S len' ≤ weightedLength w S len ∧
      ∃ a ∈ S, ∃ b ∈ S, a ≠ b ∧ len' a = len' b ∧ ∀ i ∈ S, len' i ≤ len' a := by
  obtain ⟨a, ha, hmax⟩ := S.exists_max_image len hS.nonempty
  obtain ⟨b, hb, hmax'⟩ := (S.erase a).exists_max_image len (Finset.erase_nonempty ha |>.mpr hS)
  obtain ⟨hba, hbS⟩ := Finset.mem_erase.mp hb
  have hother (i : Nat) (hi : i ∈ S.erase a) : Function.update len a (len b) i = len i :=
    Function.update_of_ne (Finset.ne_of_mem_erase hi) _ _
  refine ⟨Function.update len a (len b), ?_, ?_, a, ha, b, hbS, hba.symm, ?_, fun i hi => ?_⟩
  · have hpos : (0 : ℝ) < (1 / 2) ^ len a := by positivity
    unfold Kraft at h ⊢
    rw [← Finset.sum_erase_add _ _ ha] at h ⊢
    rw [Function.update_self, Finset.sum_congr rfl fun i hi => by rw [hother i hi]]
    exact kraftSum_add_le hmax' (by linarith)
  · refine Finset.sum_le_sum fun i hi => Nat.mul_le_mul_left _ ?_
    by_cases hia : i = a
    · rw [hia, Function.update_self]
      exact hmax b hbS
    · rw [Function.update_of_ne hia]
  · rw [Function.update_self, Function.update_of_ne hba]
  · rw [Function.update_self]
    by_cases hia : i = a
    · rw [hia, Function.update_self]
    · rw [Function.update_of_ne hia]
      exact hmax' i (Finset.mem_erase.mpr ⟨hia, hi⟩)

/-! ### Exchanging two lengths -/

theorem swap_mem_iff {a : Nat} (hx : x ∈ S) (ha : a ∈ S) (i : Nat) : i ∈ S ↔ Equiv.swap x a i ∈ S := by
  rw [Equiv.swap_apply_def]
  split_ifs with hix hia
  · simp only [hix, hx, ha]
  · simp only [hia, hx, ha]
  · rfl

theorem Kraft.swap {a : Nat} (h : Kraft S len) (hx : x ∈ S) (ha : a ∈ S) : Kraft S (len ∘ Equiv.swap x a) :=
  (Finset.sum_equiv (Equiv.swap x a) (swap_mem_iff hx ha) fun _ _ => rfl).trans_le h

/-- Giving the lighter item the longer length costs no more. -/
theorem weightedLength_swap_le {a : Nat} (hx : x ∈ S) (ha : a ∈ S) (hw : w x ≤ w a) (hlen : len x ≤ len a) :
    weightedLength w S (len ∘ Equiv.swap x a) ≤ weightedLength w S len := by
  by_cases hxa : x = a
  · rw [hxa, Equiv.swap_self]
    rfl
  · have haS : a ∈ S.erase x := Finset.mem_erase.mpr ⟨Ne.symm hxa, ha⟩
    have hrest : ∑ i ∈ (S.erase x).erase a, w i * (len ∘ Equiv.swap x a) i =
        ∑ i ∈ (S.erase x).erase a, w i * len i := by
      refine Finset.sum_congr rfl fun i hi => ?_
      obtain ⟨hia, hi⟩ := Finset.mem_erase.mp hi
      rw [Function.comp_apply, Equiv.swap_apply_of_ne_of_ne (Finset.ne_of_mem_erase hi) hia]
    have hpair := mul_add_mul_le_mul_add_mul hw hlen
    simp only [weightedLength]
    rw [← Finset.add_sum_erase _ _ hx, ← Finset.add_sum_erase _ _ haS, ← Finset.add_sum_erase S _ hx,
      ← Finset.add_sum_erase (S.erase x) _ haS, hrest, Function.comp_apply, Function.comp_apply, Equiv.swap_apply_left,
      Equiv.swap_apply_right]
    omega

/-- Two lightest items can be given one length, no less than any other, without a greater cost. -/
theorem Kraft.exists_siblings (h : Kraft S len) (hx : x ∈ S) (hy : y ∈ S) (hxy : x ≠ y) (hminx : ∀ i ∈ S, w x ≤ w i)
    (hminy : ∀ i ∈ S.erase x, w y ≤ w i) :
    ∃ len', Kraft S len' ∧ weightedLength w S len' ≤ weightedLength w S len ∧ len' x = len' y := by
  obtain ⟨len₁, h₁, hle₁, a, ha, b, hb, hab, heq, hmax⟩ := h.exists_two_longest w ⟨x, hx, y, hy, hxy⟩
  have h₂ := h₁.swap hx ha
  have hle₂ := weightedLength_swap_le hx ha (hminx a ha) (hmax x hx)
  have hb' : Equiv.swap x a b ∈ S := (swap_mem_iff hx ha b).mp hb
  have hne : Equiv.swap x a b ≠ x := fun hbx =>
    hab ((Equiv.swap x a).injective ((Equiv.swap_apply_right x a).trans hbx.symm))
  have hlong : (len₁ ∘ Equiv.swap x a) (Equiv.swap x a b) = len₁ a := by
    rw [Function.comp_apply, Equiv.swap_apply_self, heq]
  have hle₃ := weightedLength_swap_le hy hb' (hminy _ (Finset.mem_erase.mpr ⟨hne, hb'⟩))
    (hlong.symm ▸ hmax _ ((swap_mem_iff hx ha y).mp hy) : (len₁ ∘ Equiv.swap x a) y ≤ _)
  refine ⟨_, h₂.swap hy hb', (hle₃.trans hle₂).trans hle₁, ?_⟩
  rw [Function.comp_apply, Equiv.swap_apply_of_ne_of_ne hxy (Ne.symm hne), Function.comp_apply, Function.comp_apply,
    Equiv.swap_apply_left, Equiv.swap_apply_left, hlong]

/-! ### Merging two items -/

/-- Two lightest items are merged into one of their common weight: the rest of the cost is that of lengths which again
satisfy Kraft's inequality. -/
theorem Kraft.exists_merged {R : Finset Nat} (h : Kraft (insert x (insert y R)) len) (hxR : x ∉ R) (hyR : y ∉ R)
    (hxy : x ≠ y) (hz : z ∉ R) (hminx : ∀ i ∈ insert y R, w x ≤ w i) (hminy : ∀ i ∈ R, w y ≤ w i)
    (hwz : w z = w x + w y) :
    ∃ len', Kraft (insert z R) len' ∧
      weightedLength w (insert z R) len' + w z ≤ weightedLength w (insert x (insert y R)) len := by
  have hx : x ∉ insert y R := by simp [hxy, hxR]
  have hminx' : ∀ i ∈ insert x (insert y R), w x ≤ w i := Finset.forall_mem_insert _ _ _ |>.mpr ⟨le_rfl, hminx⟩
  have hminy' : ∀ i ∈ (insert x (insert y R)).erase x, w y ≤ w i := by
    rw [Finset.erase_insert hx, Finset.forall_mem_insert]
    exact ⟨le_rfl, hminy⟩
  obtain ⟨len₁, h₁, hle, heq⟩ := h.exists_siblings (Finset.mem_insert_self _ _) (by simp) hxy hminx' hminy'
  have hother (i : Nat) (hi : i ∈ R) : Function.update len₁ z (len₁ x - 1) i = len₁ i :=
    Function.update_of_ne (ne_of_mem_of_not_mem hi hz) _ _
  unfold Kraft at h₁
  rw [Finset.sum_insert hx, Finset.sum_insert hyR, ← heq] at h₁
  have hrest : 0 ≤ ∑ i ∈ R, (1 / 2 : ℝ) ^ len₁ i := Finset.sum_nonneg fun _ _ => by positivity
  obtain ⟨m, hm⟩ : ∃ m, len₁ x = m + 1 := by
    refine Nat.exists_eq_add_one_of_ne_zero fun hzero => ?_
    rw [hzero, pow_zero] at h₁
    linarith
  refine ⟨Function.update len₁ z (len₁ x - 1), ?_, hle.trans' (le_of_eq ?_)⟩
  · unfold Kraft
    rw [Finset.sum_insert hz, Function.update_self, Finset.sum_congr rfl fun i hi => by rw [hother i hi], hm,
      Nat.add_sub_cancel]
    rw [hm, pow_succ] at h₁
    linarith
  · simp only [weightedLength]
    rw [Finset.sum_insert hz, Finset.sum_insert hx, Finset.sum_insert hyR, Function.update_self,
      Finset.sum_congr rfl fun i hi => by rw [hother i hi], ← heq, hm, Nat.add_sub_cancel, hwz]
    ring

end Sys2Proof.Machine
end
section
/-! SUPPORT. `TBUILD` and `CGEN` make an optimal code (spec/41_tree_builder.md R75): the lengths of any rival code
can be followed through the merges, and what they cost at the start is at least the tree's cost (O49). -/

namespace Sys2Proof.Machine

/-! ### What a code costs in a tree -/

/-- What the leaves of a tree count together. -/
def Tree.weight (f : Vector Count 256) (tr : Tree) : Nat := (tr.symbols.map fun y => (freqAt f y).toNat).sum

/-- The sum over the leaves of depth times frequency (R75). -/
def Tree.pathCost (f : Vector Count 256) (tr : Tree) : Nat :=
  (tr.paths.map fun p => p.2.length * (freqAt f p.1).toNat).sum

theorem map_fst_paths (tr : Tree) : tr.paths.map Prod.fst = tr.symbols := by
  induction tr with
  | leaf s c => rfl
  | node c l r hl hr =>
    simp only [Tree.paths, Tree.symbols, List.map_append, List.map_map, ← hl, ← hr]
    rfl

theorem Tree.weight_node (f : Vector Count 256) (c : Nat) (l r : Tree) :
    (Tree.node c l r).weight f = l.weight f + r.weight f := by
  simp only [Tree.weight, Tree.symbols, List.map_append, List.sum_append]

/-- One edge more to every leaf costs what the leaves count together. -/
theorem sum_paths_succ (f : Vector Count 256) (tr : Tree) :
    (tr.paths.map fun p => (p.2.length + 1) * (freqAt f p.1).toNat).sum = tr.pathCost f + tr.weight f := by
  simp only [add_one_mul, List.sum_map_add, Tree.pathCost, Tree.weight, ← map_fst_paths, List.map_map, Function.comp_def]

theorem Tree.pathCost_node (f : Vector Count 256) (c : Nat) (l r : Tree) :
    (Tree.node c l r).pathCost f = (Tree.node c l r).weight f + (l.pathCost f + r.pathCost f) := by
  have hsplit : (Tree.node c l r).pathCost f = (l.pathCost f + l.weight f) + (r.pathCost f + r.weight f) := by
    rw [← sum_paths_succ, ← sum_paths_succ]
    simp only [Tree.pathCost, Tree.paths, List.map_append, List.map_map, List.sum_append, Function.comp_def,
      List.length_cons]
  rw [hsplit, Tree.weight_node]
  omega

theorem length_le_height {tr : Tree} {p : Byte × List Bool} (h : p ∈ tr.paths) : p.2.length ≤ tr.height := by
  induction tr generalizing p with
  | leaf s c =>
    obtain rfl := List.mem_singleton.mp h
    exact le_rfl
  | node c l r hl hr =>
    rw [Tree.height]
    obtain h | h := List.mem_append.mp h <;> obtain ⟨q, hq, rfl⟩ := List.mem_map.mp h <;> rw [List.length_cons]
    · have hle := hl hq
      omega
    · have hle := hr hq
      omega

/-- Each path is the one that is looked up for its symbol: no symbol is in two leaves. -/
theorem lookup_paths {tr : Tree} (hnodup : tr.symbols.Nodup) {p : Byte × List Bool} (h : p ∈ tr.paths) :
    tr.paths.lookup p.1 = some p.2 := by
  obtain ⟨before, after, hsplit⟩ := List.append_of_mem h
  rw [← map_fst_paths, hsplit, List.map_append, List.map_cons] at hnodup
  refine List.lookup_eq_some_iff.mpr ⟨before, after, hsplit, fun q hq => ?_⟩
  have hne := (List.nodup_append.mp hnodup).2.2 q.1 (List.mem_map_of_mem hq) p.1 List.mem_cons_self
  simpa using Ne.symm hne

/-! ### The nodes that wait, read from the finished tree -/

/-- The nodes that wait after `k` merges: those made so far that are not among the first 2k popped (R68). -/
def waitingAfter (m : Vector Node 511) (l k : Nat) : Finset Nat :=
  Finset.range (l + k) \ (Finset.range (2 * k)).image (childAt m l)

/-- The nodes that wait after `k` merges and two pops more. -/
def waitingBetween (m : Vector Node 511) (l k : Nat) : Finset Nat :=
  Finset.range (l + k) \ (Finset.range (2 * k + 2)).image (childAt m l)

section Built

variable {f : Vector Count 256} {t : TreeMem} {k : Nat}

theorem BuiltTree.childAt_lt_parent (h : BuiltTree f t) {j : Nat} (hj : j < 2 * leafCount f - 2) :
    childAt t.node (leafCount f) j < leafCount f + j / 2 := by
  have hnode := h.merged (leafCount f + j / 2) (by omega) (by omega)
  have hl := hnode.left_lt
  have hr := hnode.right_lt
  simp only [childAt]
  split <;> omega

/-- A child popped later is not among those popped before. -/
theorem BuiltTree.childAt_notMem_image (h : BuiltTree f t) {j n : Nat} (hn : n ≤ j) (hj : j < 2 * leafCount f - 2) :
    childAt t.node (leafCount f) j ∉ (Finset.range n).image (childAt t.node (leafCount f)) := by
  rw [Finset.mem_image]
  rintro ⟨i, hi, heq⟩
  rw [Finset.mem_range] at hi
  have hij := h.childAt_injective (by omega) hj heq
  omega

/-- The next merge pops two of the nodes that wait. -/
theorem BuiltTree.waitingAfter_eq (h : BuiltTree f t) (hk : k < leafCount f - 1) :
    waitingAfter t.node (leafCount f) k = insert (childAt t.node (leafCount f) (2 * k))
      (insert (childAt t.node (leafCount f) (2 * k + 1)) (waitingBetween t.node (leafCount f) k)) := by
  have hx := h.childAt_lt_parent (j := 2 * k) (by omega)
  have hy := h.childAt_lt_parent (j := 2 * k + 1) (by omega)
  have hxold := h.childAt_notMem_image (j := 2 * k) le_rfl (by omega)
  have hyold := h.childAt_notMem_image (j := 2 * k + 1) (Nat.le_succ _) (by omega)
  rw [waitingBetween, Finset.range_add_one (n := 2 * k + 1), Finset.range_add_one (n := 2 * k), Finset.image_insert,
    Finset.image_insert, waitingAfter]
  ext i
  simp only [Finset.mem_sdiff, Finset.mem_insert, Finset.mem_range, not_or]
  constructor
  · rintro ⟨hi, hold⟩
    tauto
  · rintro (rfl | rfl | ⟨hi, -, -, hold⟩)
    · exact ⟨by omega, hxold⟩
    · exact ⟨by omega, hyold⟩
    · exact ⟨hi, hold⟩

/-- A merge adds its node to those that wait. -/
theorem BuiltTree.waitingAfter_succ (h : BuiltTree f t) (hk : k < leafCount f - 1) :
    waitingAfter t.node (leafCount f) (k + 1) = insert (leafCount f + k) (waitingBetween t.node (leafCount f) k) := by
  rw [waitingAfter, ← Nat.add_assoc, Finset.range_add_one (n := leafCount f + k), Finset.insert_sdiff_of_notMem,
    waitingBetween, Nat.mul_succ]
  rw [Finset.mem_image]
  rintro ⟨j, hj, heq⟩
  rw [Finset.mem_range] at hj
  have hlt := h.childAt_lt_parent (j := j) (by omega)
  omega

theorem waitingAfter_zero (m : Vector Node 511) (l : Nat) : waitingAfter m l 0 = Finset.range l := by
  simp [waitingAfter]

/-- After all merges the root alone waits. -/
theorem BuiltTree.waitingAfter_last (h : BuiltTree f t) (hl : 1 ≤ leafCount f) :
    waitingAfter t.node (leafCount f) (leafCount f - 1) = {2 * leafCount f - 2} := by
  rw [waitingAfter, show 2 * (leafCount f - 1) = 2 * leafCount f - 2 by omega, h.image_childAt,
    show leafCount f + (leafCount f - 1) = 2 * leafCount f - 2 + 1 by omega, Finset.range_add_one,
    Finset.insert_sdiff_of_notMem _ Finset.notMem_range_self, Finset.sdiff_self, insert_empty_eq]

/-- Every node that waits between is popped later. -/
theorem BuiltTree.exists_childAt_of_waitingBetween (h : BuiltTree f t) (hk : k < leafCount f - 1) {i : Nat}
    (hi : i ∈ waitingBetween t.node (leafCount f) k) :
    ∃ j, 2 * k + 2 ≤ j ∧ j < 2 * leafCount f - 2 ∧ childAt t.node (leafCount f) j = i := by
  obtain ⟨hlt, hnew⟩ := Finset.mem_sdiff.mp hi
  have hmem : i ∈ Finset.range (2 * leafCount f - 2) := by
    rw [Finset.mem_range] at hlt ⊢
    omega
  rw [← h.image_childAt, Finset.mem_image] at hmem
  obtain ⟨j, hj, rfl⟩ := hmem
  refine ⟨j, not_lt.mp fun hjlt => hnew ?_, Finset.mem_range.mp hj, rfl⟩
  exact Finset.mem_image_of_mem _ (Finset.mem_range.mpr hjlt)

/-- The two popped weigh no more than any node that waits (R73). -/
theorem BuiltTree.childAt_le_waitingBetween (h : BuiltTree f t) (hk : k < leafCount f - 1) {i j : Nat}
    (hj : j < 2 * k + 2) (hi : i ∈ waitingBetween t.node (leafCount f) k) :
    (nodeAt t.node (childAt t.node (leafCount f) j)).cnt.toNat ≤ (nodeAt t.node i).cnt.toNat := by
  obtain ⟨n, hn, hnlt, rfl⟩ := h.exists_childAt_of_waitingBetween hk hi
  exact (h.nodeBefore_childAt (by omega) hnlt).cnt_le

theorem childAt_notMem_waitingBetween {j : Nat} (hj : j < 2 * k + 2) :
    childAt t.node (leafCount f) j ∉ waitingBetween t.node (leafCount f) k := fun hmem =>
  (Finset.mem_sdiff.mp hmem).2 (Finset.mem_image_of_mem _ (Finset.mem_range.mpr hj))

/-! ### The cost of the trees that wait -/

theorem BuiltTree.weight_subtree (h : BuiltTree f t) {i : Nat} (hi : i < 2 * leafCount f - 1) :
    (subtree t i).weight f = (nodeAt t.node i).cnt.toNat := by
  induction i using Nat.strong_induction_on with
  | _ i ih =>
    by_cases hleaf : i < leafCount f
    · obtain ⟨y, hy⟩ := BuiltTree.getElem?_of_lt hleaf
      rw [h.subtree_leaf hy, h.leaves i y hy]
      simp [Tree.weight, Tree.symbols, leafNode]
    · have hnode := h.merged i (not_lt.mp hleaf) hi
      rw [h.subtree_node (not_lt.mp hleaf) hi, Tree.weight_node, ih _ hnode.left_lt (hnode.left_lt.trans hi),
        ih _ hnode.right_lt (hnode.right_lt.trans hi), hnode.cnt]

theorem BuiltTree.pathCost_leaf (h : BuiltTree f t) {i : Nat} (hi : i < leafCount f) : (subtree t i).pathCost f = 0 := by
  obtain ⟨y, hy⟩ := BuiltTree.getElem?_of_lt hi
  rw [h.subtree_leaf hy]
  simp [Tree.pathCost, Tree.paths]

/-- A merge adds the count of its node to the cost. -/
theorem BuiltTree.pathCost_merged (h : BuiltTree f t) (hk : k < leafCount f - 1) :
    (subtree t (leafCount f + k)).pathCost f = (nodeAt t.node (leafCount f + k)).cnt.toNat +
      ((subtree t (childAt t.node (leafCount f) (2 * k))).pathCost f +
        (subtree t (childAt t.node (leafCount f) (2 * k + 1))).pathCost f) := by
  rw [← h.weight_subtree (by omega), childAt_even, childAt_odd, h.subtree_node (by omega) (by omega), Tree.pathCost_node]

/-- The rival's lengths followed through `k` merges: the trees made so far and the lengths of what waits cost together no
more than the lengths did at the start. -/
theorem BuiltTree.exists_lengths_after (h : BuiltTree f t) {len : Nat → Nat}
    (hkraft : Kraft (Finset.range (leafCount f)) len) (hk : k ≤ leafCount f - 1) :
    ∃ len', Kraft (waitingAfter t.node (leafCount f) k) len' ∧
      ∑ i ∈ waitingAfter t.node (leafCount f) k, (subtree t i).pathCost f +
          weightedLength (fun i => (nodeAt t.node i).cnt.toNat) (waitingAfter t.node (leafCount f) k) len' ≤
        weightedLength (fun i => (nodeAt t.node i).cnt.toNat) (Finset.range (leafCount f)) len := by
  induction k with
  | zero =>
    rw [waitingAfter_zero]
    refine ⟨len, hkraft, le_of_eq ?_⟩
    rw [Finset.sum_eq_zero fun i hi => h.pathCost_leaf (Finset.mem_range.mp hi), Nat.zero_add]
  | succ k ih =>
    have hlt : k < leafCount f - 1 := hk
    obtain ⟨len₁, hkraft₁, hle⟩ := ih hlt.le
    have hpair := h.nodeBefore_childAt (j := 2 * k) (k := 2 * k + 1) (by omega) (by omega)
    have hx := childAt_notMem_waitingBetween (f := f) (t := t) (k := k) (j := 2 * k) (by omega)
    have hy := childAt_notMem_waitingBetween (f := f) (t := t) (k := k) (j := 2 * k + 1) (by omega)
    have hz : leafCount f + k ∉ waitingBetween t.node (leafCount f) k := by simp [waitingBetween]
    have hcnt : (nodeAt t.node (leafCount f + k)).cnt.toNat =
        (nodeAt t.node (childAt t.node (leafCount f) (2 * k))).cnt.toNat +
          (nodeAt t.node (childAt t.node (leafCount f) (2 * k + 1))).cnt.toNat := by
      rw [childAt_even, childAt_odd]
      exact (h.merged _ (by omega) (by omega)).cnt
    rw [h.waitingAfter_eq hlt] at hkraft₁ hle
    obtain ⟨len₂, hkraft₂, hle₂⟩ := hkraft₁.exists_merged (w := fun i => (nodeAt t.node i).cnt.toNat) hx hy hpair.ne hz
      (Finset.forall_mem_insert _ _ _ |>.mpr ⟨hpair.cnt_le, fun i => h.childAt_le_waitingBetween hlt (by omega)⟩)
      (fun i => h.childAt_le_waitingBetween hlt (by omega)) hcnt
    rw [Finset.sum_insert (by simp [hpair.ne, hx]), Finset.sum_insert hy] at hle
    rw [h.waitingAfter_succ hlt, Finset.sum_insert hz, h.pathCost_merged hlt]
    exact ⟨len₂, hkraft₂, by omega⟩

/-- No lengths that satisfy Kraft's inequality cost less than the tree. -/
theorem BuiltTree.pathCost_le (h : BuiltTree f t) (hl : 1 ≤ leafCount f) {len : Byte → Nat}
    (hkraft : ((sortedSymbols f).map fun y => (1 / 2 : ℝ) ^ len y).sum ≤ 1) :
    (subtree t (2 * leafCount f - 2)).pathCost f ≤ codeCost f (sortedSymbols f) len := by
  have hsym (i : Nat) (y : Byte) (hy : (sortedSymbols f)[i]? = some y) : (nodeAt t.node i).sym = y := by
    rw [h.leaves i y hy]
    rfl
  have hstart : Kraft (Finset.range (leafCount f)) fun i => len (nodeAt t.node i).sym := by
    rwa [Kraft, sum_range_leafCount _ (fun y => (1 / 2 : ℝ) ^ len y) fun i y hy => by simp only [hsym i y hy]]
  have hcost : weightedLength (fun i => (nodeAt t.node i).cnt.toNat) (Finset.range (leafCount f))
      (fun i => len (nodeAt t.node i).sym) = codeCost f (sortedSymbols f) len := by
    rw [weightedLength, codeCost, sum_range_leafCount _ (fun y => len y * (freqAt f y).toNat)]
    intro i y hy
    rw [h.leaves i y hy, Nat.mul_comm]
    rfl
  obtain ⟨len', -, hle⟩ := h.exists_lengths_after hstart le_rfl
  rw [h.waitingAfter_last hl, Finset.sum_singleton, hcost] at hle
  omega

end Built

/-! ### Rival codes -/

/-- Words of which none begins another, and none is empty, can be told apart in any string of them. -/
theorem uniquelyDecodable_of_prefixFree {syms : List Byte} {code : Byte → List Bool} (h : prefixFree syms code)
    (hne : ∀ y ∈ syms, code y ≠ []) :
    InformationTheory.UniquelyDecodable {w | ∃ y ∈ syms, code y = w} := by
  intro us
  induction us with
  | nil =>
    rintro (_ | ⟨v, vs⟩) - hv heq
    · rfl
    · obtain ⟨y, hy, rfl⟩ := hv v List.mem_cons_self
      rw [List.flatten_nil, List.flatten_cons] at heq
      exact absurd (List.append_eq_nil_iff.mp heq.symm).1 (hne y hy)
  | cons u us ih =>
    rintro (_ | ⟨v, vs⟩) hu hv heq
    · obtain ⟨y, hy, rfl⟩ := hu u List.mem_cons_self
      rw [List.flatten_nil, List.flatten_cons] at heq
      exact absurd (List.append_eq_nil_iff.mp heq).1 (hne y hy)
    · obtain ⟨a, ha, rfl⟩ := hu u List.mem_cons_self
      obtain ⟨b, hb, rfl⟩ := hv v List.mem_cons_self
      rw [List.flatten_cons, List.flatten_cons] at heq
      have hab : a = b := by
        by_contra hne
        obtain hpre | hpre := List.prefix_or_prefix_of_prefix (heq ▸ List.prefix_append (code a) us.flatten)
          (List.prefix_append (code b) vs.flatten)
        · exact h a ha b hb hne hpre
        · exact h b hb a ha (Ne.symm hne) hpre
      subst hab
      rw [ih vs (fun w hw => hu w (List.mem_cons_of_mem _ hw)) (fun w hw => hv w (List.mem_cons_of_mem _ hw))
        (List.append_cancel_left heq)]

/-- Kraft's inequality for a rival code. -/
theorem kraftSum_le_of_prefixFree {syms : List Byte} {code : Byte → List Bool} (hnodup : syms.Nodup)
    (h : prefixFree syms code) (hne : ∀ y ∈ syms, code y ≠ []) :
    (syms.map fun y => (1 / 2 : ℝ) ^ (code y).length).sum ≤ 1 := by
  have hinj : Set.InjOn code syms.toFinset := by
    intro a ha b hb heq
    by_contra hab
    exact h a (List.mem_toFinset.mp ha) b (List.mem_toFinset.mp hb) hab (heq ▸ List.prefix_rfl)
  have hcoe : ((syms.toFinset.image code : Finset (List Bool)) : Set (List Bool)) = {w | ∃ y ∈ syms, code y = w} := by
    ext w
    simp
  have hkraft := InformationTheory.kraft_mcmillan_inequality (S := syms.toFinset.image code)
    (hcoe ▸ uniquelyDecodable_of_prefixFree h hne)
  rw [Finset.sum_image hinj, List.sum_toFinset _ hnodup, Fintype.card_bool] at hkraft
  exact hkraft

/-! ### The codes that CGEN makes -/

theorem toNat_len_entryOf {bits : List Bool} (h : bits.length ≤ 255) : (entryOf bits).len.toNat = bits.length :=
  Nat.mod_eq_of_lt (by omega)

/-- The entry of a leaf below an internal root has the leaf's depth as its length (R77). -/
theorem len_tableEntry {t : TreeMem} {c : Nat} {l r : Tree} {p : Byte × List Bool} (hroot : t.root ≠ Config.nil)
    (htree : t.tree? = some (.node c l r)) (hheight : (Tree.node c l r).height ≤ 255)
    (hnodup : (Tree.node c l r).symbols.Nodup) (hp : p ∈ (Tree.node c l r).paths) :
    (tableEntry t p.1).len.toNat = p.2.length := by
  rw [tableEntry_of_tree hroot htree, show (Tree.node c l r).codes = (Tree.node c l r).paths from rfl,
    lookup_paths hnodup hp, Option.map_some, Option.getD_some]
  exact toNat_len_entryOf ((length_le_height hp).trans hheight)

/-- The entry of a lone leaf has length 1 (R80). -/
theorem len_tableEntry_leaf {t : TreeMem} {y : Byte} {c : Nat} (hroot : t.root ≠ Config.nil)
    (htree : t.tree? = some (.leaf y c)) : (tableEntry t y).len.toNat = 1 := by
  rw [tableEntry_of_tree hroot htree, codes_leaf_lookup, entryBelow_leaf, if_pos rfl]
  rfl

section Codes

variable {f : Vector Count 256} {t : TreeMem}

theorem BuiltTree.root_ne_nil (h : BuiltTree f t) (hl : 1 ≤ leafCount f) : t.root ≠ Config.nil := by
  have hle := leafCount_le f
  have hroot := h.root_toNat hl
  intro hnil
  rw [hnil] at hroot
  change 511 = _ at hroot
  omega

/-- With two leaves at least, what the codes of the table cost is what the paths of the tree cost. -/
theorem BuiltTree.codeCost_eq (h : BuiltTree f t) (hl : 2 ≤ leafCount f) :
    codeCost f (sortedSymbols f) (fun y => (tableEntry t y).len.toNat) =
      (subtree t (2 * leafCount f - 2)).pathCost f := by
  have hone : 1 ≤ leafCount f := Nat.le_of_succ_le hl
  have hle := leafCount_le f
  have hheight := h.height_le hone
  have hnodup := h.nodup_symbols hone
  have htree := h.tree?_eq hone
  rw [codeCost, ← ((h.symbols_perm hone).map _).sum_eq, ← map_fst_paths, List.map_map, Tree.pathCost]
  rw [h.subtree_node (i := 2 * leafCount f - 2) (by omega) (by omega)] at hheight hnodup htree ⊢
  refine congrArg List.sum (List.map_congr_left fun p hp => ?_)
  rw [Function.comp_apply, len_tableEntry (h.root_ne_nil hone) htree (by omega) hnodup hp]

/-- With one leaf, its code has length 1. -/
theorem BuiltTree.len_of_lone_leaf (h : BuiltTree f t) (hl : leafCount f = 1) {y : Byte} (hy : y ∈ sortedSymbols f) :
    (tableEntry t y).len.toNat = 1 := by
  have htree := h.tree?_eq hl.ge
  obtain ⟨i, hi, rfl⟩ := List.getElem_of_mem hy
  obtain rfl : i = 0 := by
    change i < leafCount f at hi
    omega
  rw [hl, h.subtree_leaf (List.getElem?_eq_getElem hi)] at htree
  exact len_tableEntry_leaf (h.root_ne_nil hl.ge) htree

/-- No rival code costs less than the table of the tree (R75). -/
theorem BuiltTree.codeCost_le (h : BuiltTree f t) {code : Byte → List Bool} (hfree : prefixFree (sortedSymbols f) code)
    (hne : ∀ y ∈ sortedSymbols f, code y ≠ []) :
    codeCost f (sortedSymbols f) (fun y => (tableEntry t y).len.toNat) ≤
      codeCost f (sortedSymbols f) fun y => (code y).length := by
  by_cases htwo : 2 ≤ leafCount f
  · rw [h.codeCost_eq htwo]
    exact h.pathCost_le (by omega) (kraftSum_le_of_prefixFree (nodup_sortedSymbols f) hfree hne)
  · refine List.sum_le_sum fun y hy => Nat.mul_le_mul_right _ ?_
    have hpos : 0 < leafCount f := List.length_pos_of_mem hy
    exact (h.len_of_lone_leaf (by omega) hy).trans_le (List.length_pos_of_ne_nil (hne y hy))

end Codes

/-- After `TBUILD` and `CGEN` without a fault the code table is that of a tree built from the table (R70, R81). -/
theorem exists_builtTree_of_execAll {s t : State} (hs : s.err = .none) (h : execAll [.tbuild, .cgen] s = .next t)
    (ht : t.err = .none) : ∃ tree, BuiltTree s.freq tree ∧ ∀ y, codeAt t.code y = tableEntry tree y := by
  obtain ⟨tree, hexec, -⟩ | ⟨tree, hexec, -⟩ := exec_tbuild_cases hs
  · have hbuilt := builtTree_of_exec hs hexec hs
    obtain ⟨table, hdone, htable⟩ := cgenBody_of_sound hbuilt.sound
    have hcgen := (exec_cgen _).trans (issue_done (s := (s.clearValid.setTree tree).markTree) hs rfl rfl hdone)
    simp only [execAll, hexec, hcgen] at h
    cases h
    exact ⟨tree, hbuilt, htable⟩
  · simp only [execAll, hexec, exec_cgen] at h
    rw [issue_refused (by simp)] at h
    cases h
    cases ht

end Sys2Proof.Machine

namespace Sys2Proof.Proofs

open Sys2Proof.Machine

/-- Settles O49: Kraft's inequality gives the rival's lengths, and each merge of the two lightest nodes keeps them to it. -/
theorem huffmanOptimality : Obligations.HuffmanOptimality := by
  intro s t hs h ht code hfree hne
  obtain ⟨tree, hbuilt, htable⟩ := exists_builtTree_of_execAll hs h ht
  simp only [htable]
  exact hbuilt.codeCost_le hfree hne

end Sys2Proof.Proofs
end
section
/-! SUPPORT. What R82 says of the codes of a sound tree: their lengths, their patterns as numbers, and that none is the
beginning of another (spec/42_code_table.md R77, R80, R82, R83). With it O32 and O33. -/

namespace Sys2Proof.Machine

/-! ### Codes as numbers -/

theorem toNat_pat_entryOf {bits : List Bool} (h : bits.length ≤ 255) : (entryOf bits).pat.toNat = bitsValue bits :=
  Nat.mod_eq_of_lt ((bitsValue_lt bits).trans_le (Nat.pow_le_pow_right (by decide) (by omega)))

/-- A code whose number is the low part of another code's number is the beginning of that code (R77). -/
theorem isPrefix_of_bitsValue_mod {as bs : List Bool} (hlen : as.length ≤ bs.length)
    (h : bitsValue bs % 2 ^ as.length = bitsValue as) : as <+: bs := by
  induction as generalizing bs with
  | nil => exact List.nil_prefix
  | cons a as ih =>
    cases bs with
    | nil => cases hlen
    | cons b bs =>
      have hpow : 2 ^ (a :: as).length = 2 * 2 ^ as.length := Nat.pow_succ'
      rw [hpow, Nat.mod_mul, bitsValue, bitsValue] at h
      have ha := Bool.toNat_lt a
      have hb := Bool.toNat_lt b
      have hhead : b.toNat = a.toNat := by omega
      have htail : (b.toNat + 2 * bitsValue bs) / 2 = bitsValue bs := by omega
      rw [htail] at h
      rw [Function.LeftInverse.injective Bool.ofNat_toNat hhead]
      exact (List.prefix_cons_inj a).mpr (ih (Nat.le_of_succ_le_succ hlen) (by omega))

/-! ### The codes of a tree -/

/-- A leaf ends its path, so no path is the beginning of the path of another symbol (R82). -/
theorem not_isPrefix_of_mem_paths {tr : Tree} {p q : Byte × List Bool} (hp : p ∈ tr.paths) (hq : q ∈ tr.paths)
    (hne : p.1 ≠ q.1) : ¬ p.2 <+: q.2 := by
  induction tr generalizing p q with
  | leaf s c => exact absurd (by rw [List.mem_singleton.mp hp, List.mem_singleton.mp hq]) hne
  | node c l r hl hr =>
    obtain hp | hp := List.mem_append.mp hp <;> obtain hq | hq := List.mem_append.mp hq <;>
      obtain ⟨p', hp', rfl⟩ := List.mem_map.mp hp <;> obtain ⟨q', hq', rfl⟩ := List.mem_map.mp hq <;>
      rw [List.cons_prefix_cons]
    · exact fun h => hl hp' hq' hne h.2
    · exact fun h => Bool.false_ne_true h.1
    · exact fun h => Bool.false_ne_true h.1.symm
    · exact fun h => hr hp' hq' hne h.2

theorem not_isPrefix_of_mem_codes {tr : Tree} {p q : Byte × List Bool} (hp : p ∈ tr.codes) (hq : q ∈ tr.codes)
    (hne : p.1 ≠ q.1) : ¬ p.2 <+: q.2 := by
  cases tr with
  | leaf s c => exact absurd (by rw [List.mem_singleton.mp hp, List.mem_singleton.mp hq]) hne
  | node c l r => exact not_isPrefix_of_mem_paths hp hq hne

/-- A leaf below an internal node has at least one edge above it. -/
theorem length_pos_of_mem_paths_node {c : Nat} {l r : Tree} {p : Byte × List Bool} (h : p ∈ (Tree.node c l r).paths) :
    1 ≤ p.2.length := by
  obtain h | h := List.mem_append.mp h <;> obtain ⟨q, -, rfl⟩ := List.mem_map.mp h <;> exact Nat.le_add_left 1 _

/-- A code has at least one bit, a lone leaf's too (R80), and at most 255 in a tree no higher than that (R83). -/
theorem length_of_mem_codes {tr : Tree} (hheight : tr.height ≤ 255) {p : Byte × List Bool} (h : p ∈ tr.codes) :
    1 ≤ p.2.length ∧ p.2.length ≤ 255 := by
  cases tr with
  | leaf s c =>
    obtain rfl := List.mem_singleton.mp h
    exact ⟨le_rfl, (by decide : 1 ≤ 255)⟩
  | node c l r => exact ⟨length_pos_of_mem_paths_node (c := c) h, (length_le_height h).trans hheight⟩

/-! ### The entries of the table -/

/-- A present entry of the table of a sound tree is that of one of the tree's codes. -/
theorem exists_code_of_valid {t : TreeMem} (h : t.sound = true) {y : Byte} (hvalid : (tableEntry t y).valid = true) :
    ∃ tr bits, t.tree? = some tr ∧ tr.height ≤ 255 ∧ (y, bits) ∈ tr.codes ∧ tableEntry t y = entryOf bits := by
  obtain hroot | ⟨hroot, tr, htree, hheight, -⟩ := sound_cases h
  · simp [tableEntry, hroot, CodeEntry.absent] at hvalid
  · rw [tableEntry_of_tree hroot htree] at hvalid ⊢
    cases hlookup : tr.codes.lookup y with
    | none => simp [hlookup, CodeEntry.absent] at hvalid
    | some bits =>
      obtain ⟨before, after, hsplit, -⟩ := List.lookup_eq_some_iff.mp hlookup
      exact ⟨tr, bits, htree, hheight, hsplit ▸ List.mem_append_right _ List.mem_cons_self, rfl⟩

/-- A present entry has a length from 1 to 255 and no bit at `len` or above (R82 (b), (c), R83). -/
theorem bounds_tableEntry {t : TreeMem} (h : t.sound = true) {y : Byte} (hvalid : (tableEntry t y).valid = true) :
    1 ≤ (tableEntry t y).len.toNat ∧ (tableEntry t y).len.toNat ≤ 255 ∧
      (tableEntry t y).pat.toNat < 2 ^ (tableEntry t y).len.toNat := by
  obtain ⟨tr, bits, -, hheight, hmem, hentry⟩ := exists_code_of_valid h hvalid
  obtain ⟨hpos, hle⟩ := length_of_mem_codes hheight hmem
  rw [hentry, toNat_len_entryOf hle, toNat_pat_entryOf hle]
  exact ⟨hpos, hle, bitsValue_lt bits⟩

/-- The low bits of a present entry's pattern are no other symbol's whole code (R82 (d)). -/
theorem pat_mod_ne_tableEntry {t : TreeMem} (h : t.sound = true) {y z : Byte} (hne : y ≠ z)
    (hy : (tableEntry t y).valid = true) (hz : (tableEntry t z).valid = true)
    (hlen : (tableEntry t y).len.toNat ≤ (tableEntry t z).len.toNat) :
    (tableEntry t z).pat.toNat % 2 ^ (tableEntry t y).len.toNat ≠ (tableEntry t y).pat.toNat := by
  obtain ⟨tr, p, htree, hheight, hp, hpentry⟩ := exists_code_of_valid h hy
  obtain ⟨tr', q, htree', -, hq, hqentry⟩ := exists_code_of_valid h hz
  cases htree.symm.trans htree'
  have hple := (length_of_mem_codes hheight hp).2
  have hqle := (length_of_mem_codes hheight hq).2
  rw [hpentry, hqentry, toNat_len_entryOf hple, toNat_len_entryOf hqle] at hlen
  rw [hpentry, hqentry, toNat_len_entryOf hple, toNat_pat_entryOf hple, toNat_pat_entryOf hqle]
  exact fun hmod => not_isPrefix_of_mem_codes hp hq hne (isPrefix_of_bitsValue_mod hlen hmod)

/-! ### The command -/

theorem needTree_of_tvalid {s : State} (h : s.tvalid = true) : needTree s = none := by simp [needTree, h]

/-- `CGEN` with a sound tree completes, and makes the table of the tree's codes (R81). -/
theorem exec_cgen_of_sound {s : State} (herr : s.err = .none) (ht : s.tvalid = true) (h : s.tree.sound = true) :
    ∃ table, exec .cgen s = .next { s with code := table, cvalid := true } ∧
      ∀ y, codeAt table y = tableEntry s.tree y := by
  obtain ⟨table, hdone, htable⟩ := cgenBody_of_sound h
  exact ⟨table, issue_done herr rfl (needTree_of_tvalid ht) hdone, htable⟩

end Sys2Proof.Machine

namespace Sys2Proof.Proofs

open Sys2Proof.Machine

/-- Settles O32: the walk over a sound tree raises nothing and records the code of every leaf. -/
theorem cgenGivesPathCodes : Obligations.CgenGivesPathCodes := fun _ => exec_cgen_of_sound

/-- Settles O33: the table holds the codes of a sound tree, and a path that ends at a leaf begins no other path. -/
theorem cgenCodesArePrefixFree : Obligations.CgenCodesArePrefixFree := by
  intro s t herr ht hsound hexec
  obtain ⟨table, hcgen, htable⟩ := exec_cgen_of_sound herr ht hsound
  cases hcgen.symm.trans hexec
  simp only [htable]
  exact ⟨fun _ => bounds_tableEntry hsound, fun _ _ => pat_mod_ne_tableEntry hsound⟩

end Sys2Proof.Proofs
end
section
/-! SUPPORT. The walks of `CGEN` and `TSER` over any node memory (spec/42_code_table.md R84, spec/44_encoder.md R96): both
visit the nodes that `walkFrom` lists, and raise `INVARIANT` where it meets an impossible child (O34). -/

namespace Sys2Proof.Machine

/-! ### One node of a walk -/

theorem childrenLive_eq_true_iff (t : TreeMem) (n : Node) :
    childrenLive t n = true ↔ ¬ (t.nnode.toNat ≤ n.left.toNat ∨ t.nnode.toNat ≤ n.right.toNat) := by
  rw [← childrenLive_eq_false_iff, Bool.not_eq_false]

/-- What a walk that ends within its depth does at a node: it visits a leaf; it stops before an internal node with an
impossible child; it visits a node with live children, and then stops below its left child, or walks both (R84, R96). -/
inductive WalkStep (d : Nat) (t : TreeMem) (n : Node) (i : Nat) : List Nat → Bool → Prop
  | leaf (hleaf : n.leaf = true) : WalkStep d t n i [i] true
  | impossible (hleaf : n.leaf = false) (hlive : childrenLive t n = false) : WalkStep d t n i [] false
  | left {ls : List Nat} (hleaf : n.leaf = false) (hlive : childrenLive t n = true)
      (hl : walkFrom d t n.left.toNat = some (ls, false)) : WalkStep d t n i (i :: ls) false
  | both {ls rs : List Nat} {ok : Bool} (hleaf : n.leaf = false) (hlive : childrenLive t n = true)
      (hl : walkFrom d t n.left.toNat = some (ls, true)) (hr : walkFrom d t n.right.toNat = some (rs, ok)) :
      WalkStep d t n i (i :: (ls ++ rs)) ok

theorem walkStep_of_walkFrom {d : Nat} {t : TreeMem} {i : Nat} {visited : List Nat} {ok : Bool}
    (h : walkFrom (d + 1) t i = some (visited, ok)) : WalkStep d t (nodeAt t.node i) i visited ok := by
  unfold walkFrom at h
  dsimp only at h
  split at h
  · next hleaf => cases h; exact .leaf hleaf
  · next hleaf =>
    rw [Bool.not_eq_true] at hleaf
    split at h
    · next hdead => cases h; exact .impossible hleaf ((childrenLive_eq_false_iff _ _).mpr hdead)
    · next hlive =>
      rw [← childrenLive_eq_true_iff] at hlive
      split at h
      · cases h
      · next ls hl => cases h; exact .left hleaf hlive hl
      · next ls hl =>
        obtain ⟨⟨rs, ok'⟩, hr, heq⟩ := Option.map_eq_some_iff.mp h
        cases heq
        exact .both hleaf hlive hl hr

/-- How the pseudocode ends where a walk ends: at its end, or with `INVARIANT` (R84). -/
def walkEnd (ok : Bool) (s : State) : Body := if ok then .done s else .raised .invariant s

/-! ### CGEN -/

/-- The walk of `CGEN` ends as `walkFrom` says, and has changed the code table only (R81, R84). -/
theorem genCodes_of_walkFrom {d i : Nat} {visited : List Nat} {ok : Bool} {s : State}
    (h : walkFrom d s.tree i = some (visited, ok)) (pat : Pattern) (len : CodeLen) :
    ∃ table, genCodes d i pat len s = walkEnd ok { s with code := table } := by
  induction d generalizing i visited ok s pat len with
  | zero => cases h
  | succ d ih =>
    unfold genCodes
    dsimp only
    cases walkStep_of_walkFrom h with
    | leaf hleaf =>
      rw [if_pos hleaf]
      exact ⟨_, rfl⟩
    | impossible hleaf hlive =>
      rw [if_neg (by simp [hleaf]), if_neg (by simp [hlive])]
      exact ⟨_, rfl⟩
    | left hleaf hlive hl =>
      obtain ⟨table, hleft⟩ := ih hl pat (len + 1#9)
      rw [if_neg (by simp [hleaf]), if_pos hlive, hleft]
      exact ⟨table, rfl⟩
    | both hleaf hlive hl hr =>
      obtain ⟨table, hleft⟩ := ih hl pat (len + 1#9)
      rw [if_neg (by simp [hleaf]), if_pos hlive, hleft]
      exact ih (s := { s with code := table }) hr (rightPattern pat len) (len + 1#9)

theorem leaf_eq_false_of_walkFrom {d : Nat} {t : TreeMem} {i : Nat} {visited : List Nat}
    (h : walkFrom d t i = some (visited, false)) : (nodeAt t.node i).leaf = false := by
  cases d with
  | zero => cases h
  | succ d => cases walkStep_of_walkFrom h <;> assumption

/-- `CGEN`'s body at an impossible child: `CVALID` is 0 and only the code table has changed besides (R84, R108). -/
theorem cgenBody_of_impossible {s : State} {visited : List Nat} (hroot : s.tree.root ≠ Config.nil)
    (h : walkFrom Config.nnodeMax s.tree s.tree.root.toNat = some (visited, false)) :
    ∃ table, cgenBody s = .raised .invariant { s with code := table, cvalid := false } := by
  have hleaf := leaf_eq_false_of_walkFrom h
  obtain ⟨table, hgen⟩ := genCodes_of_walkFrom (s := (s.setCvalid false).clearCode) h 0#256 0#9
  have hfrom : genFromRoot (s.setCvalid false).clearCode =
      genCodes Config.nnodeMax s.tree.root.toNat 0#256 0#9 (s.setCvalid false).clearCode := by
    simp [genFromRoot, hroot, hleaf]
  exact ⟨table, by rw [cgenBody, hfrom, hgen]; rfl⟩

/-! ### TSER -/

/-- After some bytes are pushed, pseudocode that pushes further bytes before it goes on pushes all of them in a row, if it
does so in every state with the same tree. -/
theorem outBytes_andThen_outBytes {as bs : List Byte} {j k : State → Body} {s : State}
    (hk : ∀ m, m.tree = s.tree → k m = (outBytes bs m).andThen j) :
    (outBytes as s).andThen k = (outBytes (as ++ bs) s).andThen j := by
  rw [outBytes_append, Body.andThen_assoc]
  obtain h | ⟨n, -, h⟩ := outBytes_cases as s <;> rw [h]
  · exact hk _ rfl
  · rfl

/-- The bytes of the records of some nodes, in order (R93). -/
def nodesBytes (t : TreeMem) (is : List Nat) : List Byte := is.flatMap fun i => nodeBytes (nodeAt t.node i)

theorem length_nodesBytes (t : TreeMem) (is : List Nat) : (nodesBytes t is).length = 8 * is.length := by
  simp [nodesBytes, List.length_flatMap, nodeBytes, littleEndian, Nat.mul_comm]

theorem nodesBytes_cons (t : TreeMem) (i : Nat) (is : List Nat) :
    nodesBytes t (i :: is) = nodeBytes (nodeAt t.node i) ++ nodesBytes t is := List.flatMap_cons

theorem nodesBytes_append (t : TreeMem) (is js : List Nat) :
    nodesBytes t (is ++ js) = nodesBytes t is ++ nodesBytes t js := List.flatMap_append

theorem outRecord_eq_outBytes_nodeBytes (n : Node) : outRecord (recordWord n) = outBytes (nodeBytes n) := by
  rw [nodeBytes_eq]; rfl

/-- The walk of `TSER` pushes the records of the nodes that `walkFrom` visits, and ends as it says (R84, R96). -/
theorem serNodes_of_walkFrom {d i : Nat} {visited : List Nat} {ok : Bool} {s : State}
    (h : walkFrom d s.tree i = some (visited, ok)) :
    serNodes d i s = (outBytes (nodesBytes s.tree visited) s).andThen (walkEnd ok) := by
  induction d generalizing i visited ok s with
  | zero => cases h
  | succ d ih =>
    unfold serNodes
    dsimp only
    rw [outRecord_eq_outBytes_nodeBytes]
    cases walkStep_of_walkFrom h with
    | leaf hleaf =>
      rw [if_pos hleaf, nodesBytes, List.flatMap_singleton]
      exact (Body.andThen_done_right _).symm
    | impossible hleaf hlive =>
      rw [if_neg (by simp [hleaf]), if_neg (by simp [hlive])]
      rfl
    | left hleaf hlive hl =>
      rw [if_neg (by simp [hleaf]), if_pos hlive, nodesBytes_cons,
        outBytes_andThen_outBytes fun m hm => hm ▸ ih (hm ▸ hl), Body.andThen_assoc]
      rfl
    | both hleaf hlive hl hr =>
      rw [if_neg (by simp [hleaf]), if_pos hlive, nodesBytes_cons, nodesBytes_append, ← List.append_assoc,
        outBytes_andThen_outBytes fun m hm => hm ▸ ih (hm ▸ hl), Body.andThen_assoc]
      exact outBytes_andThen_outBytes fun m hm => hm ▸ ih (hm ▸ hr)

/-- `TSER`'s body at an impossible child: the records before it are pushed, if no push errs (R96, R108). -/
theorem tserBody_of_impossible {s : State} {visited : List Nat} (hroot : s.tree.root ≠ Config.nil)
    (h : walkFrom Config.nnodeMax s.tree s.tree.root.toNat = some (visited, false))
    (hdraws : s.DrawsSucceed (8 * visited.length)) :
    tserBody s = .raised .invariant (s.pushAll (nodesBytes s.tree visited)) := by
  rw [← length_nodesBytes s.tree visited] at hdraws
  rw [tserBody, serTree, if_neg hroot, serNodes_of_walkFrom h, outBytes_of_no_error _ _ hdraws]
  rfl

end Sys2Proof.Machine

namespace Sys2Proof.Proofs

open Sys2Proof.Machine

/-- Settles O34: both walks visit the nodes that `walkFrom` lists, and raise `INVARIANT` where it stops. -/
theorem impossibleChildRaisesInvariant : Obligations.ImpossibleChildRaisesInvariant := by
  intro s visited herr ht hroot hwalk
  constructor
  · obtain ⟨table, hbody⟩ := cgenBody_of_impossible hroot hwalk
    exact ⟨_, issue_raised herr rfl (needTree_of_tvalid ht) hbody, rfl, rfl, rfl, ht, rfl, rfl, rfl⟩
  · intro hw hdraws
    have hbody := tserBody_of_impossible hroot hwalk hdraws
    refine ⟨_, issue_raised herr rfl (tser_guard ht hw) hbody, rfl, rfl, rfl, ?_, rfl, ht, rfl⟩
    simp [length_nodesBytes]

end Sys2Proof.Proofs
end
section
/-! SUPPORT. A list of bits as a number, and `BitAppend` of a pattern in closed form and at the first error
(spec/43_bit_writer.md R85, R86). With them `BWRITE` (R88): O35 and O36. -/

namespace Sys2Proof.Machine

/-! ### Bits and numbers -/

/-- The bits of `bitsValue` are the list's, least significant first. -/
theorem testBit_bitsValue (bits : List Bool) (i : Nat) : (bitsValue bits).testBit i = bits.getD i false := by
  induction bits generalizing i with
  | nil => simp [bitsValue]
  | cons b bits ih =>
    have hb := Bool.toNat_lt b
    rw [bitsValue]
    cases i with
    | zero => cases b <;> simp [Nat.testBit_zero]
    | succ i =>
      rw [Nat.testBit_add_one, show (b.toNat + 2 * bitsValue bits) / 2 = bitsValue bits by omega, ih,
        List.getD_cons_succ]

/-- The bits that a pattern sends are its value modulo 2^n (R86). -/
theorem bitsValue_patternBits (pat : Pattern) (n : Nat) : bitsValue (patternBits pat n) = pat.toNat % 2 ^ n := by
  refine Nat.eq_of_testBit_eq fun i => ?_
  rw [testBit_bitsValue, Nat.testBit_mod_two_pow, patternBits]
  by_cases hi : i < n
  · simp [hi, BitVec.getLsbD]
  · simp [hi]

/-- A list of at most 256 bits is what the pattern of its value sends. -/
theorem patternBits_ofNat_bitsValue {bits : List Bool} (h : bits.length ≤ 256) :
    patternBits (BitVec.ofNat 256 (bitsValue bits)) bits.length = bits := by
  refine List.ext_getElem (patternBits_length _ _) fun i hi hi' => ?_
  have hbit : (BitVec.ofNat 256 (bitsValue bits)).getLsbD i = bits[i] := by
    rw [BitVec.getLsbD_ofNat, testBit_bitsValue, List.getD_eq_getElem _ _ hi', decide_eq_true (hi'.trans_le h),
      Bool.true_and]
  simpa [patternBits] using hbit

/-! ### BitAppend of a pattern -/

theorem acceptBits_patternBits (s : State) (pat : Pattern) (n : Nat) :
    s.acceptBits (patternBits pat n) = s.accept (pat.toNat % 2 ^ n) n := by
  rw [State.acceptBits, bitsValue_patternBits, patternBits_length]

/-- `BitAppend` in closed form (R86). -/
theorem bitAppend_of_success {s : State} (hclean : s.writerClean) (hio : s.noIoErrors) (pat : Pattern) (n : Nat) :
    bitAppend pat n s = .done (s.accept (pat.toNat % 2 ^ n) n) := by
  rw [bitAppend, pushBits_of_success hclean (drawsSucceed_of_noIoErrors hio _), acceptBits_patternBits]

/-- `BitAppend` of which push number `k` draws the first error: the `k` bytes before it are in `OUT` (R85, R108). -/
theorem bitAppend_of_error {s : State} (hclean : s.writerClean) (pat : Pattern) {n k : Nat} {rest : List Bool}
    (hio : s.ioErrs = List.replicate k false ++ true :: rest) (hk : k < (s.bw.cur.toNat + n) / 8) :
    ∃ t, bitAppend pat n s = .raised .io t ∧
      t.out = (s.accept (pat.toNat % 2 ^ n) n).out.take (s.out.length + k) ∧ t.olen = s.olen + BitVec.ofNat 64 k := by
  have hfilled : k < s.bw.filled (patternBits pat n) / 8 := by rwa [BitWriter.filled, patternBits_length]
  refine ⟨_, pushBits_of_error hclean hio hfilled, ?_, ?_⟩
  · rw [← acceptBits_patternBits, State.dropDraw_out, State.acceptBits_out, State.acceptBits_out,
      List.take_length_add_append, BitWriter.Clean.fullBytes_take (w := s.bw) _ hclean hfilled]
  · exact congrArg (fun m => s.olen + BitVec.ofNat 64 m) (BitWriter.filled_take_div _ hfilled)

/-- Two calls of `BitAppend` are one call with the bits of the first followed by those of the second (R86). -/
theorem bitAppend_andThen_bitAppend (s : State) (p q : Pattern) {n m : Nat} (h : n + m ≤ 256) :
    (bitAppend p n s).andThen (bitAppend q m) =
      bitAppend (BitVec.ofNat 256 (p.toNat % 2 ^ n + q.toNat % 2 ^ m * 2 ^ n)) (n + m) s := by
  have hlen : (patternBits p n ++ patternBits q m).length = n + m := by
    rw [List.length_append, patternBits_length, patternBits_length]
  have hvalue : bitsValue (patternBits p n ++ patternBits q m) = p.toNat % 2 ^ n + q.toNat % 2 ^ m * 2 ^ n := by
    rw [bitsValue_append, bitsValue_patternBits, bitsValue_patternBits, patternBits_length, Nat.mul_comm]
  have hbits := patternBits_ofNat_bitsValue (hlen.trans_le h)
  rw [hvalue, hlen] at hbits
  calc (pushBits (patternBits p n) s).andThen (pushBits (patternBits q m))
    _ = pushBits (patternBits p n ++ patternBits q m) s := (pushBits_append _ _ s).symm
    _ = pushBits (patternBits (BitVec.ofNat 256 (p.toNat % 2 ^ n + q.toNat % 2 ^ m * 2 ^ n)) (n + m)) s := by rw [hbits]

/-! ### BWRITE -/

theorem bitAppend_zero (pat : Pattern) (s : State) : bitAppend pat 0 s = .done s := rfl

theorem toNat_bwritePattern (pat : BitVec 32) : (bwritePattern pat).toNat = pat.toNat :=
  BitVec.toNat_setWidth_of_le (by decide)

theorem wellFormed_bwrite {pat : BitVec 32} {n : BitVec 8} (h : n.toNat ≤ 32) : (Instr.bwrite pat n).wellFormed = true :=
  decide_eq_true h

/-- The word of `BWRITE` (R88). -/
theorem encode_bwrite (pat : BitVec 32) (n : BitVec 8) :
    encode (.bwrite pat n) = 0x0500000000000000#64 ||| n.setWidth 64 <<< 48 ||| pat.setWidth 64 :=
  cmdWord_eq_or 0x05#8 n pat

end Sys2Proof.Machine

namespace Sys2Proof.Proofs

open Sys2Proof.Machine

/-- Settles O35: `BWRITE` has no check, and its body is `BitAppend` of the pattern widened to 256 bits. -/
theorem bwriteAppendsLowBits : Obligations.BwriteAppendsLowBits := by
  intro s pat n herr hn
  have hwf := wellFormed_bwrite (pat := pat) hn
  rw [exec_bwrite, ← toNat_bwritePattern]
  refine ⟨?_, fun hclean hio => ?_, fun k rest hclean hio hk => ?_⟩
  · rintro rfl
    exact issue_done herr hwf rfl (bitAppend_zero _ s)
  · exact issue_done herr hwf rfl (bitAppend_of_success hclean hio _ _)
  · obtain ⟨t, hbody, hout, holen⟩ := bitAppend_of_error hclean (bwritePattern pat) hio hk
    exact ⟨_, issue_raised herr hwf rfl hbody, rfl, encode_bwrite pat n, hout, holen⟩

/-- Settles O36: `BitAppend` accepts the bits of its pattern, whose value is the pattern modulo 2^n, and two lists of bits
are accepted as one. -/
theorem bitAppendClosedForm : Obligations.BitAppendClosedForm := by
  refine ⟨fun s pat n _ hclean hio => ⟨bitAppend_of_success hclean hio pat n, ?_, ?_⟩,
    fun s p q n m h => bitAppend_andThen_bitAppend s p q h⟩
  · have hvalue := BitWriter.Clean.value_lt (patternBits pat n) hclean
    rwa [BitWriter.value, BitWriter.filled, bitsValue_patternBits, patternBits_length] at hvalue
  · rw [← acceptBits_patternBits]
    exact BitWriter.Clean.append (patternBits pat n) hclean

end Sys2Proof.Proofs
end
section
/-! SUPPORT. `BitFlush` (spec/43_bit_writer.md R87) and what an empty writer pushes in all (R90): O37 and O38. -/

namespace Sys2Proof.Machine

/-! ### BitFlush -/

theorem bitFlush_of_empty {s : State} (h : s.bw.cur = 0#3) : bitFlush s = .done s := if_pos h

/-- Bits pending, and the push succeeds: the partial byte is pushed, and the writer is empty (R87). -/
theorem bitFlush_of_success {s : State} (h : s.bw.cur ≠ 0#3) (hdraw : s.nextDraw = false) :
    bitFlush s = .done ((s.pushAll [s.bw.buf]).setWriter 0#8 0#3) := by
  simp [bitFlush, h, outByte, hdraw, dropDraw_pushByte]

/-- Bits pending, and the push errs: only the draw is used up (R87, R39). -/
theorem bitFlush_of_error {s : State} (h : s.bw.cur ≠ 0#3) (hdraw : s.nextDraw = true) :
    bitFlush s = .raised .io s.dropDraw := by
  rw [bitFlush, if_neg h, outByte_of_error _ hdraw, Body.andThen_raised]

/-! ### The bytes of an empty writer -/

/-- The writer as it is after reset and after a flush (R35, R87). -/
def BitWriter.empty : BitWriter := { buf := 0#8, cur := 0#3 }

theorem BitWriter.clean_empty : BitWriter.empty.Clean := by decide

@[simp] theorem BitWriter.value_empty (bits : List Bool) : BitWriter.empty.value bits = bitsValue bits := by
  simp [value, empty]

@[simp] theorem BitWriter.filled_empty (bits : List Bool) : BitWriter.empty.filled bits = bits.length := by
  simp [filled, empty]

/-- Whole bytes, and nothing is left in the writer. -/
theorem packBits_of_whole {bits : List Bool} (h : bits.length % 8 = 0) :
    packBits bits = BitWriter.empty.fullBytes bits := by
  rw [packBits, BitWriter.fullBytes, BitWriter.filled_empty, BitWriter.value_empty,
    show (bits.length + 7) / 8 = bits.length / 8 by omega]

/-- The byte that is flushed follows the whole ones. -/
theorem packBits_of_partial {bits : List Bool} (h : bits.length % 8 ≠ 0) :
    packBits bits = BitWriter.empty.fullBytes bits ++ [(BitWriter.empty.append bits).buf] := by
  rw [packBits, BitWriter.fullBytes, BitWriter.append, BitWriter.filled_empty, BitWriter.value_empty,
    show (bits.length + 7) / 8 = bits.length / 8 + 1 by omega, List.range_succ, List.map_append, List.map_singleton]

/-- A writer without pending bits is empty, for it is clean (R24). -/
theorem BitWriter.Clean.eq_empty {w : BitWriter} (h : w.Clean) (hcur : w.cur = 0#3) : w = BitWriter.empty := by
  obtain ⟨buf, cur⟩ := w
  obtain rfl : cur = 0#3 := hcur
  have hbuf : buf.toNat < 1 := h
  obtain rfl : buf = 0#8 := BitVec.eq_of_toNat_eq (by simpa using hbuf)
  rfl

theorem BitWriter.cur_append_empty_eq_zero_iff (bits : List Bool) :
    (BitWriter.empty.append bits).cur = 0#3 ↔ bits.length % 8 = 0 := by
  rw [← BitVec.toNat_inj, toNat_cur_append, filled_empty, BitVec.toNat_ofNat, Nat.zero_mod]

theorem setWriter_of_empty {s : State} (h : s.bw = BitWriter.empty) : s.setWriter 0#8 0#3 = s := by
  rw [State.setWriter, ← BitWriter.empty, ← h]

/-- Bits accepted by an empty writer and then flushed are packed from bit 0 upward (R90). -/
theorem pushBits_bitFlush_of_empty {s : State} (hw : s.bw = BitWriter.empty) (hio : s.noIoErrors) (bits : List Bool) :
    (pushBits bits s).andThen bitFlush = .done (s.pushAll (packBits bits)) := by
  have hclean : s.writerClean := by rw [State.writerClean, hw]; exact BitWriter.clean_empty
  have hbw : (s.acceptBits bits).bw = BitWriter.empty.append bits := by rw [State.acceptBits_bw, hw]
  rw [pushBits_of_success hclean (drawsSucceed_of_noIoErrors hio _), Body.andThen_done]
  by_cases hr : bits.length % 8 = 0
  · have hcur := (BitWriter.cur_append_empty_eq_zero_iff bits).mpr hr
    rw [bitFlush_of_empty (hbw ▸ hcur), acceptBits_eq, hw, packBits_of_whole hr,
      (BitWriter.clean_empty.append bits).eq_empty hcur, ← hw]
    rfl
  · have hcur := (BitWriter.cur_append_empty_eq_zero_iff bits).not.mpr hr
    have hdraws := drawsSucceed_of_noIoErrors hio (s.bw.filled bits / 8 + 1)
    have hdraw : (s.acceptBits bits).nextDraw = false := (hdraws.drop rfl).nextDraw Nat.one_pos
    rw [bitFlush_of_success (hbw ▸ hcur) hdraw, hbw, packBits_of_partial hr, ← pushAll_pushAll, acceptBits_eq, hw]
    exact congrArg (fun t : State => Body.done (t.pushAll _)) (setWriter_of_empty (s := s.pushAll _) hw)

/-- Bit `m` of the list is bit `m mod 8` of byte `m / 8`, and the bits past the list are 0 (R90). -/
theorem getLsbD_of_packBits {bits : List Bool} {m : Nat} {b : Byte} (h : (packBits bits)[m / 8]? = some b) :
    b.getLsbD (m % 8) = bits.getD m false := by
  rw [packBits, List.getElem?_map, Option.map_eq_some_iff] at h
  obtain ⟨j, hj, rfl⟩ := h
  obtain ⟨-, rfl⟩ : m / 8 < (bits.length + 7) / 8 ∧ m / 8 = j := by simpa [List.getElem?_eq_some_iff] using hj
  rw [BitVec.getLsbD_ofNat, Nat.testBit_div_two_pow, Nat.mod_add_div, testBit_bitsValue, decide_eq_true (by omega),
    Bool.true_and]

theorem length_packBits (bits : List Bool) : (packBits bits).length = (bits.length + 7) / 8 := by simp [packBits]

end Sys2Proof.Machine

namespace Sys2Proof.Proofs

open Sys2Proof.Machine

/-- Settles O37: the bytes are the packed bits, and the flush pushes the last of them if it is not whole. -/
theorem flushedBitsArePacked : Obligations.FlushedBitsArePacked := fun _ bits hw hio =>
  ⟨packBits bits, length_packBits bits, fun _ _ => getLsbD_of_packBits, pushBits_bitFlush_of_empty hw hio bits⟩

/-- Settles O38: `BCLOSE` has no check, and its body is `BitFlush`. -/
theorem bcloseFlushesOnce : Obligations.BcloseFlushesOnce := by
  refine ⟨by decide, fun s herr => ⟨fun hcur => ?_, fun hcur hdraw => ?_, fun hcur hdraw => ?_⟩⟩ <;> rw [exec_bclose]
  · exact issue_done herr rfl rfl (bitFlush_of_empty hcur)
  · rw [issue_done herr rfl rfl (bitFlush_of_success hcur hdraw), State.pushAll, List.length_singleton, List.drop_one]
    rfl
  · exact ⟨_, issue_raised herr rfl rfl (bitFlush_of_error hcur hdraw), rfl, rfl, rfl, rfl⟩

end Sys2Proof.Proofs
end
section
/-! SUPPORT. What the writer's commands leave unchanged, and how many bytes they store (spec/43_bit_writer.md R85, R88, R89,
spec/44_encoder.md R98): O57. -/

namespace Sys2Proof.Machine

/-! ### How many bytes are pushed -/

/-- The number of bits pushed or pending. -/
def State.bitsWritten (s : State) : Nat := 8 * s.out.length + s.bw.cur.toNat

/-- The body writes `n` bits, or raises a fault with no more whole bytes in `OUT` than these complete. -/
def WritesBits (n : Nat) (body : State → Body) : Prop :=
  ∀ s, (body s).Ends (fun t => t.bitsWritten = s.bitsWritten + n) fun _ t => 8 * t.out.length ≤ s.bitsWritten + n

/-- What holds however the body ends holds of its final state. -/
theorem Body.Ends.final {P R : State → Prop} {Q : ErrCode → State → Prop} {b : Body} (h : b.Ends P Q)
    (hP : ∀ t, P t → R t) (hQ : ∀ e t, Q e t → R t) : R b.final := by
  cases b with
  | done t => exact hP t h
  | raised e t => exact hQ e t h

theorem WritesBits.andThen {m n : Nat} {j k : State → Body} (hj : WritesBits m j) (hk : WritesBits n k) :
    WritesBits (m + n) fun s => (j s).andThen k := by
  intro s
  refine ((hj s).weaken (fun _ h => h) fun _ t ht => ht.trans (by omega)).andThen fun t ht => ?_
  rw [← Nat.add_assoc, ← ht]
  exact hk t

/-- One bit is pending, or completes the byte that is pushed (R85). -/
theorem writesBits_pushBit (b : Bool) : WritesBits 1 (pushBit b) := by
  intro s
  by_cases hc : s.bw.cur = 7#3
  · rw [pushBit_of_cur_eq b s hc]
    obtain ⟨-, e⟩ | ⟨-, e⟩ := outByte_cases (putBit s.bw.buf 7#3 b) s <;> rw [e]
    · exact (Nat.le_add_right _ _).trans (Nat.le_add_right _ _)
    · simp [Body.Ends, State.bitsWritten, hc, Nat.mul_add]
  · rw [pushBit_of_cur_lt b s hc]
    have hcur : (s.bw.cur + 1#3).toNat = s.bw.cur.toNat + 1 := by bv_omega
    exact congrArg (8 * s.out.length + ·) hcur

theorem writesBits_pushBits (bits : List Bool) : WritesBits bits.length (pushBits bits) := by
  induction bits with
  | nil => exact fun s => rfl
  | cons b bits ih =>
    rw [List.length_cons, Nat.add_comm]
    exact (writesBits_pushBit b).andThen ih

/-- `n` bits complete (BWCUR + n) / 8 bytes, and at most these are pushed, whichever way the body ends (R86). -/
theorem WritesBits.length_out_le {n : Nat} {body : State → Body} (h : WritesBits n body) (s : State) :
    (body s).final.out.length ≤ s.out.length + (s.bw.cur.toNat + n) / 8 := by
  refine (h s).final (R := fun t => t.out.length ≤ _) (fun t ht => ?_) fun _ t ht => ?_ <;>
    simp only [State.bitsWritten] at ht <;> omega

theorem length_out_bitAppend_le (pat : Pattern) (n : Nat) (s : State) :
    (bitAppend pat n s).final.out.length ≤ s.out.length + (s.bw.cur.toNat + n) / 8 := by
  have h := (writesBits_pushBits (patternBits pat n)).length_out_le s
  rwa [patternBits_length] at h

/-- `BitFlush` does nothing, or it pushes one byte, or its push errs (R87). -/
theorem bitFlush_cases (s : State) :
    (s.bw.cur = 0#3 ∧ bitFlush s = .done s) ∨
      (s.bw.cur ≠ 0#3 ∧ bitFlush s = .done ((s.pushAll [s.bw.buf]).setWriter 0#8 0#3)) ∨
      (s.bw.cur ≠ 0#3 ∧ bitFlush s = .raised .io s.dropDraw) := by
  by_cases hcur : s.bw.cur = 0#3
  · exact .inl ⟨hcur, bitFlush_of_empty hcur⟩
  · cases hdraw : s.nextDraw with
    | false => exact .inr (.inl ⟨hcur, bitFlush_of_success hcur hdraw⟩)
    | true => exact .inr (.inr ⟨hcur, bitFlush_of_error hcur hdraw⟩)

theorem icur_bitFlush (s : State) : (bitFlush s).final.icur = s.icur := by
  obtain ⟨-, e⟩ | ⟨-, e⟩ | ⟨-, e⟩ := bitFlush_cases s <;> rw [e] <;> rfl

theorem length_out_bitFlush_le (s : State) :
    (bitFlush s).final.out.length ≤ s.out.length + if s.bw.cur = 0#3 then 0 else 1 := by
  obtain ⟨hcur, e⟩ | ⟨hcur, e⟩ | ⟨hcur, e⟩ := bitFlush_cases s <;> simp [e, hcur]

/-! ### The frame -/

/-- All but the writer, `OUT`, `OLEN`, the environment's answers and the model's counter is as before, without a fault the
fault registers and the counter too, and at most `stored` bytes are appended to `OUT`. -/
structure WriterKeeps (s : State) (stored : Nat) (t : State) : Prop where
  icur : t.icur = s.icur
  freq : t.freq = s.freq
  tree : t.tree = s.tree
  tvalid : t.tvalid = s.tvalid
  code : t.code = s.code
  cvalid : t.cvalid = s.cvalid
  input : t.input = s.input
  pending : t.pending = s.pending
  replies : t.replies = s.replies
  noFault : t.err = .none → t.errinfo = s.errinfo ∧ t.free = s.free
  out : s.out <+: t.out
  length : t.out.length ≤ s.out.length + stored

theorem StreamsOnly.writerKeeps {s t : State} {stored : Nat} (h : StreamsOnly s t) (hicur : t.icur = s.icur)
    (hlen : t.out.length ≤ s.out.length + stored) : WriterKeeps s stored t :=
  { h with icur := hicur, noFault := fun _ => ⟨h.errinfo, h.free⟩, length := hlen }

theorem WriterKeeps.recordFault {s t : State} {stored : Nat} (h : WriterKeeps s stored t) {e : ErrCode} (he : e ≠ .none)
    (w : Word) : WriterKeeps s stored (t.recordFault e w) :=
  { h with noFault := fun hnone => absurd hnone he }

theorem WriterKeeps.recordInner {s t : State} {stored : Nat} (h : WriterKeeps s stored t) {e : ErrCode} (he : e ≠ .none)
    (w : Word) : WriterKeeps s stored (t.recordInner e w) :=
  { h with noFault := fun hnone => absurd hnone he }

/-- A command keeps it if its body does, whichever way that ends: recording a fault keeps it too (R107, R108). -/
theorem writerKeeps_of_exec {i : Instr} {s t : State} {stored : Nat} (h : exec i s = .next t)
    (hbody : WriterKeeps s stored (bodyOf i s).final) : WriterKeeps s stored t :=
  exec_keeps h ((StreamsOnly.rfl' s).writerKeeps rfl (Nat.le_add_right _ _)) hbody
    (fun _ _ w he hm => hm.recordFault he w) fun _ _ w he hm => hm.recordInner he w

theorem writerKeeps_bitAppend (pat : Pattern) (n : Nat) (s : State) :
    WriterKeeps s ((s.bw.cur.toNat + n) / 8) (bitAppend pat n s).final :=
  (streamsOnly_bitAppend pat n s).writerKeeps (icur_pushBits _ s) (length_out_bitAppend_le pat n s)

theorem writerKeeps_bitFlush (s : State) : WriterKeeps s (if s.bw.cur = 0#3 then 0 else 1) (bitFlush s).final :=
  (streamsOnly_bitFlush s).writerKeeps (icur_bitFlush s) (length_out_bitFlush_le s)

/-- Bytes below |OUT| and past the stored ones read as before. -/
theorem WriterKeeps.outAt_eq {s t : State} {stored a : Nat} (h : WriterKeeps s stored t)
    (ha : a < s.out.length ∨ s.out.length + stored ≤ a) : outAt t a = outAt s a := by
  obtain hbelow | hpast := ha
  · obtain ⟨bs, hbs⟩ := h.out
    rw [outAt, outAt, ← hbs, List.getElem?_append_left hbelow]
  · rw [outAt, outAt, List.getElem?_eq_none (h.length.trans hpast), List.getElem?_eq_none (by omega)]

end Sys2Proof.Machine

namespace Sys2Proof.Proofs

open Sys2Proof.Machine

/-- Settles O57: the bodies of the three commands are `BitAppend` and `BitFlush`, which push the bytes that the bits
complete and change nothing but the writer and `OUT`. -/
theorem writerFrame : Obligations.WriterFrame := by
  intro i s t stored h hi
  have hkeeps : WriterKeeps s stored t := by
    refine writerKeeps_of_exec h ?_
    obtain ⟨pat, n, rfl, rfl⟩ | ⟨rfl, rfl⟩ | ⟨y, rfl, rfl⟩ := hi
    · exact writerKeeps_bitAppend _ _ s
    · exact writerKeeps_bitFlush s
    · exact writerKeeps_bitAppend _ _ s
  exact ⟨hkeeps.icur, hkeeps.freq, hkeeps.tree, hkeeps.tvalid, hkeeps.code, hkeeps.cvalid, hkeeps.input, hkeeps.pending,
    hkeeps.replies, hkeeps.noFault, fun _ => hkeeps.outAt_eq⟩

end Sys2Proof.Proofs
end
section
/-! SUPPORT. `HDR` and `EMIT` (spec/44_encoder.md R95, R98), and `PAYLOAD` where every byte has a code, and at the first
that has none (R99): O39, O41, O42 and O43. -/

namespace Sys2Proof.Machine

/-! ### The checks -/

theorem needEmptyWriter_of_empty {s : State} (h : s.bw.cur = 0#3) : needEmptyWriter s = none := by
  simp [needEmptyWriter, h]

theorem needCodes_of_cvalid {s : State} (h : s.cvalid = true) : needCodes s = none := by simp [needCodes, h]

/-- With a valid table `EMIT` looks its symbol up and checks nothing else (R98). -/
theorem emit_guard {s : State} (hc : s.cvalid = true) (y : Byte) :
    bothGuards needCodes (needCodeOf y) s = if (codeAt s.code y).valid then none else some .noCode := by
  simp [bothGuards, needCodes_of_cvalid hc, needCodeOf]

/-! ### The words -/

theorem encode_emit (y : Byte) : encode (.emit y) = 0x0900000000000000#64 ||| y.setWidth 64 <<< 48 := by
  rw [encode, cmdWord_eq_or]
  simp

/-! ### HDR -/

theorem length_magicBytes : magicBytes.length = 8 := by simp [magicBytes]

/-! ### PAYLOAD -/

/-- A byte without a code: `NOCODE` after its read (R99). -/
theorem payloadByte_of_uncoded {s : State} {b : Byte} (h : (codeAt s.code b).valid = false) :
    payloadByte b s = .raised .noCode s := by simp [payloadByte, h]

/-- The codes of the bytes from the cursor to the end, where no access draws an error (R99). -/
theorem payloadBody_of_allCoded {s : State} (hlen : s.input.length < 2 ^ 64) (hclean : s.writerClean) (hio : s.noIoErrors)
    (hcoded : allCoded s.code s.remaining) :
    payloadBody s = .done ((s.acceptBits (codeString s.code s.remaining)).readAll s.remaining.length) := by
  rw [payloadBody_eq_overBytes hlen]
  exact overBytes_payloadByte hclean hcoded (drawsSucceed_of_noIoErrors hio _)

/-- The bytes before the first without a code are sent, and that byte is read (R99). -/
theorem payloadBody_of_uncoded {s : State} {pre post : List Byte} {b : Byte} (hlen : s.input.length < 2 ^ 64)
    (hclean : s.writerClean) (hio : s.noIoErrors) (hrem : s.remaining = pre ++ b :: post) (hcoded : allCoded s.code pre)
    (hb : (codeAt s.code b).valid = false) :
    payloadBody s = .raised .noCode ((s.acceptBits (codeString s.code pre)).readAll (pre.length + 1)) := by
  have hdraws := drawsSucceed_of_noIoErrors hio (pre.length + s.bw.filled (codeString s.code pre) / 8 + 1)
  have hpre := overBytes_payloadByte hclean hcoded (hdraws.mono (Nat.le_succ _))
  have hread : ((s.acceptBits (codeString s.code pre)).readAll pre.length).nextDraw = false :=
    (hdraws.drop (by simp [Nat.add_comm])).nextDraw Nat.one_pos
  rw [payloadBody_eq_overBytes hlen, hrem]
  refine overBytes_of_body_raised hpre hread ?_
  rw [readAll_readAll]
  exact payloadByte_of_uncoded hb

end Sys2Proof.Machine

namespace Sys2Proof.Proofs

open Sys2Proof.Machine

/-- Settles O39: `HDR` checks the writer, and its body is one `OutByte` of the eight bytes. -/
theorem hdrWritesTheMagic : Obligations.HdrWritesTheMagic := by
  refine ⟨by decide, ?_⟩
  intro s herr magic
  refine ⟨fun hcur => ?_, fun hcur hio => ?_, fun k rest hcur hio hk => ?_⟩
  · exact exec_guarded (i := .hdr) herr rfl (needEmptyWriter_of_pending hcur)
  · have hbody : hdrBody s = .done (s.pushAll magic) :=
      outBytes_of_no_error magicBytes s (drawsSucceed_of_noIoErrors hio _)
    exact issue_done herr rfl (needEmptyWriter_of_empty hcur) hbody
  · have hbody : hdrBody s = .raised .io (s.pushAll (magic.take k)).dropDraw :=
      outBytes_of_error magicBytes s k rest hio (length_magicBytes.symm ▸ hk)
    have hlen : (magic.take k).length = k := List.length_take_of_le hk.le
    exact ⟨_, issue_raised herr rfl (needEmptyWriter_of_empty hcur) hbody, rfl, rfl, rfl, by simp [hlen]⟩

/-- Settles O41: `EMIT`'s check looks the symbol up, and its body is `BitAppend` of the entry. -/
theorem emitSendsOneCode : Obligations.EmitSendsOneCode := by
  intro s y herr hc
  have hguard := emit_guard hc y
  rw [exec_emit, ← encode_emit]
  refine ⟨fun hvalid hclean hio => ?_, fun k rest hvalid hclean hio hk => ?_, fun hvalid => ?_⟩ <;>
    simp only [hvalid, if_true, Bool.false_eq_true, if_false] at hguard
  · exact issue_done herr rfl hguard (bitAppend_of_success hclean hio _ _)
  · obtain ⟨t, hbody, hout, holen⟩ := bitAppend_of_error hclean (codeAt s.code y).pat hio hk
    have hkeeps := writerKeeps_bitAppend (codeAt s.code y).pat (codeAt s.code y).len.toNat s
    rw [hbody] at hkeeps
    exact ⟨_, issue_raised herr rfl hguard hbody, rfl, rfl, hout, holen, hkeeps.icur, hkeeps.tvalid, hkeeps.cvalid⟩
  · exact issue_guarded herr rfl hguard

/-- Settles O42: the loop reads every byte from the cursor on, and the bit writer accepts their codes as one list of bits. -/
theorem payloadSendsAllCodes : Obligations.PayloadSendsAllCodes := by
  intro s herr hcv hlen hcur hclean hio hcoded
  have hbody := payloadBody_of_allCoded hlen hclean hio hcoded
  rw [exec_payload, issue_done herr rfl (needCodes_of_cvalid hcv) hbody, ← icur_readAll_remaining hlen hcur, Nat.add_comm,
    ← List.drop_drop]
  rfl

/-- Settles O43: the bytes of `pre` are read and their codes accepted; then `b` is read and looked up. -/
theorem payloadStopsAtByteWithoutCode : Obligations.PayloadStopsAtByteWithoutCode := by
  intro s pre post b herr hcv hlen hcur hclean hio hrem hcoded hb
  have hbody := payloadBody_of_uncoded hlen hclean hio hrem hcoded hb
  have hcount : pre.length + 1 ≤ s.remaining.length := by
    rw [hrem, List.length_append, List.length_cons]
    omega
  rw [exec_payload]
  refine ⟨_, issue_raised herr rfl (needCodes_of_cvalid hcv) hbody, rfl, rfl, ?_, rfl, rfl, rfl, rfl, rfl, rfl, rfl⟩
  exact toNat_icur_readAll hlen hcount

end Sys2Proof.Proofs
end
section
/-! SUPPORT. What `HDR`, `TSER`, `PAYLOAD` and `ENCODE` leave unchanged, and how many bytes they store (spec/44_encoder.md R95,
R96, R99, R100): O58 and O59. -/

namespace Sys2Proof.Machine

/-! ### HDR and TSER -/

/-- Only `OUT`, `OLEN` and the used-up draws differ, and `OUT` only grows: the cursor and the writer are as before, too. -/
structure PushesOnly (s t : State) : Prop where
  streams : StreamsOnly s t
  icur : t.icur = s.icur
  bw : t.bw = s.bw

theorem PushesOnly.rfl' (s : State) : PushesOnly s s := ⟨.rfl' s, rfl, rfl⟩

theorem PushesOnly.trans (a b c : State) (h : PushesOnly a b) (k : PushesOnly b c) : PushesOnly a c :=
  ⟨.trans _ _ _ h.streams k.streams, k.icur.trans h.icur, k.bw.trans h.bw⟩

theorem pushesOnly_outBytes (bs : List Byte) (s : State) : PushesOnly s (outBytes bs s).final := by
  have hstreams := streamsOnly_outBytes bs s
  obtain e | ⟨k, -, e⟩ := outBytes_cases bs s <;> rw [e] at hstreams ⊢ <;> exact ⟨hstreams, rfl, rfl⟩

theorem pushesOnly_serNodes (depth i : Nat) (s : State) : PushesOnly s (serNodes depth i s).final := by
  induction depth generalizing i s with
  | zero => exact .rfl' s
  | succ d ih =>
    unfold serNodes
    dsimp only
    split
    · exact pushesOnly_outBytes _ s
    · split
      · exact Body.final_andThen _ PushesOnly.trans
          (Body.final_andThen _ PushesOnly.trans (pushesOnly_outBytes _ s) fun m => ih _ m) fun m => ih _ m
      · exact .rfl' s

theorem pushesOnly_tserBody (s : State) : PushesOnly s (tserBody s).final := by
  refine Body.final_andThen _ PushesOnly.trans ?_ (pushesOnly_outBytes _)
  unfold serTree
  split
  · exact .rfl' s
  · exact pushesOnly_serNodes _ _ s

/-- What `OutByte` of a list appends is no longer than the list. -/
theorem length_out_outBytes_le (bs : List Byte) (s : State) :
    (outBytes bs s).final.out.length ≤ s.out.length + bs.length := by
  obtain e | ⟨k, -, e⟩ := outBytes_cases bs s <;> rw [e]
  · simp
  · simp [List.length_take]

/-- The frame of `HDR` and `TSER`: that of the writer's commands, and without a fault the writer is as before, too. -/
structure PushKeeps (s : State) (stored : Nat) (t : State) : Prop where
  keeps : WriterKeeps s stored t
  bw : t.err = .none → t.bw = s.bw

theorem PushesOnly.pushKeeps {s t : State} {stored : Nat} (h : PushesOnly s t)
    (hlen : t.out.length ≤ s.out.length + stored) : PushKeeps s stored t :=
  ⟨h.streams.writerKeeps h.icur hlen, fun _ => h.bw⟩

/-- A command keeps it if its body does: without a fault the body is done, and a fault is recorded over it (R107, R108). -/
theorem pushKeeps_of_exec {i : Instr} {s t : State} {stored : Nat} (h : exec i s = .next t)
    (hbody : PushesOnly s (bodyOf i s).final) (hlen : (bodyOf i s).final.out.length ≤ s.out.length + stored) :
    PushKeeps s stored t :=
  exec_keeps h ((PushesOnly.rfl' s).pushKeeps (Nat.le_add_right _ _)) (hbody.pushKeeps hlen)
    (fun _ _ w he hm => ⟨hm.keeps.recordFault he w, fun hnone => absurd hnone he⟩)
    fun _ _ w he hm => ⟨hm.keeps.recordInner he w, fun hnone => absurd hnone he⟩

/-! ### PAYLOAD -/

/-- With the code table `c`, the body writes `n` bits and leaves the table, or raises a fault with no more whole bytes in `OUT`
than these bits complete. -/
def WritesCodes (c : Vector CodeEntry 256) (n : Nat) (body : State → Body) : Prop :=
  ∀ s, s.code = c → (body s).Ends (fun t => t.bitsWritten = s.bitsWritten + n ∧ t.code = c)
    fun _ t => 8 * t.out.length ≤ s.bitsWritten + n

theorem WritesCodes.andThen {c : Vector CodeEntry 256} {m n : Nat} {j k : State → Body} (hj : WritesCodes c m j)
    (hk : WritesCodes c n k) : WritesCodes c (m + n) fun s => (j s).andThen k := by
  intro s hs
  refine ((hj s hs).weaken (fun _ h => h) fun _ t ht => ht.trans (by omega)).andThen fun t ⟨ht, hcode⟩ => ?_
  rw [← Nat.add_assoc, ← ht]
  exact hk t hcode

theorem writesCodes_inRead (c : Vector CodeEntry 256) : WritesCodes c 0 inRead := by
  intro s hs
  obtain ⟨-, e⟩ | ⟨-, e⟩ := inRead_cases s <;> rw [e]
  · exact Nat.le_add_right _ _
  · exact ⟨rfl, hs⟩

/-- A byte writes the bits of its code, or none where it has no code (R99). -/
theorem writesCodes_payloadByte (c : Vector CodeEntry 256) (b : Byte) :
    WritesCodes c (codeString c [b]).length (payloadByte b) := by
  rintro s rfl
  by_cases hb : (codeAt s.code b).valid = true
  · have hcode : (pushBits (codeString s.code [b]) s).final.code = s.code := (streamsOnly_pushBits _ s).code
    rw [payloadByte_of_coded hb]
    exact (writesBits_pushBits _ s).and (Body.ends_of_final (P := fun t => t.code = s.code) hcode)
  · rw [payloadByte_of_uncoded (Bool.not_eq_true _ ▸ hb)]
    exact (Nat.le_add_right _ _).trans (Nat.le_add_right _ _)

theorem writesCodes_overBytes (c : Vector CodeEntry 256) (bs : List Byte) :
    WritesCodes c (codeString c bs).length (overBytes payloadByte bs) := by
  induction bs with
  | nil => exact fun s hs => ⟨rfl, hs⟩
  | cons b bs ih =>
    rw [← List.singleton_append, codeString_append, List.length_append, ← Nat.zero_add (_ + _)]
    exact (writesCodes_inRead c).andThen ((writesCodes_payloadByte c b).andThen ih)

theorem length_out_payloadBody_le {s : State} (hlen : s.input.length < 2 ^ 64) :
    (payloadBody s).final.out.length ≤
      s.out.length + (s.bw.cur.toNat + (codeString s.code s.remaining).length) / 8 := by
  rw [payloadBody_eq_overBytes hlen]
  refine (writesCodes_overBytes s.code s.remaining s rfl).final (R := fun t => t.out.length ≤ _) (fun t ⟨ht, _⟩ => ?_)
    fun _ t ht => ?_ <;> simp only [State.bitsWritten] at ht <;> omega

/-- `StreamsOnly` says nothing of the cursor. -/
theorem StreamsOnly.withCursor {s t : State} (h : StreamsOnly s t) (c : Word) : StreamsOnly { s with icur := c } t :=
  ⟨h.freq, h.tree, h.tvalid, h.code, h.cvalid, h.err, h.errinfo, h.input, h.pending, h.replies, h.free, h.out⟩

/-- The frame of `PAYLOAD` is that of the writer's commands but for the cursor (R99, R108). -/
theorem writerKeeps_of_exec_payload {s t : State} (h : exec .payload s = .next t) (hlen : s.input.length < 2 ^ 64) :
    ∃ c, WriterKeeps { s with icur := c }
      ((s.bw.cur.toNat + (codeString s.code s.remaining).length) / 8) t := by
  refine exec_keeps (P := fun t => ∃ c, WriterKeeps { s with icur := c } _ t) h
    ⟨s.icur, (StreamsOnly.rfl' s).writerKeeps rfl (Nat.le_add_right _ _)⟩
    ⟨(payloadBody s).final.icur, ?_⟩ (fun _ _ w he ⟨c, hm⟩ => ⟨c, hm.recordFault he w⟩)
    fun _ _ w he ⟨c, hm⟩ => ⟨c, hm.recordInner he w⟩
  exact ((streamsOnly_payloadBody s).withCursor _).writerKeeps rfl (length_out_payloadBody_le hlen)

/-! ### ENCODE -/

/-- The host's queues, the recorded command word and the model's counter are as before: what every body leaves, for only
`issue` records a fault. -/
structure LeavesHost (s t : State) : Prop where
  pending : t.pending = s.pending
  replies : t.replies = s.replies
  errinfo : t.errinfo = s.errinfo
  free : t.free = s.free

theorem LeavesHost.trans (a b c : State) (h : LeavesHost a b) (k : LeavesHost b c) : LeavesHost a c :=
  ⟨k.pending.trans h.pending, k.replies.trans h.replies, k.errinfo.trans h.errinfo, k.free.trans h.free⟩

theorem LeavesHost.andThen {s : State} {b : Body} {k : State → Body} (hb : LeavesHost s b.final)
    (hk : ∀ m, LeavesHost m (k m).final) : LeavesHost s (b.andThen k).final :=
  Body.final_andThen LeavesHost LeavesHost.trans hb hk

theorem StreamsOnly.leavesHost {s t : State} (h : StreamsOnly s t) : LeavesHost s t :=
  ⟨h.pending, h.replies, h.errinfo, h.free⟩

theorem leavesHost_countBody (s : State) : LeavesHost s (countBody s).final :=
  have h := countsOnly_countBody s
  ⟨h.pending, h.replies, h.errinfo, h.free⟩

theorem leavesHost_tbuildBody (s : State) : LeavesHost s (tbuildBody s).final := by
  obtain ⟨t, e⟩ | ⟨t, e⟩ := tbuildBody_cases s <;> rw [e] <;> exact ⟨rfl, rfl, rfl, rfl⟩

theorem leavesHost_cgenBody (s : State) : LeavesHost s (cgenBody s).final := by
  obtain ⟨c, v, e⟩ := cgenBody_final s
  rw [e]
  exact ⟨rfl, rfl, rfl, rfl⟩

theorem leavesHost_encodeBody (s : State) : LeavesHost s (encodeBody s).final := by
  have coded := (((streamsOnly_rewindBody s).leavesHost.andThen leavesHost_countBody).andThen
    leavesHost_tbuildBody).andThen leavesHost_cgenBody
  have written := (coded.andThen fun m => (streamsOnly_hdrBody m).leavesHost).andThen
    fun m => (streamsOnly_tserBody m).leavesHost
  exact ((written.andThen fun m => (streamsOnly_rewindBody m).leavesHost).andThen
    fun m => (streamsOnly_payloadBody m).leavesHost).andThen fun m => (streamsOnly_bitFlush m).leavesHost

/-- The host's queues are as before, and without a fault `ERRINFO` and the model's counter are, too. -/
structure HostKeeps (s t : State) : Prop where
  pending : t.pending = s.pending
  replies : t.replies = s.replies
  noFault : t.err = .none → t.errinfo = s.errinfo ∧ t.free = s.free

theorem LeavesHost.hostKeeps {s t : State} (h : LeavesHost s t) : HostKeeps s t :=
  ⟨h.pending, h.replies, fun _ => ⟨h.errinfo, h.free⟩⟩

theorem hostKeeps_of_exec_encode {s t : State} (h : exec .encode s = .next t) : HostKeeps s t :=
  exec_keeps h ⟨rfl, rfl, fun _ => ⟨rfl, rfl⟩⟩ (leavesHost_encodeBody s).hostKeeps
    (fun _ _ _ he hm => ⟨hm.pending, hm.replies, fun hnone => absurd hnone he⟩)
    fun _ _ _ he hm => ⟨hm.pending, hm.replies, fun hnone => absurd hnone he⟩

/-- Where `OUT` is only extended, every byte below |OUT| reads as before. -/
theorem OutExtends.outAt_eq {s t : State} (h : OutExtends s t) {a : Nat} (ha : a < s.out.length) :
    outAt t a = outAt s a := by
  obtain ⟨bs, hbs⟩ := h.out
  rw [outAt, outAt, ← hbs, List.getElem?_append_left ha]

end Sys2Proof.Machine

namespace Sys2Proof.Proofs

open Sys2Proof.Machine

/-- Settles O58: both bodies only push bytes, `HDR` eight of them, and `TSER` on a sound tree those of the tree. -/
theorem headerAndTreeFrame : Obligations.HeaderAndTreeFrame := by
  intro i s t h hi
  have hbody : PushesOnly s (bodyOf i s).final := by
    obtain rfl | rfl := hi
    · exact pushesOnly_outBytes magicBytes s
    · exact pushesOnly_tserBody s
  obtain ⟨hkeeps, hbw⟩ := pushKeeps_of_exec h hbody (Nat.le_add_left _ _)
  refine ⟨hkeeps.icur, hkeeps.freq, hkeeps.tree, hkeeps.tvalid, hkeeps.code, hkeeps.cvalid, hkeeps.input, hkeeps.pending,
    hkeeps.replies, fun herr => ⟨hbw herr, hkeeps.noFault herr⟩, fun a ha => hkeeps.outAt_eq (.inl ha), ?_, ?_⟩
  · rintro rfl a ha
    exact (pushKeeps_of_exec h hbody (length_magicBytes ▸ length_out_outBytes_le magicBytes s)).keeps.outAt_eq (.inr ha)
  · rintro rfl hsound a ha
    have hlen := length_out_outBytes_le (treeBytes s.tree) s
    rw [← tserBody_of_sound hsound] at hlen
    exact (pushKeeps_of_exec h hbody hlen).keeps.outAt_eq (.inr ha)

/-- Settles O59: `PAYLOAD` writes the bits of the codes from the cursor on, or stops before; `ENCODE` extends `OUT`. -/
theorem payloadAndEncodeFrame : Obligations.PayloadAndEncodeFrame := by
  refine ⟨fun s t h hlen => ?_, fun s t h => ?_⟩
  · obtain ⟨c, hkeeps⟩ := writerKeeps_of_exec_payload h hlen
    exact ⟨hkeeps.freq, hkeeps.tree, hkeeps.tvalid, hkeeps.code, hkeeps.cvalid, hkeeps.input, hkeeps.pending,
      hkeeps.replies, hkeeps.noFault, fun _ => hkeeps.outAt_eq⟩
  · have hkeeps := hostKeeps_of_exec_encode h
    have hext := exec_outExtends h
    exact ⟨hext.input, hkeeps.pending, hkeeps.replies, hkeeps.noFault, fun _ => hext.outAt_eq⟩

end Sys2Proof.Proofs
end
section
/-! SUPPORT. `ENCODE` is its nine commands one after another (spec/44_encoder.md R100): each of them passes its checks where
the one before it ended, and after a fault the core refuses the rest (R108, R110). O44. -/

namespace Sys2Proof.Machine

/-! ### Several commands and their bodies -/

/-- The bodies of some commands, stopping at the first fault. -/
def bodiesOf : List Instr → State → Body
  | [], s => .done s
  | i :: is, s => (bodyOf i s).andThen (bodiesOf is)

/-- Each of the commands passes its checks in the state in which the bodies before it end. -/
def ChecksPass : List Instr → State → Prop
  | [], _ => True
  | i :: is, s => guardOf i s = none ∧ (bodyOf i s).Ends (ChecksPass is) fun _ _ => True

/-- What a command whose body ends so leaves, if its word is `w`. -/
def Body.recorded (w : Word) : Body → State
  | .done t => t
  | .raised e t => t.recordInner e w

/-- A command that passes its checks leaves what its body does, with a fault recorded under its own word (R54, R107). -/
theorem exec_eq_recorded {i : Instr} {s : State} (herr : s.err = .none) (hwf : i.wellFormed = true)
    (hg : guardOf i s = none) : exec i s = .next ((bodyOf i s).recorded (encode i)) := by
  rw [exec_eq_issue]
  cases hbody : bodyOf i s with
  | done t => exact issue_done herr hwf hg hbody
  | raised e t => exact issue_raised herr hwf hg hbody

theorem execAll_of_faulted (is : List Instr) {s : State} (herr : s.err ≠ .none) : execAll is s = .next s := by
  induction is with
  | nil => rfl
  | cons i is ih =>
    rw [execAll, exec_eq_issue, issue_refused herr]
    exact ih

/-- Commands that pass their checks one after another leave what their bodies do, but for the word of a fault. -/
theorem execAll_eq_recorded {is : List Instr} {s : State} (herr : s.err = .none) (hwf : ∀ i ∈ is, i.wellFormed = true)
    (hpass : ChecksPass is s) (w : Word) :
    ∃ t, execAll is s = .next t ∧
      (bodiesOf is s).recorded w = if t.err = .none then t else { t with errinfo := w } := by
  induction is generalizing s with
  | nil => exact ⟨s, rfl, (if_pos herr).symm⟩
  | cons i is ih =>
    obtain ⟨hg, hrest⟩ := hpass
    obtain ⟨hwfi, hwfs⟩ := List.forall_mem_cons.mp hwf
    rw [execAll, exec_eq_recorded herr hwfi hg, bodiesOf]
    cases hbody : bodyOf i s with
    | done m =>
      rw [hbody] at hrest
      exact ih ((bodyOf_done_err hbody).trans herr) hwfs hrest
    | raised e m =>
      have he : (m.recordInner e (encode i)).err ≠ .none := fun hnone =>
        none_not_mem_bodyFaults i (hnone ▸ bodyOf_raised_mem hbody)
      exact ⟨_, execAll_of_faulted is he, (if_neg he).symm⟩

/-! ### The checks of the nine commands -/

theorem encodeBody_eq_bodiesOf (s : State) : encodeBody s = bodiesOf encodeSteps s := by
  simp only [encodeBody, encodeSteps, bodiesOf, bodyOf, Body.andThen_assoc, Body.andThen_done_right]

/-- The first command passes its checks, and where its body ends the others do. -/
theorem checksPass_cons {i : Instr} {is : List Instr} {s : State} {P : State → Prop} (hg : guardOf i s = none)
    (hbody : ∀ t, bodyOf i s = .done t → P t) (hrest : ∀ t, P t → ChecksPass is t) : ChecksPass (i :: is) s := by
  refine ⟨hg, ?_⟩
  cases hend : bodyOf i s with
  | done t => exact hrest t (hbody t hend)
  | raised e t => trivial

/-- What the commands from `HDR` on check: an empty writer, a tree and a code table (R54). -/
structure ReadyToSend (s : State) : Prop where
  writer : s.bw.cur = 0#3
  tree : s.tvalid = true
  codes : s.cvalid = true

theorem ReadyToSend.of_pushesOnly {s t : State} (h : ReadyToSend s) (hpush : PushesOnly s t) : ReadyToSend t :=
  ⟨hpush.bw ▸ h.writer, hpush.streams.tvalid ▸ h.tree, hpush.streams.cvalid ▸ h.codes⟩

theorem Body.final_of_eq_done {b : Body} {t : State} (h : b = .done t) : b.final = t := h ▸ rfl

theorem cur_of_countBody_eq_done {s t : State} (h : countBody s = .done t) : t.bw.cur = s.bw.cur := by
  rw [← Body.final_of_eq_done h, (countsOnly_countBody s).bw]
  rfl

theorem of_tbuildBody_eq_done {s t : State} (h : tbuildBody s = .done t) : t.bw.cur = s.bw.cur ∧ t.tvalid = true := by
  obtain ⟨tree, e⟩ | ⟨tree, e⟩ := tbuildBody_cases s <;> rw [e] at h <;> cases h
  exact ⟨rfl, rfl⟩

theorem readyToSend_of_cgenBody_eq_done {s t : State} (hw : s.bw.cur = 0#3) (ht : s.tvalid = true)
    (h : cgenBody s = .done t) : ReadyToSend t := by
  obtain ⟨table, v, e⟩ := cgenBody_final s
  have hcv : t.cvalid = true := by
    obtain ⟨m, -, hm⟩ := Body.andThen_eq_done.mp h
    cases hm
    rfl
  rw [Body.final_of_eq_done h] at e
  subst e
  exact ⟨hw, ht, hcv⟩

theorem checksPass_fileCommands {s : State} (h : ReadyToSend s) : ChecksPass fileCommands s := by
  refine checksPass_cons (P := ReadyToSend) (needEmptyWriter_of_empty h.writer) (fun t ht => ?_) fun m hm => ?_
  · exact h.of_pushesOnly (Body.final_of_eq_done ht ▸ pushesOnly_outBytes magicBytes s)
  refine checksPass_cons (P := ReadyToSend) (tser_guard hm.tree hm.writer) (fun t ht => ?_) fun m hm => ?_
  · exact hm.of_pushesOnly (Body.final_of_eq_done ht ▸ pushesOnly_tserBody m)
  refine checksPass_cons (P := ReadyToSend) rfl (fun t ht => ?_) fun m hm => ?_
  · cases ht
    exact ⟨hm.writer, hm.tree, hm.codes⟩
  exact checksPass_cons (P := fun _ => True) (needCodes_of_cvalid hm.codes) (fun _ _ => trivial) fun m _ =>
    checksPass_cons (P := fun _ => True) rfl (fun _ _ => trivial) fun _ _ => trivial

/-- From an empty writer each of the nine commands passes its checks: `TBUILD` sets `TVALID`, `CGEN` sets `CVALID`, and none
before `PAYLOAD` touches the writer (R100). -/
theorem checksPass_encodeSteps {s : State} (h : s.bw.cur = 0#3) : ChecksPass encodeSteps s := by
  refine checksPass_cons (P := fun t => t.bw.cur = 0#3) rfl (fun t ht => ?_) fun m hm => ?_
  · cases ht
    exact h
  refine checksPass_cons (P := fun t => t.bw.cur = 0#3) rfl (fun t ht => ?_) fun m hm => ?_
  · exact (cur_of_countBody_eq_done ht).trans hm
  refine checksPass_cons (P := fun t => t.bw.cur = 0#3 ∧ t.tvalid = true) rfl (fun t ht => ?_) fun m ⟨hw, ht⟩ => ?_
  · exact (of_tbuildBody_eq_done ht).imp_left fun hcur => hcur.trans hm
  exact checksPass_cons (needTree_of_tvalid ht) (fun _ => readyToSend_of_cgenBody_eq_done hw ht)
    fun _ => checksPass_fileCommands

end Sys2Proof.Machine

namespace Sys2Proof.Proofs

open Sys2Proof.Machine

/-- Settles O44: the nine bodies run in turn, and a fault of one of them is recorded with the word of its own command, or with
that of `ENCODE`. -/
theorem encodeIsNineCommands : Obligations.EncodeIsNineCommands := by
  intro s herr hcur
  have hwf : ∀ i ∈ encodeSteps, i.wellFormed = true := by decide
  obtain ⟨t, hall, hrecorded⟩ := execAll_eq_recorded herr hwf (checksPass_encodeSteps hcur) (encode .encode)
  have hexec := exec_eq_recorded (i := .encode) herr rfl (needEmptyWriter_of_empty hcur)
  refine ⟨t, hall, hexec.trans ?_⟩
  rw [show bodyOf .encode s = bodiesOf encodeSteps s from encodeBody_eq_bodiesOf s, hrecorded,
    show encode .encode = 0x0B00000000000000#64 by decide]

end Sys2Proof.Proofs
end
section
/-! SUPPORT. Pieces of pseudocode that end in one state, unless an access draws an error (spec/20_memory.md R39): the pushes, the
bit writer, the loop of `PAYLOAD`, and the loop of `COUNT` where no entry overflows. -/

namespace Sys2Proof.Machine

/-! ### Draws -/

/-- The next `n` answers are no errors, or there is a first error among them. -/
theorem drawsSucceed_or_first_error (s : State) (n : Nat) :
    s.DrawsSucceed n ∨ ∃ k rest, k < n ∧ s.ioErrs = List.replicate k false ++ true :: rest := by
  unfold State.DrawsSucceed
  induction s.ioErrs generalizing n with
  | nil => exact .inl (by simp)
  | cons e es ih =>
    cases n with
    | zero => exact .inl (by simp)
    | succ n =>
      cases e with
      | true => exact .inr ⟨0, es, n.succ_pos, rfl⟩
      | false =>
        obtain h | ⟨k, rest, hk, rfl⟩ := ih n
        · exact .inl (by simpa using h)
        · exact .inr ⟨k + 1, rest, Nat.succ_lt_succ hk, rfl⟩

theorem not_noIoErrors_of_first_error {s : State} {k : Nat} {rest : List Bool}
    (h : s.ioErrs = List.replicate k false ++ true :: rest) : ¬ s.noIoErrors := by simp [h]

theorem noIoErrors_of_drop {s t : State} {n : Nat} (h : s.noIoErrors) (ht : t.ioErrs = s.ioErrs.drop n) : t.noIoErrors := by
  rw [State.noIoErrors, ht, List.all_eq_true]
  exact fun e he => List.all_eq_true.mp h e (List.mem_of_mem_drop he)

theorem withFreq_noIoErrors_iff (s : State) (f : Vector Count 256) : (s.withFreq f).noIoErrors ↔ s.noIoErrors := by
  rw [State.noIoErrors, State.withFreq_ioErrs]

/-! ### Counts that fit -/

/-- A byte that has not yet occurred `CNTMAX` times can be counted. -/
theorem countsFit_concat {bs : List Byte} {b : Byte} (h : countsFit bs) (hb : bs.count b ≠ Config.cntMax) :
    countsFit (bs ++ [b]) := by
  intro y
  have hy := h y
  rw [List.count_append, List.count_singleton]
  split
  · next heq =>
    rw [eq_of_beq heq] at hb
    omega
  · exact hy

/-- A byte that has occurred `CNTMAX` times must not occur again. -/
theorem not_countsFit_of_full {pre bs : List Byte} {b : Byte} (h : pre.count b = Config.cntMax) :
    ¬ countsFit (pre ++ [b] ++ bs) := by
  intro hfit
  have hb := hfit b
  rw [List.count_append, List.count_append, List.count_singleton_self, h] at hb
  omega

/-! ### What an empty writer accepts and flushes -/

/-- Bits that fill whole bytes leave an empty writer empty. -/
theorem acceptBits_of_whole {s : State} (hw : s.bw = BitWriter.empty) {bits : List Bool}
    (hcur : (s.acceptBits bits).bw.cur = 0#3) : s.acceptBits bits = s.pushAll (packBits bits) := by
  rw [State.acceptBits_bw, hw] at hcur
  rw [acceptBits_eq, hw, (BitWriter.clean_empty.append bits).eq_empty hcur,
    packBits_of_whole ((BitWriter.cur_append_empty_eq_zero_iff bits).mp hcur), ← hw]
  rfl

/-- Bits that do not fill whole bytes leave a byte that completes their packing. -/
theorem flush_acceptBits_of_partial {s : State} (hw : s.bw = BitWriter.empty) {bits : List Bool}
    (hcur : (s.acceptBits bits).bw.cur ≠ 0#3) :
    ((s.acceptBits bits).pushAll [(s.acceptBits bits).bw.buf]).setWriter 0#8 0#3 = s.pushAll (packBits bits) := by
  rw [State.acceptBits_bw, hw] at hcur ⊢
  rw [packBits_of_partial ((BitWriter.cur_append_empty_eq_zero_iff bits).not.mp hcur), ← pushAll_pushAll, acceptBits_eq, hw]
  exact congrArg (fun t : State => t.pushAll _) (setWriter_of_empty (s := s.pushAll _) hw)

/-! ### Bodies that end in one state -/

/-- The body is done in `r`; it can raise a fault only where `c` does not hold. -/
def Body.EndsAt (c : Prop) (r : State) (b : Body) : Prop := b.Ends (· = r) fun _ _ => ¬ c

theorem Body.EndsAt.andThen {c : Prop} {P : State → Prop} {m : State} {b : Body} {k : State → Body} (hb : b.EndsAt c m)
    (hk : (k m).Ends P fun _ _ => ¬ c) : (b.andThen k).Ends P fun _ _ => ¬ c :=
  Body.Ends.andThen hb fun _ hm => hm ▸ hk

section EndsAt

variable {c : Prop} {s : State} (hc : c → s.noIoErrors)
include hc

theorem endsAt_inRead : (inRead s).EndsAt c (s.readAll 1) := by
  cases hdraw : s.nextDraw with
  | false =>
    rw [inRead_of_success hdraw]
    exact rfl
  | true =>
    rw [inRead_of_error hdraw]
    exact fun h => Bool.false_ne_true ((State.nextDraw_of_noIoErrors (hc h)).symm.trans hdraw)

theorem endsAt_outBytes (bs : List Byte) : (outBytes bs s).EndsAt c (s.pushAll bs) := by
  obtain h | ⟨k, rest, hk, hio⟩ := drawsSucceed_or_first_error s bs.length
  · rw [outBytes_of_no_error bs s h]
    exact rfl
  · rw [outBytes_of_error bs s k rest hio hk]
    exact fun h => not_noIoErrors_of_first_error hio (hc h)

theorem endsAt_pushBits (hclean : s.writerClean) (bits : List Bool) : (pushBits bits s).EndsAt c (s.acceptBits bits) := by
  obtain h | ⟨k, rest, hk, hio⟩ := drawsSucceed_or_first_error s (s.bw.filled bits / 8)
  · rw [pushBits_of_success hclean h]
    exact rfl
  · rw [pushBits_of_error hclean hio hk]
    exact fun h => not_noIoErrors_of_first_error hio (hc h)

/-- Reading bytes that all have a code: their codes, one after the other, go to the bit writer (R99). -/
theorem endsAt_overBytes_payloadByte {bs : List Byte} (hclean : s.writerClean) (hcoded : allCoded s.code bs) :
    (overBytes payloadByte bs s).EndsAt c ((s.acceptBits (codeString s.code bs)).readAll bs.length) := by
  induction bs generalizing s with
  | nil =>
    rw [codeString, List.flatMap_nil, acceptBits_nil, List.length_nil, readAll_zero]
    exact rfl
  | cons b bs ih =>
    obtain ⟨hb, hbs⟩ := List.forall_mem_cons.mp hcoded
    have hread : c → (s.readAll 1).noIoErrors := fun h => noIoErrors_of_drop (hc h) (s.readAll_ioErrs 1)
    have hsent : (payloadByte b (s.readAll 1)).EndsAt c ((s.acceptBits (codeString s.code [b])).readAll 1) := by
      rw [payloadByte_of_coded (s := s.readAll 1) hb, ← acceptBits_readAll]
      exact endsAt_pushBits hread hclean _
    have hrest := ih (s := (s.acceptBits (codeString s.code [b])).readAll 1)
      (fun h => noIoErrors_of_drop (noIoErrors_of_drop (hc h) (s.acceptBits_ioErrs _)) (State.readAll_ioErrs _ 1))
      (BitWriter.Clean.append _ hclean) hbs
    rw [State.readAll_code, State.acceptBits_code, acceptBits_readAll, acceptBits_acceptBits hclean, readAll_readAll,
      ← codeString_append, List.singleton_append, Nat.add_comm, ← List.length_cons (a := b)] at hrest
    exact (endsAt_inRead hc).andThen (hsent.andThen hrest)

/-- Bits accepted by an empty writer are flushed to their packed bytes (R87, R90). -/
theorem endsAt_bitFlush_acceptBits (hw : s.bw = BitWriter.empty) (bits : List Bool) :
    (bitFlush (s.acceptBits bits)).EndsAt c (s.pushAll (packBits bits)) := by
  by_cases hcur : (s.acceptBits bits).bw.cur = 0#3
  · rw [bitFlush_of_empty hcur]
    exact acceptBits_of_whole hw hcur
  · cases hdraw : (s.acceptBits bits).nextDraw with
    | false =>
      rw [bitFlush_of_success hcur hdraw]
      exact flush_acceptBits_of_partial hw hcur
    | true =>
      have hio (h : c) := noIoErrors_of_drop (hc h) (s.acceptBits_ioErrs bits)
      rw [bitFlush_of_error hcur hdraw]
      exact fun h => Bool.false_ne_true ((State.nextDraw_of_noIoErrors (hio h)).symm.trans hdraw)

/-- Reading and counting bytes on top of those counted before ends in the table of all of them, which then fit (R58). -/
theorem ends_overBytes_countByte {pre bs : List Byte} (hpre : countsFit pre) (hfit : c → countsFit (pre ++ bs)) :
    (overBytes countByte bs (s.withFreq (countTable pre))).Ends
      (fun t => t = (s.readAll bs.length).withFreq (countTable (pre ++ bs)) ∧ countsFit (pre ++ bs)) fun _ _ => ¬ c := by
  induction bs generalizing pre s with
  | nil =>
    rw [List.append_nil, List.length_nil, readAll_zero]
    exact ⟨rfl, hpre⟩
  | cons b bs ih =>
    have hmove : pre ++ b :: bs = pre ++ [b] ++ bs := by simp
    rw [hmove] at hfit
    rw [hmove, overBytes]
    have hread := endsAt_inRead fun h => (withFreq_noIoErrors_iff s (countTable pre)).mpr (hc h)
    rw [readAll_withFreq] at hread
    refine hread.andThen ?_
    cases eq_or_ne (pre.count b) Config.cntMax with
    | inl hfull =>
      rw [countByte_of_full _ hfull, Body.andThen_raised]
      exact fun h => not_countsFit_of_full hfull (hfit h)
    | inr hfull =>
      have hb := countsFit_concat hpre hfull
      have hrest := ih (s := s.readAll 1) (fun h => noIoErrors_of_drop (hc h) (s.readAll_ioErrs 1)) hb hfit
      rw [readAll_readAll, Nat.add_comm, ← List.length_cons (a := b)] at hrest
      rwa [countByte_of_fits _ (hb b), Body.andThen_done]

end EndsAt

end Sys2Proof.Machine
end
section
/-! SUPPORT. What `ENCODE` leaves where it ends without a fault, and that it does so where no access draws an error and the
input has at most `CNTMAX` bytes (spec/44_encoder.md R92, R100, R102, R103): O45, O46 and O48. -/

namespace Sys2Proof.Machine

/-! ### The counts of an input -/

/-- The table of counts that fit counts every byte once. -/
theorem freqTotal_countTable {bs : List Byte} (h : countsFit bs) : freqTotal (countTable bs) = bs.length := by
  have hmem : ∀ y ∈ (bs : Multiset Byte), y ∈ allSymbols.toFinset := fun y _ => List.mem_toFinset.mpr (mem_allSymbols y)
  rw [freqTotal, List.map_congr_left fun y _ => toNat_freqAt_countTable (h y), ← List.sum_toFinset _ nodup_allSymbols]
  simpa using Multiset.sum_count_eq_card hmem

theorem freqAt_countTable_ne_zero {bs : List Byte} (h : countsFit bs) {y : Byte} (hy : y ∈ bs) :
    freqAt (countTable bs) y ≠ 0#55 := by
  intro hzero
  have hcount := toNat_freqAt_countTable (h y)
  rw [hzero] at hcount
  exact (List.count_pos_iff.mpr hy).ne hcount

/-- An input of at most `CNTMAX` bytes has counts that fit. -/
theorem countsFit_of_length_le {bs : List Byte} (h : bs.length ≤ Config.cntMax) : countsFit bs :=
  fun _ => List.count_le_length.trans h

/-! ### Counting, and the codes of the counts -/

/-- No access draws an error, and the counts of the input fit in one count: then `ENCODE` raises no fault. -/
def State.Calm (s : State) : Prop := s.noIoErrors ∧ s.input.length ≤ Config.cntMax

/-- What the first two commands of `ENCODE` leave: the counts of the whole input (R58). -/
structure Tallied (s m : State) : Prop where
  counts : CountsOnly s.rewindInput.clearValid.clearFreq m
  freq : m.freq = countTable s.input
  fits : countsFit s.input
  calm : s.Calm → m.noIoErrors

theorem ends_tallied {s : State} (hlen : s.input.length < 2 ^ 64) :
    (countBody s.rewindInput).Ends (Tallied s) fun _ _ => ¬ s.Calm := by
  have hcounts := Body.ends_of_final (P := CountsOnly s.rewindInput.clearValid.clearFreq)
    (countsOnly_countBody s.rewindInput)
  have hloop := ends_overBytes_countByte (c := s.Calm) (s := s.rewindInput.clearValid) (pre := []) (bs := s.input)
    And.left (fun _ => Nat.zero_le _) fun h => countsFit_of_length_le h.2
  rw [List.nil_append] at hloop
  have hbody : countBody s.rewindInput = _ := countBody_eq_overBytes (s := s.rewindInput) hlen
  rw [show s.rewindInput.remaining = s.input from rfl] at hbody
  rw [← hbody] at hloop
  refine (hloop.and hcounts).mono fun m ⟨⟨hm, hfit⟩, hkept⟩ => ?_
  subst hm
  refine ⟨hkept, rfl, hfit, fun h => (withFreq_noIoErrors_iff _ _).mpr ?_⟩
  exact noIoErrors_of_drop h.1 (State.readAll_ioErrs _ _)

/-- The tables that `ENCODE` leaves: the counts of the input, the tree of these counts, its codes; all else but the streams, the
writer and the environment's answers is as before. -/
structure CodesOfInput (s m : State) : Prop where
  freq : m.freq = countTable s.input
  fits : countsFit s.input
  tvalid : m.tvalid = true
  cvalid : m.cvalid = true
  truthful : m.flagsTruthful
  err : m.err = s.err
  errinfo : m.errinfo = s.errinfo
  input : m.input = s.input

theorem CodesOfInput.of_streamsOnly {s m t : State} (h : CodesOfInput s m) (hkept : StreamsOnly m t) : CodesOfInput s t :=
  ⟨hkept.freq.trans h.freq, h.fits, hkept.tvalid.trans h.tvalid, hkept.cvalid.trans h.cvalid,
    hkept.flagsTruthful h.truthful, hkept.err.trans h.err, hkept.errinfo.trans h.errinfo, hkept.input.trans h.input⟩

/-- What the first four commands of `ENCODE` leave (R58, R70, R81). -/
structure Coded (s m : State) : Prop where
  codes : CodesOfInput s m
  bw : m.bw = s.bw
  out : m.out = s.out
  olen : m.olen = s.olen
  calm : s.Calm → m.noIoErrors

/-- `TBUILD` and `CGEN` make the tree and the codes of the counts; an overflow shows an input of more than `CNTMAX` bytes. -/
theorem Tallied.ends_coded {s m : State} (h : Tallied s m) :
    ((tbuildBody m).andThen cgenBody).Ends (Coded s) fun _ _ => ¬ s.Calm := by
  have hc := h.counts
  obtain ⟨b, hb, hbuilt⟩ | ⟨-, hover, b, hb⟩ := mergeLoop_startBuilder m.freq m.tree.node
  · obtain ⟨table, hdone, htable⟩ := cgenBody_of_sound (s := (m.clearValid.setTree b.finish).markTree) hbuilt.sound
    rw [tbuildBody_of_built hb, Body.andThen_done, hdone]
    have htruthful : State.flagsTruthful { (m.clearValid.setTree b.finish).markTree with code := table, cvalid := true } :=
      ⟨fun _ => builtTree_of_mergeLoop hb, fun _ => ⟨rfl, htable⟩⟩
    exact ⟨⟨h.freq, h.fits, rfl, rfl, htruthful, hc.err, hc.errinfo, hc.input⟩, hc.bw, hc.out, hc.olen, h.calm⟩
  · obtain ⟨t, ht⟩ := tbuildBody_of_overflow hb
    rw [h.freq, freqTotal_countTable h.fits] at hover
    rw [ht, Body.andThen_raised]
    exact fun hcalm => not_lt.mpr hcalm.2 hover

theorem CodesOfInput.allCoded {s m : State} (h : CodesOfInput s m) : allCoded m.code m.input := by
  intro b hb
  rw [h.input] at hb
  have hfreq : freqAt m.freq b ≠ 0#55 := h.freq ▸ freqAt_countTable_ne_zero h.fits hb
  rw [(h.truthful.2 h.cvalid).2 b]
  exact h.truthful.valid_tableEntry h.tvalid hfreq

/-! ### The file -/

/-- The last five commands of `ENCODE` (R56, R100). -/
def sendFile (s : State) : Body :=
  ((((hdrBody s).andThen tserBody).andThen rewindBody).andThen payloadBody).andThen bitFlush

theorem encodeBody_eq (s : State) :
    encodeBody s = ((countBody s.rewindInput).andThen fun m => (tbuildBody m).andThen cgenBody).andThen sendFile := by
  have hsend : sendFile = fun s =>
    ((((hdrBody s).andThen tserBody).andThen rewindBody).andThen payloadBody).andThen bitFlush := rfl
  simp only [encodeBody, hsend, rewindBody, Body.andThen_assoc, Body.andThen_done]

/-- What the five commands leave: the file of R92 in `OUT`, the cursor at the end, the writer empty. -/
def State.withFile (s : State) : State :=
  (((s.pushAll (magicBytes ++ treeBytes s.tree)).rewindInput).readAll s.input.length).pushAll
    (packBits (codeString s.code s.input))

/-- The header and the tree are pushed in a row (R95, R96). -/
theorem hdr_tser_eq_outBytes {s : State} (h : s.tree.sound = true) :
    (hdrBody s).andThen tserBody = outBytes (magicBytes ++ treeBytes s.tree) s :=
  outBytes_andThen fun _ hm => hm ▸ tserBody_of_sound (hm ▸ h)

/-- `PAYLOAD` from the start of the input and the flush push the packed codes of the input (R90, R99). -/
theorem endsAt_payload_flush {c : Prop} {s : State} (hc : c → s.noIoErrors) (hlen : s.input.length < 2 ^ 64)
    (hw : s.bw = BitWriter.empty) (hcoded : allCoded s.code s.input) (hcur : s.icur = 0#64) :
    ((payloadBody s).andThen bitFlush).EndsAt c
      ((s.readAll s.input.length).pushAll (packBits (codeString s.code s.input))) := by
  have hclean : s.writerClean := by
    rw [State.writerClean, hw]
    exact BitWriter.clean_empty
  have hrem : s.remaining = s.input := by
    rw [State.remaining, hcur]
    rfl
  have hsent := endsAt_overBytes_payloadByte hc hclean hcoded
  rw [payloadBody_eq_overBytes hlen, hrem]
  rw [← acceptBits_readAll] at hsent
  exact hsent.andThen (endsAt_bitFlush_acceptBits (fun h => noIoErrors_of_drop (hc h) (s.readAll_ioErrs _)) hw _)

theorem endsAt_sendFile {c : Prop} {s : State} (hc : c → s.noIoErrors) (hlen : s.input.length < 2 ^ 64)
    (hw : s.bw = BitWriter.empty) (hsound : s.tree.sound = true) (hcoded : allCoded s.code s.input) :
    (sendFile s).EndsAt c s.withFile := by
  rw [sendFile, hdr_tser_eq_outBytes hsound, Body.andThen_assoc, Body.andThen_assoc]
  refine (endsAt_outBytes hc _).andThen ?_
  exact endsAt_payload_flush (s := (s.pushAll _).rewindInput) (fun h => noIoErrors_of_drop (hc h) (s.pushAll_ioErrs _))
    hlen hw hcoded rfl

theorem streamsOnly_withFile (s : State) : StreamsOnly s s.withFile :=
  .trans _ _ _ (.pushAll s _) ⟨rfl, rfl, rfl, rfl, rfl, rfl, rfl, rfl, rfl, rfl, rfl, List.prefix_append _ _⟩

theorem withFile_out (s : State) : s.withFile.out = s.out ++ fileBytes s.tree (codeString s.code s.input) :=
  List.append_assoc _ _ _

theorem withFile_olen (s : State) :
    s.withFile.olen = s.olen + BitVec.ofNat 64 (fileBytes s.tree (codeString s.code s.input)).length := by
  rw [fileBytes, List.length_append, BitVec.ofNat_add, ← BitVec.add_assoc]
  rfl

theorem withFile_icur (s : State) : s.withFile.icur = BitVec.ofNat 64 s.input.length := BitVec.zero_add _

/-! ### The whole command -/

/-- What `ENCODE` leaves where it ends without a fault (R100). -/
structure Encoded (s t : State) : Prop where
  codes : CodesOfInput s t
  icur : t.icur = BitVec.ofNat 64 s.input.length
  bw : t.bw = BitWriter.empty
  out : t.out = s.out ++ fileBytes t.tree (codeString t.code s.input)
  olen : t.olen = s.olen + BitVec.ofNat 64 (fileBytes t.tree (codeString t.code s.input)).length

theorem Coded.encoded {s m : State} (h : Coded s m) (hw : s.bw = BitWriter.empty) : Encoded s m.withFile := by
  have hinput := h.codes.input
  refine ⟨h.codes.of_streamsOnly (streamsOnly_withFile m), ?_, h.bw.trans hw, ?_, ?_⟩
  · rw [withFile_icur, hinput]
  · rw [withFile_out, h.out, hinput]
    rfl
  · rw [withFile_olen, h.olen, hinput]
    rfl

theorem ends_encoded {s : State} (hw : s.bw = BitWriter.empty) (hlen : s.input.length < 2 ^ 64) :
    (encodeBody s).Ends (Encoded s) fun _ _ => ¬ s.Calm := by
  rw [encodeBody_eq]
  refine ((ends_tallied hlen).andThen fun _ h => h.ends_coded).andThen fun m h => ?_
  have hsound := h.codes.truthful.sound h.codes.tvalid
  have hsent := endsAt_sendFile h.calm (h.codes.input ▸ hlen) (h.bw.trans hw) hsound h.codes.allCoded
  exact hsent.mono fun t ht => ht ▸ h.encoded hw

/-- `ENCODE` that ends without a fault. -/
theorem encoded_of_exec {s t : State} (herr : s.err = .none) (hw : s.bw = BitWriter.empty)
    (hlen : s.input.length < 2 ^ 64) (h : exec .encode s = .next t) (ht : t.err = .none) : Encoded s t := by
  have hends := ends_encoded hw hlen
  have hguard : guardOf .encode s = none := needEmptyWriter_of_empty (hw ▸ rfl)
  obtain ⟨he, -⟩ | ⟨-, hdone⟩ | ⟨-, e, m, hraised, rfl⟩ := exec_cases_of_unguarded rfl hguard h
  · exact absurd herr he
  · rwa [show encodeBody s = .done t from hdone] at hends
  · exact absurd (ht ▸ bodyOf_raised_mem hraised) (none_not_mem_bodyFaults .encode)

/-- `ENCODE` where nothing can go wrong. -/
theorem exec_encode_of_calm {s : State} (herr : s.err = .none) (hw : s.bw = BitWriter.empty) (hcalm : s.Calm) :
    ∃ t, exec .encode s = .next t ∧ Encoded s t := by
  have hends := ends_encoded hw (hcalm.2.trans_lt (by decide))
  cases hbody : encodeBody s with
  | done t =>
    rw [hbody] at hends
    exact ⟨t, issue_done herr rfl (needEmptyWriter_of_empty (hw ▸ rfl)) hbody, hends⟩
  | raised e t =>
    rw [hbody] at hends
    exact absurd hcalm hends

/-! ### The file is that of the input -/

theorem sameTree.tableEntry_eq {t u : TreeMem} (h : sameTree t u) (y : Byte) : tableEntry t y = tableEntry u y := by
  rw [tableEntry, tableEntry, h.tree?_eq, h.2.2.1]

theorem sameTree.treeBytes_eq {t u : TreeMem} (h : sameTree t u) : treeBytes t = treeBytes u := by
  rw [treeBytes, treeBytes, h.tree?_eq, h.2.2.1]

/-- The bits of a byte sequence in the codes of a tree, one code after another (R81, R99). -/
def treeCodeString (t : TreeMem) (bs : List Byte) : List Bool := bs.flatMap fun b => entryBits (tableEntry t b)

/-- What `ENCODE` writes is the file of the tree that `TBUILD` makes of the input's counts, wherever it makes it (R103). -/
theorem Encoded.exists_builtTree {s t : State} (h : Encoded s t) :
    ∃ u, builtTree (countTable s.input) = some u ∧ sameTree t.tree u ∧
      t.out = s.out ++ fileBytes u (treeCodeString u s.input) := by
  obtain ⟨u, hu, hsame⟩ := h.codes.truthful.1 h.codes.tvalid
  have hcode (y : Byte) : codeAt t.code y = tableEntry u y :=
    ((h.codes.truthful.2 h.codes.cvalid).2 y).trans (hsame.tableEntry_eq y)
  refine ⟨u, h.codes.freq ▸ hu, hsame, ?_⟩
  simp only [h.out, fileBytes, codeString, treeCodeString, hcode, hsame.treeBytes_eq]

theorem leafCount_countTable_nil : leafCount (countTable []) = 0 := by
  refine List.length_eq_zero_iff.mpr (List.eq_nil_iff_forall_not_mem.mpr fun y hy => ?_)
  exact (mem_sortedSymbols _ y).mp hy (freqAt_countTable [] y)

end Sys2Proof.Machine

namespace Sys2Proof.Proofs

open Sys2Proof.Machine

/-- Settles O45: nothing can raise a fault, and each of the nine bodies ends in the state that the next one needs. -/
theorem encodeWritesOneFile : Obligations.EncodeWritesOneFile := by
  intro s herr hw hio hlen
  obtain ⟨t, hexec, h⟩ := exec_encode_of_calm herr hw ⟨hio, hlen⟩
  have hc := h.codes
  exact ⟨t, hexec, hc.err.trans herr, hc.errinfo, h.icur, hc.freq, hc.tvalid, hc.cvalid, hc.truthful, h.bw, hc.input, h.out,
    h.olen⟩

/-- Settles O46: no byte value has a count, so there is no leaf, no tree and no code. -/
theorem encodeOfEmptyInput : Obligations.EncodeOfEmptyInput := by
  intro s herr hw hio hinput
  obtain ⟨t, hexec, h⟩ := exec_encode_of_calm herr hw ⟨hio, by simp [hinput]⟩
  have hc := h.codes
  obtain ⟨u, hu, hsame, hout⟩ := h.exists_builtTree
  rw [hinput] at hu hout
  have hbuilt := builtTree_spec hu
  have ⟨_, hnnode, hroot, _⟩ := hsame
  have huroot : u.root = Config.nil := by rw [hbuilt.root, if_pos leafCount_countTable_nil]
  have hunnode : u.nnode = 0#9 := BitVec.eq_of_toNat_eq (by rw [hbuilt.nnode, leafCount_countTable_nil]; rfl)
  refine ⟨t, hexec, hc.err.trans herr, fun y => ?_, hroot.trans huroot, hnnode.trans hunnode, hc.tvalid, fun y => ?_,
    hc.cvalid, h.bw, ?_⟩
  · rw [hc.freq, hinput]
    exact freqAt_countTable [] y
  · rw [(hc.truthful.2 hc.cvalid).2 y, hsame.tableEntry_eq, tableEntry, if_pos huroot]
    rfl
  · rw [hout, fileBytes, treeBytes, if_pos huroot, treeCodeString, List.flatMap_nil, show packBits [] = [] from rfl,
      List.append_nil, List.nil_append, List.append_assoc]

/-- Settles O48: both runs write the file of the tree that `TBUILD` makes of the input's counts. -/
theorem encodeOutputDependsOnInputAlone : Obligations.EncodeOutputDependsOnInputAlone := by
  intro s u s' u' hs hu hws hwu hinput hlen hexec hexec' hs' hu'
  obtain ⟨v, hv, -, hout⟩ := (encoded_of_exec hs hws hlen hexec hs').exists_builtTree
  obtain ⟨v', hv', -, hout'⟩ := (encoded_of_exec hu hwu (hinput ▸ hlen) hexec' hu').exists_builtTree
  rw [← hinput] at hv' hout'
  cases hv.symm.trans hv'
  exact ⟨_, hout, hout'⟩

end Sys2Proof.Proofs
end
section
/-! SUPPORT. The decoder of R101 reads back what `ENCODE` was given (spec/44_encoder.md R92 to R94, R101): a record, a tree, the
packed bits, and the codes of a byte sequence one after another. O47. -/

namespace Sys2Proof.Machine

/-! ### Records -/

@[simp] theorem length_littleEndian (w : Word) : (littleEndian w).length = 8 := by simp [littleEndian]

/-- Eight bytes, least significant first, are put together to their word (R40). -/
theorem wordOfBytes_littleEndian (w : Word) : wordOfBytes (littleEndian w) = w := by
  have hlt := w.isLt
  refine BitVec.eq_of_toNat_eq ?_
  simp only [wordOfBytes, littleEndian, List.range_succ, List.range_zero, List.nil_append, List.cons_append, List.map_cons,
    List.map_nil, List.foldr_cons, List.foldr_nil, BitVec.toNat_ofNat]
  omega

theorem wordOfBytes_zeros : wordOfBytes (List.replicate 8 0#8) = 0#64 := by decide

/-- A record `{sym, cnt, leaf}` as a number (R93). -/
theorem toNat_record (y : Byte) (n : Count) (b : BitVec 1) :
    (y ++ n ++ b : Word).toNat = b.toNat + 2 * n.toNat + 2 ^ 56 * y.toNat := by
  rw [toNat_append_eq_add, toNat_append_eq_add]
  omega

theorem sym_of_record (y : Byte) (n : Count) (b : BitVec 1) : (y ++ n ++ b : Word).extractLsb' 56 8 = y := by
  have hb := b.isLt
  refine BitVec.eq_of_toNat_eq ?_
  rw [BitVec.extractLsb'_toNat, toNat_record, Nat.shiftRight_eq_div_pow]
  omega

theorem cnt_of_record (y : Byte) (n : Count) (b : BitVec 1) : (y ++ n ++ b : Word).extractLsb' 1 55 = n := by
  have hb := b.isLt
  refine BitVec.eq_of_toNat_eq ?_
  rw [BitVec.extractLsb'_toNat, toNat_record, Nat.shiftRight_eq_div_pow]
  omega

theorem leaf_of_record (y : Byte) (n : Count) (b : BitVec 1) : (y ++ n ++ b : Word)[0] = b[0] := by
  rw [BitVec.getElem_append]
  rfl

/-- Only the word 0 is eight zero bytes. -/
theorem littleEndian_ne_zeros {w : Word} (h : 0 < w.toNat) : littleEndian w ≠ List.replicate 8 0#8 := by
  intro heq
  rw [← wordOfBytes_littleEndian w, heq, wordOfBytes_zeros] at h
  exact absurd h (by decide)

/-! ### Trees -/

/-- What `ParseNode` does with the record of a leaf (R101). -/
theorem parseNode_leaf (d : Nat) (y : Byte) (n : Count) (rest : List Byte) :
    parseNode (d + 1) (littleEndian (y ++ n ++ 1#1) ++ rest) = some (.leaf y n.toNat, rest) := by
  have htake := List.take_left' (l₂ := rest) (length_littleEndian (y ++ n ++ 1#1))
  have hdrop := List.drop_left' (l₂ := rest) (length_littleEndian (y ++ n ++ 1#1))
  simp [parseNode, htake, hdrop, wordOfBytes_littleEndian, leaf_of_record, sym_of_record, cnt_of_record]

/-- What `ParseNode` does with the record of an internal node, whose subtrees follow it (R101). -/
theorem parseNode_node {d : Nat} {n : Count} {bs rest rest' : List Byte} {l r : Tree}
    (hl : parseNode d bs = some (l, rest)) (hr : parseNode d rest = some (r, rest')) :
    parseNode (d + 1) (littleEndian (0#8 ++ n ++ 0#1) ++ bs) = some (.node n.toNat l r, rest') := by
  have htake := List.take_left' (l₂ := bs) (length_littleEndian (0#8 ++ n ++ 0#1))
  have hdrop := List.drop_left' (l₂ := bs) (length_littleEndian (0#8 ++ n ++ 0#1))
  simp [parseNode, htake, hdrop, wordOfBytes_littleEndian, leaf_of_record, cnt_of_record, hl, hr]

/-- The records of a tree in preorder are read back, whatever follows them (R96, R101). -/
theorem parseNode_records {d i : Nat} {t : TreeMem} {tr : Tree} (h : treeAt d t i = some tr) (rest : List Byte) :
    parseNode d (tr.records.flatMap littleEndian ++ rest) = some (tr, rest) := by
  induction d generalizing i tr rest with
  | zero => cases h
  | succ d ih =>
    obtain ⟨-, ⟨-, rfl⟩ | ⟨-, l, r, hl, hr, rfl⟩⟩ := treeAt_cases h <;>
      rw [Tree.records, BitVec.ofNat_toNat, BitVec.setWidth_eq]
    · rw [List.flatMap_singleton]
      exact parseNode_leaf d _ _ rest
    · rw [List.flatMap_cons, List.flatMap_append, List.append_assoc, List.append_assoc]
      exact parseNode_node (ih hl _) (ih hr rest)

/-- The first record of a tree that counts something is not eight zero bytes, so it is no footer (R94). -/
theorem take_records_ne_zeros {d i : Nat} {t : TreeMem} {tr : Tree} (h : treeAt d t i = some tr) (hpos : 0 < tr.count)
    (rest : List Byte) : (tr.records.flatMap littleEndian ++ rest).take 8 ≠ List.replicate 8 0#8 := by
  cases d with
  | zero => cases h
  | succ d =>
    obtain ⟨-, ⟨-, rfl⟩ | ⟨-, l, r, -, -, rfl⟩⟩ := treeAt_cases h <;>
      rw [Tree.records, List.flatMap_cons, List.append_assoc, List.take_left' (length_littleEndian _)] <;>
      refine littleEndian_ne_zeros ?_ <;> rw [toNat_record, BitVec.ofNat_toNat, BitVec.setWidth_eq]
    · exact Nat.add_pos_left (Nat.add_pos_left Nat.one_pos _) _
    · exact Nat.add_pos_left (Nat.add_pos_right _ (Nat.mul_pos Nat.two_pos hpos)) _

/-! ### The packed bits -/

/-- Bit `m` of some bytes is bit `m mod 8` of byte `m / 8` (R101). -/
theorem getElem?_bitsOfBytes (bs : List Byte) (m : Nat) : (bitsOfBytes bs)[m]? = bs[m / 8]?.map (·.getLsbD (m % 8)) := by
  induction bs generalizing m with
  | nil => rfl
  | cons b bs ih =>
    have hlen : ((List.range 8).map b.getLsbD).length = 8 := by simp
    rw [bitsOfBytes, List.flatMap_cons, ← bitsOfBytes]
    by_cases hm : m < 8
    · rw [List.getElem?_append_left (by rwa [hlen]), Nat.div_eq_of_lt hm, Nat.mod_eq_of_lt hm]
      simp [hm]
    · obtain ⟨k, rfl⟩ := Nat.exists_eq_add_of_le (not_lt.mp hm)
      rw [List.getElem?_append_right (by omega), hlen, Nat.add_sub_cancel_left, ih, Nat.add_mod_left,
        show (8 + k) / 8 = k / 8 + 1 by omega, List.getElem?_cons_succ]

/-- The bits of packed bits begin with the bits that were packed (R90, R101). -/
theorem exists_bitsOfBytes_packBits (bits : List Bool) : ∃ pad, bitsOfBytes (packBits bits) = bits ++ pad := by
  suffices hprefix : bits <+: bitsOfBytes (packBits bits) from hprefix.imp fun _ => Eq.symm
  refine List.prefix_iff_getElem?.mpr fun m hm => ?_
  have hbyte : m / 8 < (packBits bits).length := by rw [length_packBits]; omega
  have hget := List.getElem?_eq_getElem hbyte
  rw [getElem?_bitsOfBytes, hget, Option.map_some, getLsbD_of_packBits hget, List.getD_eq_getElem _ _ hm]

/-! ### The codes -/

/-- The path of a leaf leads to it (R77, R101). -/
theorem walk_of_mem_paths {tr : Tree} {p : Byte × List Bool} (h : p ∈ tr.paths) (rest : List Bool) :
    walk tr (p.2 ++ rest) = some (p.1, rest) := by
  induction tr generalizing p with
  | leaf s c =>
    obtain rfl := List.mem_singleton.mp h
    rfl
  | node c l r hl hr =>
    obtain h | h := List.mem_append.mp h <;> obtain ⟨q, hq, rfl⟩ := List.mem_map.mp h
    · exact hl hq
    · exact hr hq

/-- The code of a symbol is read as that symbol, a lone leaf's one bit too (R80, R101). -/
theorem takeSymbol_of_mem_codes {tr : Tree} {p : Byte × List Bool} (h : p ∈ tr.codes) (rest : List Bool) :
    takeSymbol tr (p.2 ++ rest) = some (p.1, rest) := by
  cases tr with
  | leaf s c =>
    obtain rfl := List.mem_singleton.mp h
    rfl
  | node c l r => exact walk_of_mem_paths (tr := .node c l r) h rest

/-- An entry sends the bits of its code (R85). -/
theorem entryBits_entryOf {bits : List Bool} (h : bits.length ≤ 255) : entryBits (entryOf bits) = bits := by
  rw [entryBits, toNat_len_entryOf h]
  exact patternBits_ofNat_bitsValue (Nat.le_succ_of_le h)

/-- A present entry of the table of a sound tree sends bits that the decoder takes for its symbol. -/
theorem takeSymbol_entryBits {t : TreeMem} {tr : Tree} (hsound : t.sound = true) (htree : t.tree? = some tr) {y : Byte}
    (hvalid : (tableEntry t y).valid = true) (rest : List Bool) :
    takeSymbol tr (entryBits (tableEntry t y) ++ rest) = some (y, rest) := by
  obtain ⟨tr', bits, htree', hheight, hmem, hentry⟩ := exists_code_of_valid hsound hvalid
  cases htree.symm.trans htree'
  rw [hentry, entryBits_entryOf (length_of_mem_codes hheight hmem).2]
  exact takeSymbol_of_mem_codes hmem rest

/-- The codes of a byte sequence are read as the sequence, whatever follows them (R101). -/
theorem takeSymbols_treeCodeString {t : TreeMem} {tr : Tree} (hsound : t.sound = true) (htree : t.tree? = some tr)
    {bs : List Byte} (hvalid : ∀ b ∈ bs, (tableEntry t b).valid = true) (rest : List Bool) :
    takeSymbols bs.length tr (treeCodeString t bs ++ rest) = some bs := by
  induction bs with
  | nil => rfl
  | cons b bs ih =>
    obtain ⟨hb, hbs⟩ := List.forall_mem_cons.mp hvalid
    have hfirst := takeSymbol_entryBits hsound htree hb (treeCodeString t bs ++ rest)
    rw [treeCodeString, List.flatMap_cons, ← treeCodeString, List.append_assoc, List.length_cons]
    simp [takeSymbols, hfirst, ih hbs]

/-! ### Files -/

/-- A file without a tree is read as no bytes (R101, R102). -/
theorem decodeFile_of_no_tree {u : TreeMem} (h : u.root = Config.nil) (payload : List Bool) :
    decodeFile (fileBytes u payload) = some [] := by
  have hfile : fileBytes u payload = magicBytes ++ (List.replicate 8 0#8 ++ packBits payload) := by
    rw [fileBytes, treeBytes, if_pos h, List.nil_append, List.append_assoc]
  rw [hfile, decodeFile, if_pos (List.take_left' length_magicBytes), List.drop_left' length_magicBytes]
  exact if_pos (List.take_left' (by simp))

/-- A file with a tree is read as the symbols of its payload, as many as the tree counts (R101). -/
theorem decodeFile_of_tree {u : TreeMem} {tr : Tree} (hroot : u.root ≠ Config.nil) (htree : u.tree? = some tr)
    (hpos : 0 < tr.count) (payload : List Bool) :
    decodeFile (fileBytes u payload) = takeSymbols tr.count tr (bitsOfBytes (packBits payload)) := by
  have hfile : fileBytes u payload =
      magicBytes ++ (tr.records.flatMap littleEndian ++ (List.replicate 8 0#8 ++ packBits payload)) := by
    rw [fileBytes, treeBytes, if_neg hroot, htree, Option.map_some, Option.getD_some, List.append_assoc, List.append_assoc]
  have hfooter : (List.replicate 8 0#8 ++ packBits payload).take 8 = List.replicate 8 0#8 := List.take_left' (by simp)
  have hpayload : (List.replicate 8 0#8 ++ packBits payload).drop 8 = packBits payload := List.drop_left' (by simp)
  rw [hfile, decodeFile, if_pos (List.take_left' length_magicBytes), List.drop_left' length_magicBytes]
  simp only [if_neg (take_records_ne_zeros htree hpos _), parseNode_records htree, hfooter, hpayload, if_true]

/-- A table without leaves is that of no bytes. -/
theorem eq_nil_of_leafCount_eq_zero {bs : List Byte} (hfit : countsFit bs) (h : leafCount (countTable bs) = 0) :
    bs = [] := by
  have htotal := freqTotal_countTable hfit
  rw [← sum_sortedSymbols, List.length_eq_zero_iff.mp h] at htotal
  exact List.eq_nil_of_length_eq_zero htotal.symm

/-- The file of an input whose counts fit is read as the input (R101). -/
theorem decodeFile_of_builtTree {bs : List Byte} {u : TreeMem} (hfit : countsFit bs) (h : BuiltTree (countTable bs) u) :
    decodeFile (fileBytes u (treeCodeString u bs)) = some bs := by
  obtain hzero | hone := Nat.eq_zero_or_pos (leafCount (countTable bs))
  · rw [decodeFile_of_no_tree (by rw [h.root, if_pos hzero]), eq_nil_of_leafCount_eq_zero hfit hzero]
  · have hroot := h.root_ne_nil hone
    have htree := h.tree?_eq hone
    have hcount := (h.count_root hone).trans (freqTotal_countTable hfit)
    have hpos := h.one_le_cnt (i := 2 * leafCount (countTable bs) - 2) (by omega)
    rw [← h.count_subtree (by omega)] at hpos
    have hvalid : ∀ b ∈ bs, (tableEntry u b).valid = true := fun b hb =>
      valid_tableEntry hroot htree ((h.symbols_perm hone).mem_iff.mpr
        ((mem_sortedSymbols _ b).mpr (freqAt_countTable_ne_zero hfit hb)))
    obtain ⟨pad, hpad⟩ := exists_bitsOfBytes_packBits (treeCodeString u bs)
    rw [decodeFile_of_tree hroot htree hpos, hcount, hpad]
    exact takeSymbols_treeCodeString h.sound htree hvalid pad

end Sys2Proof.Machine

namespace Sys2Proof.Proofs

open Sys2Proof.Machine

/-- Settles O47: the decoder reads the records, the footer and the codes in the order in which `ENCODE` has pushed them. -/
theorem encodeRoundTrip : Obligations.EncodeRoundTrip := by
  intro s t herr hw hempty hlen hexec ht
  have h := encoded_of_exec herr hw hlen hexec ht
  obtain ⟨u, hu, -, hout⟩ := h.exists_builtTree
  rw [hout, hempty, List.nil_append]
  exact decodeFile_of_builtTree h.codes.fits (builtTree_spec hu)

end Sys2Proof.Proofs
end

section
/-! SUPPORT. What every step answers, and the core with a recorded fault (R110, R115); the statements about the two. -/

namespace Sys2Proof.Machine

/-! ### Steps that answer -/

/-- With no access of the host the core keeps all state (R115). -/
theorem step_of_idle {s : State} (h : s.pending = []) : step s = .next s := by
  simp [step, portTurn, h]

theorem exec_answers (i : Instr) (s : State) : ∃ t, exec i s = .next t :=
  exec_eq_issue i s ▸ issue_answers_next i (guardOf i) (bodyOf i) s

theorem issueWord_answers (w : Word) (s : State) : ∃ t, issueWord w s = .next t := by
  unfold issueWord
  split
  · exact ⟨_, rfl⟩
  · split
    · exact ⟨_, rfl⟩
    · exact exec_answers _ s

theorem regWrite_answers (a : RegNum) (v : Word) (s : State) : ∃ t, regWrite a v s = .next t := by
  unfold regWrite
  split
  · exact issueWord_answers v s
  · exact ⟨_, rfl⟩

theorem access_answers (x : HostAccess) (s : State) : ∃ t, access x s = .next t := by
  cases x with
  | write a v => exact regWrite_answers a v s
  | read a => exact ⟨_, rfl⟩
  | reset input => exact ⟨_, rfl⟩

theorem step_answers (s : State) : ∃ t, step s = .next t := by
  cases hp : s.pending with
  | nil => exact ⟨s, step_of_idle hp⟩
  | cons x rest =>
    rw [step_of_pending hp]
    exact access_answers x _

/-! ### The faulted core -/

theorem exec_of_faulted (i : Instr) {s : State} (he : s.err ≠ .none) : exec i s = .next s :=
  (exec_eq_issue i s).trans (issue_refused he)

theorem regWrite_of_faulted (a : RegNum) (v : Word) {s : State} (he : s.err ≠ .none) : regWrite a v s = .next s := by
  unfold regWrite
  split
  · exact if_pos he
  · rw [writeOther_of_faulted a v he]

/-- A write to any number, `CMD` too, only leaves the host's queue (R110). -/
theorem step_write_of_faulted {s : State} {a : RegNum} {v : Word} {rest : List HostAccess} (he : s.err ≠ .none)
    (hp : s.pending = .write a v :: rest) : step s = .next (s.setPending rest) := by
  rw [step_of_pending hp]
  exact regWrite_of_faulted a v (s := s.setPending rest) he

/-- No step but a reset changes more than the host's queue and its answers (R110). -/
theorem step_eq_of_faulted {s t : State} (he : s.err ≠ .none) (h : step s = .next t)
    (hreset : ∀ input rest, s.pending ≠ .reset input :: rest) :
    t = { s with pending := t.pending, replies := t.replies } := by
  obtain ⟨-, rfl⟩ | ⟨x, rest, hp, hx⟩ := step_cases h
  · rfl
  · cases x with
    | write a v =>
      rw [step_write_of_faulted he hp] at h
      cases h
      rfl
    | read a =>
      cases hx
      rfl
    | reset input => exact absurd hp (hreset input rest)

end Sys2Proof.Machine

namespace Sys2Proof.Proofs

open Sys2Proof.Machine

/-- Settles O21: writes and commands meet the check of `ERR` first, a read is its answer, and a reset is the only other
access. -/
theorem faultedCoreRefusesAllButReset : Obligations.FaultedCoreRefusesAllButReset := fun s he =>
  ⟨fun _ _ _ hp => step_write_of_faulted he hp, fun i => exec_of_faulted i he, readsChangeNothing s,
    fun _ h hreset => step_eq_of_faulted he h hreset⟩

/-- Settles O20: every access answers, as every command does, and without one the core is idle. -/
theorem everyStepAnswersNext : Obligations.EveryStepAnswersNext := ⟨step_answers, fun _ hp => step_of_idle hp⟩

end Sys2Proof.Proofs
end

section
/-! SUPPORT. Hardware reset as an access of the host (R111, R116); the statement about it. -/

namespace Sys2Proof.Machine

theorem step_reset {s : State} {input : List Byte} {rest : List HostAccess} (hp : s.pending = .reset input :: rest) :
    step s = .next (hardReset input (s.setPending rest)) :=
  step_of_pending hp

/-- Whatever the state before it, a reset leaves every field of R35 as `State.reset` has it; the windows read 0 as both
flags are clear. -/
theorem atReset_hardReset (input : List Byte) (s : State) : (hardReset input s).atReset := by
  obtain ⟨hicur, holen, hout, hfreq, htvalid, hnleaf, hnnode, hroot, hcvalid, hbuf, hcur, herr, hinfo, -⟩ :=
    Proofs.resetStateMatchesTable
  exact ⟨hicur, holen, hout, hfreq, htvalid, hnleaf, hnnode, hroot, hcvalid, hbuf, hcur, herr, hinfo,
    fun _ => regRead_windows_of_flags_clear (s := hardReset input s) htvalid hcvalid⟩

end Sys2Proof.Machine

namespace Sys2Proof.Proofs

open Sys2Proof.Machine

/-- Settles O3: the step is the reset of the state with the access taken, which keeps the rest of the queue. -/
theorem hardResetGivesResetState : Obligations.HardResetGivesResetState := fun s input rest hp =>
  ⟨hardReset input (s.setPending rest), step_reset hp, atReset_hardReset input _, hardReset_input input _,
    hardReset_pending input (s.setPending rest)⟩

end Sys2Proof.Proofs
end
